-- ==== Sys2Proof/Word.lean ====
section
/-! DEFINITION. The words of the machine and the names its encoding uses: bytes, addresses, addressing
modes, operands, mnemonics, and what the bus is made of. -/

namespace Sys2Proof

/-- A register or bus data byte (00_scope.md R6: data width 8 bits). -/
abbrev Byte := BitVec 8

/-- A bus address or program counter (R6: address width 16 bits). -/
abbrev Addr := BitVec 16

/-- The 13 addressing modes (41_addressing_modes.md R150), by the tags of 30_encoding.md R91. -/
inductive Mode
  | imp | acc | imm | zp0 | zpx | zpy | rel | abs | abx | aby | ind | izx | izy
deriving DecidableEq, Repr

/-- The operand of an instruction: its addressing mode with the operand bytes that follow the opcode
(R91, R92). A two-byte operand is already the word `hi8 : lo8`. -/
inductive Operand
  | imp
  | acc
  | imm (value : Byte)
  | zp0 (zp : Byte)
  | zpx (zp : Byte)
  | zpy (zp : Byte)
  | rel (displacement : Byte)
  | abs (address : Addr)
  | abx (base : Addr)
  | aby (base : Addr)
  | ind (pointer : Addr)
  | izx (zp : Byte)
  | izy (zp : Byte)
deriving DecidableEq, Repr

/-- The 56 documented mnemonics (00_scope.md R3) and ILL, the undocumented bytes (30_encoding.md R98). -/
inductive Mnemonic
  | adc | and | asl | bcc | bcs | beq | bit | bmi | bne | bpl | brk | bvc | bvs | clc | cld | cli | clv
  | cmp | cpx | cpy | dec | dex | dey | eor | inc | inx | iny | jmp | jsr | lda | ldx | ldy | lsr | nop
  | ora | pha | php | pla | plp | rol | ror | rti | rts | sbc | sec | sed | sei | sta | stx | sty | tax
  | tay | tsx | txa | txs | tya | ill
deriving DecidableEq, Repr

/-- The flags of the status register P (10_state.md R36). -/
inductive Flag
  | c | z | i | d | b | u | v | n
deriving DecidableEq, Repr

/-- What backs a range of addresses (20_memory.md R62, R63): plain RAM, a read-only region, or a device
whose answers the spec leaves arbitrary (93_implementation_defined.md U4, U5). -/
inductive RegionKind
  | ram | rom | device
deriving DecidableEq, Repr

/-- A range of bus addresses, from `base` on, `size` bytes long, all backed alike. -/
structure Region where
  base : Nat
  size : Nat
  kind : RegionKind
deriving DecidableEq, Repr

/-- One bus call of the core (20_memory.md R61, R62): a read with the byte the bus answered, or a write
with the byte the core sent. -/
inductive BusAccess
  | read (address : Addr) (answer : Byte)
  | write (address : Addr) (value : Byte)
deriving DecidableEq, Repr

end Sys2Proof
end

