-- ==== Sys2Proof/Config.lean ====
section
/-! DEFINITION. The values the spec leaves open. They have no body: nothing can be proved about them beyond
their type, so a claim holds whatever they are. (The values the spec fixes stand where they are used:
`Machine.resetCycles`, `illegalCycles`.) -/

namespace Sys2Proof.Config

/-- Open (00_scope.md R6, 93_implementation_defined.md U3): whether an IRQ entry takes 8 ticks rather
than 7. -/
opaque irqEntryLong : Bool

/-- Open (R6, U3): whether an NMI entry takes 8 ticks rather than 7. -/
opaque nmiEntryLong : Bool

/-! The devices on the bus (20_memory.md R63: "a state `bus`, a function that answers each read from that state,
and a function that updates it on each write", both arbitrary). Their state is a number: whatever has happened to
them, the history of all calls included, can be coded in one (notes/assumptions/4.md). -/

/-- Open (R63, 93_implementation_defined.md U4): the byte a device answers to the read of an address. -/
opaque deviceByte : Nat → Addr → Byte

/-- Open (20_memory.md R68: a device may have read side effects): the devices' state after a read of an address. -/
opaque deviceAfterRead : Nat → Addr → Nat

/-- Open (R63, U5): the devices' state after a write of a byte to an address. -/
opaque deviceAfterWrite : Nat → Addr → Byte → Nat

end Sys2Proof.Config
end

