-- ==== Sys2Proof/Syntax.lean ====
section
/-! DEFINITION. The instructions: one constructor per mnemonic of spec/opcode_table.json. The table has one
row per mnemonic and addressing mode; the operand a constructor carries names the row's mode, and ILL carries
its opcode byte, so that the table's 256 rows are 256 different shapes of `Instr`. -/

namespace Sys2Proof

/-- An instruction with its operand bytes (30_encoding.md R91, R96, R98). -/
inductive Instr
  | adc (o : Operand)
  | and (o : Operand)
  | asl (o : Operand)
  | bcc (displacement : Byte)
  | bcs (displacement : Byte)
  | beq (displacement : Byte)
  | bit (o : Operand)
  | bmi (displacement : Byte)
  | bne (displacement : Byte)
  | bpl (displacement : Byte)
  | brk
  | bvc (displacement : Byte)
  | bvs (displacement : Byte)
  | clc
  | cld
  | cli
  | clv
  | cmp (o : Operand)
  | cpx (o : Operand)
  | cpy (o : Operand)
  | dec (o : Operand)
  | dex
  | dey
  | eor (o : Operand)
  | inc (o : Operand)
  | inx
  | iny
  | jmp (o : Operand)
  | jsr (address : Addr)
  | lda (o : Operand)
  | ldx (o : Operand)
  | ldy (o : Operand)
  | lsr (o : Operand)
  | nop
  | ora (o : Operand)
  | pha
  | php
  | pla
  | plp
  | rol (o : Operand)
  | ror (o : Operand)
  | rti
  | rts
  | sbc (o : Operand)
  | sec
  | sed
  | sei
  | sta (o : Operand)
  | stx (o : Operand)
  | sty (o : Operand)
  | tax
  | tay
  | tsx
  | txa
  | txs
  | tya
  | ill (opcode : Byte)
deriving DecidableEq, Repr

/-- The mnemonic an instruction is a form of. -/
def Instr.mnemonic : Instr → Mnemonic
  | .adc _ => .adc
  | .and _ => .and
  | .asl _ => .asl
  | .bcc _ => .bcc
  | .bcs _ => .bcs
  | .beq _ => .beq
  | .bit _ => .bit
  | .bmi _ => .bmi
  | .bne _ => .bne
  | .bpl _ => .bpl
  | .brk => .brk
  | .bvc _ => .bvc
  | .bvs _ => .bvs
  | .clc => .clc
  | .cld => .cld
  | .cli => .cli
  | .clv => .clv
  | .cmp _ => .cmp
  | .cpx _ => .cpx
  | .cpy _ => .cpy
  | .dec _ => .dec
  | .dex => .dex
  | .dey => .dey
  | .eor _ => .eor
  | .inc _ => .inc
  | .inx => .inx
  | .iny => .iny
  | .jmp _ => .jmp
  | .jsr _ => .jsr
  | .lda _ => .lda
  | .ldx _ => .ldx
  | .ldy _ => .ldy
  | .lsr _ => .lsr
  | .nop => .nop
  | .ora _ => .ora
  | .pha => .pha
  | .php => .php
  | .pla => .pla
  | .plp => .plp
  | .rol _ => .rol
  | .ror _ => .ror
  | .rti => .rti
  | .rts => .rts
  | .sbc _ => .sbc
  | .sec => .sec
  | .sed => .sed
  | .sei => .sei
  | .sta _ => .sta
  | .stx _ => .stx
  | .sty _ => .sty
  | .tax => .tax
  | .tay => .tay
  | .tsx => .tsx
  | .txa => .txa
  | .txs => .txs
  | .tya => .tya
  | .ill _ => .ill

/-- The operand of an instruction: a branch has mode REL, JSR mode ABS, and an instruction without operand
bytes mode IMP (R91, R96, R98). -/
def Instr.operand : Instr → Operand
  | .adc o => o
  | .and o => o
  | .asl o => o
  | .bcc d => .rel d
  | .bcs d => .rel d
  | .beq d => .rel d
  | .bit o => o
  | .bmi d => .rel d
  | .bne d => .rel d
  | .bpl d => .rel d
  | .brk => .imp
  | .bvc d => .rel d
  | .bvs d => .rel d
  | .clc => .imp
  | .cld => .imp
  | .cli => .imp
  | .clv => .imp
  | .cmp o => o
  | .cpx o => o
  | .cpy o => o
  | .dec o => o
  | .dex => .imp
  | .dey => .imp
  | .eor o => o
  | .inc o => o
  | .inx => .imp
  | .iny => .imp
  | .jmp o => o
  | .jsr a => .abs a
  | .lda o => o
  | .ldx o => o
  | .ldy o => o
  | .lsr o => o
  | .nop => .imp
  | .ora o => o
  | .pha => .imp
  | .php => .imp
  | .pla => .imp
  | .plp => .imp
  | .rol o => o
  | .ror o => o
  | .rti => .imp
  | .rts => .imp
  | .sbc o => o
  | .sec => .imp
  | .sed => .imp
  | .sei => .imp
  | .sta o => o
  | .stx o => o
  | .sty o => o
  | .tax => .imp
  | .tay => .imp
  | .tsx => .imp
  | .txa => .imp
  | .txs => .imp
  | .tya => .imp
  | .ill _ => .imp

/-- The addressing mode of an operand (R91). -/
def Operand.mode : Operand → Mode
  | .imp => .imp
  | .acc => .acc
  | .imm _ => .imm
  | .zp0 _ => .zp0
  | .zpx _ => .zpx
  | .zpy _ => .zpy
  | .rel _ => .rel
  | .abs _ => .abs
  | .abx _ => .abx
  | .aby _ => .aby
  | .ind _ => .ind
  | .izx _ => .izx
  | .izy _ => .izy

/-- The opcode byte an undocumented instruction carries; a documented one carries none. -/
def Instr.undocumentedByte : Instr → Option Byte
  | .ill op => some op
  | _ => none

end Sys2Proof
end

