-- ==== Sys2Proof/Decode.lean ====
section
/-! DEFINITION. The decoder, total on any bytes, and the encoder. The decoder reads the opcode map of
30_encoding.md R95, the encoder the list of R96: two transcriptions of two tables of the spec. -/

namespace Sys2Proof

/-! Bit fields and byte order (00_scope.md R7, R8; 20_memory.md R64). -/

/-- The page of an address, `a[15:8]` (00_scope.md R13). -/
def page (a : Addr) : Byte := a.extractLsb' 8 8

/-- `a[7:0]`. -/
def lowByte (a : Addr) : Byte := a.extractLsb' 0 8

/-- `hi : lo`, the word of two bytes (R8; little-endian in memory, R64). -/
def word (hi lo : Byte) : Addr := hi ++ lo

/-- `zext_16` (R8). -/
def zext16 (b : Byte) : Addr := b.setWidth 16

/-- `sext_16` (R8): top bit set, or with 0xFF00. -/
def sext16 (b : Byte) : Addr := if b.getLsbD 7 then zext16 b ||| 0xFF00#16 else zext16 b

/-! The opcode table. -/

/-- One entry of the opcode table (R93): mnemonic, mode, base cycle count, page penalty. -/
structure Entry where
  mnemonic : Mnemonic
  mode : Mode
  base : Nat
  penalty : Bool
deriving DecidableEq, Repr

/-- A cell of the opcode map without `+`. -/
def plainEntry (m : Mnemonic) (mode : Mode) (base : Nat) : Entry := ⟨m, mode, base, false⟩

/-- A cell of the opcode map with `+`: an address computation that crosses a page owes a cycle (R97). -/
def penaltyEntry (m : Mnemonic) (mode : Mode) (base : Nat) : Entry := ⟨m, mode, base, true⟩

/-- Cost of an undocumented opcode, `ILLEGAL_CYCLES` (00_scope.md R6). -/
def illegalCycles : Nat := 2

/-- The entry of every undocumented byte (R98): `(ILL, IMP, 2, false)`. -/
def illEntry : Entry := ⟨.ill, .imp, illegalCycles, false⟩

/-- Row 0x of the opcode map (R95). -/
def opcodeRow0 : List Entry :=
  [plainEntry .brk .imp 7, plainEntry .ora .izx 6, illEntry, illEntry,
   illEntry, plainEntry .ora .zp0 3, plainEntry .asl .zp0 5, illEntry,
   plainEntry .php .imp 3, plainEntry .ora .imm 2, plainEntry .asl .acc 2, illEntry,
   illEntry, plainEntry .ora .abs 4, plainEntry .asl .abs 6, illEntry]

/-- Row 1x of the opcode map (R95). -/
def opcodeRow1 : List Entry :=
  [plainEntry .bpl .rel 2, penaltyEntry .ora .izy 5, illEntry, illEntry,
   illEntry, plainEntry .ora .zpx 4, plainEntry .asl .zpx 6, illEntry,
   plainEntry .clc .imp 2, penaltyEntry .ora .aby 4, illEntry, illEntry,
   illEntry, penaltyEntry .ora .abx 4, plainEntry .asl .abx 7, illEntry]

/-- Row 2x of the opcode map (R95). -/
def opcodeRow2 : List Entry :=
  [plainEntry .jsr .abs 6, plainEntry .and .izx 6, illEntry, illEntry,
   plainEntry .bit .zp0 3, plainEntry .and .zp0 3, plainEntry .rol .zp0 5, illEntry,
   plainEntry .plp .imp 4, plainEntry .and .imm 2, plainEntry .rol .acc 2, illEntry,
   plainEntry .bit .abs 4, plainEntry .and .abs 4, plainEntry .rol .abs 6, illEntry]

/-- Row 3x of the opcode map (R95). -/
def opcodeRow3 : List Entry :=
  [plainEntry .bmi .rel 2, penaltyEntry .and .izy 5, illEntry, illEntry,
   illEntry, plainEntry .and .zpx 4, plainEntry .rol .zpx 6, illEntry,
   plainEntry .sec .imp 2, penaltyEntry .and .aby 4, illEntry, illEntry,
   illEntry, penaltyEntry .and .abx 4, plainEntry .rol .abx 7, illEntry]

/-- Row 4x of the opcode map (R95). -/
def opcodeRow4 : List Entry :=
  [plainEntry .rti .imp 6, plainEntry .eor .izx 6, illEntry, illEntry,
   illEntry, plainEntry .eor .zp0 3, plainEntry .lsr .zp0 5, illEntry,
   plainEntry .pha .imp 3, plainEntry .eor .imm 2, plainEntry .lsr .acc 2, illEntry,
   plainEntry .jmp .abs 3, plainEntry .eor .abs 4, plainEntry .lsr .abs 6, illEntry]

/-- Row 5x of the opcode map (R95). -/
def opcodeRow5 : List Entry :=
  [plainEntry .bvc .rel 2, penaltyEntry .eor .izy 5, illEntry, illEntry,
   illEntry, plainEntry .eor .zpx 4, plainEntry .lsr .zpx 6, illEntry,
   plainEntry .cli .imp 2, penaltyEntry .eor .aby 4, illEntry, illEntry,
   illEntry, penaltyEntry .eor .abx 4, plainEntry .lsr .abx 7, illEntry]

/-- Row 6x of the opcode map (R95). -/
def opcodeRow6 : List Entry :=
  [plainEntry .rts .imp 6, plainEntry .adc .izx 6, illEntry, illEntry,
   illEntry, plainEntry .adc .zp0 3, plainEntry .ror .zp0 5, illEntry,
   plainEntry .pla .imp 4, plainEntry .adc .imm 2, plainEntry .ror .acc 2, illEntry,
   plainEntry .jmp .ind 5, plainEntry .adc .abs 4, plainEntry .ror .abs 6, illEntry]

/-- Row 7x of the opcode map (R95). -/
def opcodeRow7 : List Entry :=
  [plainEntry .bvs .rel 2, penaltyEntry .adc .izy 5, illEntry, illEntry,
   illEntry, plainEntry .adc .zpx 4, plainEntry .ror .zpx 6, illEntry,
   plainEntry .sei .imp 2, penaltyEntry .adc .aby 4, illEntry, illEntry,
   illEntry, penaltyEntry .adc .abx 4, plainEntry .ror .abx 7, illEntry]

/-- Row 8x of the opcode map (R95). -/
def opcodeRow8 : List Entry :=
  [illEntry, plainEntry .sta .izx 6, illEntry, illEntry,
   plainEntry .sty .zp0 3, plainEntry .sta .zp0 3, plainEntry .stx .zp0 3, illEntry,
   plainEntry .dey .imp 2, illEntry, plainEntry .txa .imp 2, illEntry,
   plainEntry .sty .abs 4, plainEntry .sta .abs 4, plainEntry .stx .abs 4, illEntry]

/-- Row 9x of the opcode map (R95). -/
def opcodeRow9 : List Entry :=
  [plainEntry .bcc .rel 2, plainEntry .sta .izy 6, illEntry, illEntry,
   plainEntry .sty .zpx 4, plainEntry .sta .zpx 4, plainEntry .stx .zpy 4, illEntry,
   plainEntry .tya .imp 2, plainEntry .sta .aby 5, plainEntry .txs .imp 2, illEntry,
   illEntry, plainEntry .sta .abx 5, illEntry, illEntry]

/-- Row Ax of the opcode map (R95). -/
def opcodeRowA : List Entry :=
  [plainEntry .ldy .imm 2, plainEntry .lda .izx 6, plainEntry .ldx .imm 2, illEntry,
   plainEntry .ldy .zp0 3, plainEntry .lda .zp0 3, plainEntry .ldx .zp0 3, illEntry,
   plainEntry .tay .imp 2, plainEntry .lda .imm 2, plainEntry .tax .imp 2, illEntry,
   plainEntry .ldy .abs 4, plainEntry .lda .abs 4, plainEntry .ldx .abs 4, illEntry]

/-- Row Bx of the opcode map (R95). -/
def opcodeRowB : List Entry :=
  [plainEntry .bcs .rel 2, penaltyEntry .lda .izy 5, illEntry, illEntry,
   plainEntry .ldy .zpx 4, plainEntry .lda .zpx 4, plainEntry .ldx .zpy 4, illEntry,
   plainEntry .clv .imp 2, penaltyEntry .lda .aby 4, plainEntry .tsx .imp 2, illEntry,
   penaltyEntry .ldy .abx 4, penaltyEntry .lda .abx 4, penaltyEntry .ldx .aby 4, illEntry]

/-- Row Cx of the opcode map (R95). -/
def opcodeRowC : List Entry :=
  [plainEntry .cpy .imm 2, plainEntry .cmp .izx 6, illEntry, illEntry,
   plainEntry .cpy .zp0 3, plainEntry .cmp .zp0 3, plainEntry .dec .zp0 5, illEntry,
   plainEntry .iny .imp 2, plainEntry .cmp .imm 2, plainEntry .dex .imp 2, illEntry,
   plainEntry .cpy .abs 4, plainEntry .cmp .abs 4, plainEntry .dec .abs 6, illEntry]

/-- Row Dx of the opcode map (R95). -/
def opcodeRowD : List Entry :=
  [plainEntry .bne .rel 2, penaltyEntry .cmp .izy 5, illEntry, illEntry,
   illEntry, plainEntry .cmp .zpx 4, plainEntry .dec .zpx 6, illEntry,
   plainEntry .cld .imp 2, penaltyEntry .cmp .aby 4, illEntry, illEntry,
   illEntry, penaltyEntry .cmp .abx 4, plainEntry .dec .abx 7, illEntry]

/-- Row Ex of the opcode map (R95). -/
def opcodeRowE : List Entry :=
  [plainEntry .cpx .imm 2, plainEntry .sbc .izx 6, illEntry, illEntry,
   plainEntry .cpx .zp0 3, plainEntry .sbc .zp0 3, plainEntry .inc .zp0 5, illEntry,
   plainEntry .inx .imp 2, plainEntry .sbc .imm 2, plainEntry .nop .imp 2, illEntry,
   plainEntry .cpx .abs 4, plainEntry .sbc .abs 4, plainEntry .inc .abs 6, illEntry]

/-- Row Fx of the opcode map (R95). -/
def opcodeRowF : List Entry :=
  [plainEntry .beq .rel 2, penaltyEntry .sbc .izy 5, illEntry, illEntry,
   illEntry, plainEntry .sbc .zpx 4, plainEntry .inc .zpx 6, illEntry,
   plainEntry .sed .imp 2, penaltyEntry .sbc .aby 4, illEntry, illEntry,
   illEntry, penaltyEntry .sbc .abx 4, plainEntry .inc .abx 7, illEntry]

/-- The 256-entry opcode map (R95), byte `hi * 16 + lo` at that place. -/
def opcodeTable : List Entry :=
  opcodeRow0 ++ opcodeRow1 ++ opcodeRow2 ++ opcodeRow3 ++ opcodeRow4 ++ opcodeRow5 ++ opcodeRow6 ++ opcodeRow7 ++
  opcodeRow8 ++ opcodeRow9 ++ opcodeRowA ++ opcodeRowB ++ opcodeRowC ++ opcodeRowD ++ opcodeRowE ++ opcodeRowF

/-- `entry(op)`: decoding is a total lookup of the opcode byte (R93). -/
def entry (op : Byte) : Entry := opcodeTable.getD op.toNat illEntry

/-- How many operand bytes a mode has: its length less the opcode byte (R91). -/
def Mode.operandBytes : Mode → Nat
  | .imp | .acc => 0
  | .imm | .zp0 | .zpx | .zpy | .rel | .izx | .izy => 1
  | .abs | .abx | .aby | .ind => 2

/-- The length of an instruction in bytes (R91). -/
def Instr.length (i : Instr) : Nat := 1 + i.operand.mode.operandBytes

/-! Decoding. -/

/-- The operand of a mode, from the bytes at `opaddr + 1` and `opaddr + 2` (R91, R92). -/
def operandOf (b1 b2 : Byte) : Mode → Operand
  | .imp => .imp
  | .acc => .acc
  | .imm => .imm b1
  | .zp0 => .zp0 b1
  | .zpx => .zpx b1
  | .zpy => .zpy b1
  | .rel => .rel b1
  | .abs => .abs (word b2 b1)
  | .abx => .abx (word b2 b1)
  | .aby => .aby (word b2 b1)
  | .ind => .ind (word b2 b1)
  | .izx => .izx b1
  | .izy => .izy b1

/-- The instruction with a mnemonic, for an opcode byte, an operand and the operand bytes. -/
def instrOf (op b1 b2 : Byte) (o : Operand) : Mnemonic → Instr
  | .adc => .adc o
  | .and => .and o
  | .asl => .asl o
  | .bcc => .bcc b1
  | .bcs => .bcs b1
  | .beq => .beq b1
  | .bit => .bit o
  | .bmi => .bmi b1
  | .bne => .bne b1
  | .bpl => .bpl b1
  | .brk => .brk
  | .bvc => .bvc b1
  | .bvs => .bvs b1
  | .clc => .clc
  | .cld => .cld
  | .cli => .cli
  | .clv => .clv
  | .cmp => .cmp o
  | .cpx => .cpx o
  | .cpy => .cpy o
  | .dec => .dec o
  | .dex => .dex
  | .dey => .dey
  | .eor => .eor o
  | .inc => .inc o
  | .inx => .inx
  | .iny => .iny
  | .jmp => .jmp o
  | .jsr => .jsr (word b2 b1)
  | .lda => .lda o
  | .ldx => .ldx o
  | .ldy => .ldy o
  | .lsr => .lsr o
  | .nop => .nop
  | .ora => .ora o
  | .pha => .pha
  | .php => .php
  | .pla => .pla
  | .plp => .plp
  | .rol => .rol o
  | .ror => .ror o
  | .rti => .rti
  | .rts => .rts
  | .sbc => .sbc o
  | .sec => .sec
  | .sed => .sed
  | .sei => .sei
  | .sta => .sta o
  | .stx => .stx o
  | .sty => .sty o
  | .tax => .tax
  | .tay => .tay
  | .tsx => .tsx
  | .txa => .txa
  | .txs => .txs
  | .tya => .tya
  | .ill => .ill op

/-- The instruction of an opcode byte and the two bytes after it; the mode says how many of the two are
operand bytes (R101), the others are not looked at. -/
def assemble (op b1 b2 : Byte) : Instr :=
  instrOf op b1 b2 (operandOf b1 b2 (entry op).mode) (entry op).mnemonic

/-- Why bytes are no instruction: there are too few of them. No opcode byte is rejected (R93, R98). -/
inductive DecodeError
  /-- There is no byte at all. -/
  | noOpcode
  /-- The opcode byte's mode has an operand byte that is not there. -/
  | missingOperand (opcode : Byte)
deriving DecidableEq, Repr

/-- The instruction at the head of a byte string, and the bytes after it. -/
def decode : List Byte → Except DecodeError (Instr × List Byte)
  | [] => .error .noOpcode
  | op :: rest =>
    match (entry op).mode.operandBytes, rest with
    | 0, rest => .ok (assemble op 0x00#8 0x00#8, rest)
    | 1, b1 :: rest => .ok (assemble op b1 0x00#8, rest)
    | 2, b1 :: b2 :: rest => .ok (assemble op b1 b2, rest)
    | _, _ => .error (.missingOperand op)

/-! Encoding. -/

/-- The opcode bytes of each documented mnemonic, by mode (R96). -/
def Mnemonic.opcodes : Mnemonic → List (Mode × Byte)
  | .adc => [(.imm, 0x69#8), (.zp0, 0x65#8), (.zpx, 0x75#8), (.abs, 0x6D#8),
      (.abx, 0x7D#8), (.aby, 0x79#8), (.izx, 0x61#8), (.izy, 0x71#8)]
  | .and => [(.imm, 0x29#8), (.zp0, 0x25#8), (.zpx, 0x35#8), (.abs, 0x2D#8),
      (.abx, 0x3D#8), (.aby, 0x39#8), (.izx, 0x21#8), (.izy, 0x31#8)]
  | .asl => [(.acc, 0x0A#8), (.zp0, 0x06#8), (.zpx, 0x16#8), (.abs, 0x0E#8), (.abx, 0x1E#8)]
  | .bcc => [(.rel, 0x90#8)]
  | .bcs => [(.rel, 0xB0#8)]
  | .beq => [(.rel, 0xF0#8)]
  | .bit => [(.zp0, 0x24#8), (.abs, 0x2C#8)]
  | .bmi => [(.rel, 0x30#8)]
  | .bne => [(.rel, 0xD0#8)]
  | .bpl => [(.rel, 0x10#8)]
  | .brk => [(.imp, 0x00#8)]
  | .bvc => [(.rel, 0x50#8)]
  | .bvs => [(.rel, 0x70#8)]
  | .clc => [(.imp, 0x18#8)]
  | .cld => [(.imp, 0xD8#8)]
  | .cli => [(.imp, 0x58#8)]
  | .clv => [(.imp, 0xB8#8)]
  | .cmp => [(.imm, 0xC9#8), (.zp0, 0xC5#8), (.zpx, 0xD5#8), (.abs, 0xCD#8),
      (.abx, 0xDD#8), (.aby, 0xD9#8), (.izx, 0xC1#8), (.izy, 0xD1#8)]
  | .cpx => [(.imm, 0xE0#8), (.zp0, 0xE4#8), (.abs, 0xEC#8)]
  | .cpy => [(.imm, 0xC0#8), (.zp0, 0xC4#8), (.abs, 0xCC#8)]
  | .dec => [(.zp0, 0xC6#8), (.zpx, 0xD6#8), (.abs, 0xCE#8), (.abx, 0xDE#8)]
  | .dex => [(.imp, 0xCA#8)]
  | .dey => [(.imp, 0x88#8)]
  | .eor => [(.imm, 0x49#8), (.zp0, 0x45#8), (.zpx, 0x55#8), (.abs, 0x4D#8),
      (.abx, 0x5D#8), (.aby, 0x59#8), (.izx, 0x41#8), (.izy, 0x51#8)]
  | .inc => [(.zp0, 0xE6#8), (.zpx, 0xF6#8), (.abs, 0xEE#8), (.abx, 0xFE#8)]
  | .inx => [(.imp, 0xE8#8)]
  | .iny => [(.imp, 0xC8#8)]
  | .jmp => [(.abs, 0x4C#8), (.ind, 0x6C#8)]
  | .jsr => [(.abs, 0x20#8)]
  | .lda => [(.imm, 0xA9#8), (.zp0, 0xA5#8), (.zpx, 0xB5#8), (.abs, 0xAD#8),
      (.abx, 0xBD#8), (.aby, 0xB9#8), (.izx, 0xA1#8), (.izy, 0xB1#8)]
  | .ldx => [(.imm, 0xA2#8), (.zp0, 0xA6#8), (.zpy, 0xB6#8), (.abs, 0xAE#8), (.aby, 0xBE#8)]
  | .ldy => [(.imm, 0xA0#8), (.zp0, 0xA4#8), (.zpx, 0xB4#8), (.abs, 0xAC#8), (.abx, 0xBC#8)]
  | .lsr => [(.acc, 0x4A#8), (.zp0, 0x46#8), (.zpx, 0x56#8), (.abs, 0x4E#8), (.abx, 0x5E#8)]
  | .nop => [(.imp, 0xEA#8)]
  | .ora => [(.imm, 0x09#8), (.zp0, 0x05#8), (.zpx, 0x15#8), (.abs, 0x0D#8),
      (.abx, 0x1D#8), (.aby, 0x19#8), (.izx, 0x01#8), (.izy, 0x11#8)]
  | .pha => [(.imp, 0x48#8)]
  | .php => [(.imp, 0x08#8)]
  | .pla => [(.imp, 0x68#8)]
  | .plp => [(.imp, 0x28#8)]
  | .rol => [(.acc, 0x2A#8), (.zp0, 0x26#8), (.zpx, 0x36#8), (.abs, 0x2E#8), (.abx, 0x3E#8)]
  | .ror => [(.acc, 0x6A#8), (.zp0, 0x66#8), (.zpx, 0x76#8), (.abs, 0x6E#8), (.abx, 0x7E#8)]
  | .rti => [(.imp, 0x40#8)]
  | .rts => [(.imp, 0x60#8)]
  | .sbc => [(.imm, 0xE9#8), (.zp0, 0xE5#8), (.zpx, 0xF5#8), (.abs, 0xED#8),
      (.abx, 0xFD#8), (.aby, 0xF9#8), (.izx, 0xE1#8), (.izy, 0xF1#8)]
  | .sec => [(.imp, 0x38#8)]
  | .sed => [(.imp, 0xF8#8)]
  | .sei => [(.imp, 0x78#8)]
  | .sta => [(.zp0, 0x85#8), (.zpx, 0x95#8), (.abs, 0x8D#8), (.abx, 0x9D#8),
      (.aby, 0x99#8), (.izx, 0x81#8), (.izy, 0x91#8)]
  | .stx => [(.zp0, 0x86#8), (.zpy, 0x96#8), (.abs, 0x8E#8)]
  | .sty => [(.zp0, 0x84#8), (.zpx, 0x94#8), (.abs, 0x8C#8)]
  | .tax => [(.imp, 0xAA#8)]
  | .tay => [(.imp, 0xA8#8)]
  | .tsx => [(.imp, 0xBA#8)]
  | .txa => [(.imp, 0x8A#8)]
  | .txs => [(.imp, 0x9A#8)]
  | .tya => [(.imp, 0x98#8)]
  | .ill => []

/-- The opcode byte of a mnemonic in a mode, where R96 has one. -/
def opcodeOf (m : Mnemonic) (mode : Mode) : Option Byte := m.opcodes.lookup mode

/-- The opcode byte of an instruction: R96's, or the byte an undocumented instruction carries. -/
def Instr.opcode (i : Instr) : Option Byte :=
  match i.undocumentedByte with
  | some op => some op
  | none => opcodeOf i.mnemonic i.operand.mode

/-- The operand bytes of an operand, in address order: the low byte first (R91, R64). -/
def Operand.bytes : Operand → List Byte
  | .imp | .acc => []
  | .imm b | .zp0 b | .zpx b | .zpy b | .rel b | .izx b | .izy b => [b]
  | .abs a | .abx a | .aby a | .ind a => [lowByte a, page a]

/-- The bytes of an instruction; of one that is no row of the table, none. -/
def encode (i : Instr) : List Byte :=
  match i.opcode with
  | some op => op :: i.operand.bytes
  | none => []

/-! The opcode table's numbering. -/

/-- The three bytes an instruction word lays out, the first at the lowest address: bit 0 of `w` is the least
significant bit of the opcode byte, and bits from `nbits` on are 0 (notes/assumptions/14.md). -/
def wordBytes (nbits w : Nat) : List Byte :=
  let v := w % 2 ^ nbits
  [BitVec.ofNat 8 v, BitVec.ofNat 8 (v / 2 ^ 8), BitVec.ofNat 8 (v / 2 ^ 16)]

end Sys2Proof

/-- The instruction the decoder reads from a word of the opcode table, or none where it refuses. -/
def Sys2Proof.decodeTableWord (nbits w : Nat) : Option Instr :=
  match decode (wordBytes nbits w) with
  | .ok (i, _) => some i
  | .error _ => none
end

