-- ==== Sys2Proof/Machine/State.lean ====
section
/-! DEFINITION. The machine's state as plain data, why a step can stop, and the state after reset. -/

namespace Sys2Proof.Machine

/-- The power states (10_state.md R54). -/
inductive Power
  | poweredOff | running
deriving DecidableEq, Repr

/-- All the state the spec gives the core and its bus (10_state.md, 20_memory.md), and a
field of the model's own, `busLog`. -/
structure State where
  /-- A, the accumulator (R30, R31). -/
  a : Byte
  /-- X (R30, R32). -/
  x : Byte
  /-- Y (R30, R33). -/
  y : Byte
  /-- SP, an offset into page 0x0100-0x01FF (R35). -/
  sp : Byte
  /-- P, the status register (R36). -/
  p : Byte
  /-- PC (R34). -/
  pc : Addr
  /-- The operand latch (R49). -/
  fetched : Byte
  /-- The effective-address latch `addr_abs` (R50). -/
  addrAbs : Addr
  /-- The branch-displacement latch `addr_rel` (R50). -/
  addrRel : Addr
  /-- The scratch latch `addr_temp` (R50). -/
  addrTemp : Addr
  /-- Ticks remaining for the instruction in flight (R51; a Nat, notes/assumptions/8.md). -/
  cycles : Nat
  /-- Ticks since power-on (R52). -/
  totalCycles : BitVec 64
  /-- An `nmi()` call waits for an instruction boundary (R53). -/
  nmiPending : Bool
  /-- An `irq()` call waits for an instruction boundary (R53). -/
  irqPending : Bool
  /-- The power state (R54). -/
  power : Power
  /-- The bytes on the bus (R60), by address: strictly rising, no entry equal to what an unlisted address
  reads as. -/
  mem : List Host.Cell
  /-- What backs an address (R62, R63): the first region that contains it; in none, plain RAM
  (notes/assumptions/1.md). -/
  regions : List Region
  /-- The state of the devices on the bus (R63: "a state `bus`"), which answers their reads and which each call to
  them updates by functions of Config that are open (notes/assumptions/4.md). -/
  deviceState : Nat
  /-- The MODEL's own record: the bus calls of the latest core operation, oldest first (R68, R127;
  notes/assumptions/5.md). -/
  busLog : List BusAccess
deriving DecidableEq, Repr

/-- Why the machine stops with a fault: never. "every opcode byte ... maps to a defined (possibly no-op)
behavior, so `step()` never fails" (00_scope.md R11, 60_exceptions.md R340); no access faults (20_memory.md
R66, R78). Safe: there is nothing to raise. -/
inductive Fault
deriving DecidableEq, Repr

/-- Why an operation has no meaning. -/
inductive Refusal
  /-- An instruction that has no meaning yet: raised by its arm of `exec` alone. Safe. No arm raises it. -/
  | notModelled (mnemonic : String)
  /-- `step()`, `irq()` or `nmi()` before the first `reset()`: "A model must treat each as refused
  (precondition false)" (60_exceptions.md R360). Raised by `tick`, `irq` and `nmi`. Safe. -/
  | poweredOff
deriving DecidableEq, Repr

/-- The machine right after `new(bus)` and `reset()` (R57): the bus lists nothing and is plain RAM all over
(notes/assumptions/1.md, 2.md, 3.md), so the reset vector's two bytes read 0x00. -/
def State.reset : State where
  a := 0x00#8
  x := 0x00#8
  y := 0x00#8
  sp := 0xFD#8
  p := 0x20#8
  pc := 0x0000#16
  fetched := 0x00#8
  addrAbs := 0x0000#16
  addrRel := 0x0000#16
  addrTemp := 0x0000#16
  cycles := 8
  totalCycles := 0#64
  nmiPending := false
  irqPending := false
  power := .running
  mem := []
  regions := []
  deviceState := 0
  busLog := [.read 0xFFFC#16 0x00#8, .read 0xFFFD#16 0x00#8]

end Sys2Proof.Machine
end

