-- ==== Sys2Proof/Machine/Ops.lean ====
section
/-! DEFINITION. The shared operations: memory, the bus, register updates, the stack, interrupt entry and the
return from it, and the charge of an instruction's cycles. -/

namespace Sys2Proof.Machine

/-! Fixed values. -/

/-- `RESET_CYCLES` (00_scope.md R6, 90_conflicts.md C7). -/
def resetCycles : Nat := 8

/-- `IRQ_CYCLES`, a parameter in 7, 8 (R6; notes/assumptions/7.md). -/
def irqCycles : Nat := if Config.irqEntryLong then 8 else 7

/-- `NMI_CYCLES`, a parameter in 7, 8 (R6). -/
def nmiCycles : Nat := if Config.nmiEntryLong then 8 else 7

/-- The NMI vector (60_exceptions.md R349). -/
def nmiVector : Addr := 0xFFFA#16

/-- The reset vector (R349). -/
def resetVector : Addr := 0xFFFC#16

/-- The IRQ/BRK vector (R349). -/
def irqVector : Addr := 0xFFFE#16

/-- What an address that nothing has written reads as.
DESIGN CHOICE (notes/assumptions/2.md), unsafe: the spec leaves the initial contents to the host. -/
def unlistedByte : Byte := 0x00#8

/-! Memory: a list of cells, addresses strictly rising, none equal to `unlistedByte`. -/

namespace Memory

/-- The byte at an address. -/
def read : List Host.Cell → Nat → Byte
  | [], _ => unlistedByte
  | (k, v) :: rest, a => if k = a then v else read rest a

/-- The memory with one byte stored. -/
def write : List Host.Cell → Nat → Byte → List Host.Cell
  | [], a, v => if v = unlistedByte then [] else [(a, v)]
  | (k, w) :: rest, a, v =>
    if a < k then
      if v = unlistedByte then (k, w) :: rest else (a, v) :: (k, w) :: rest
    else if a = k then
      if v = unlistedByte then rest else (a, v) :: rest
    else (k, w) :: write rest a v

/-- The canonical form of a memory whose addresses are all at least `low`: strictly rising, inside the
16-bit space (20_memory.md R60), no entry that reads as if it were not there. -/
def wfFrom (low : Nat) : List Host.Cell → Bool
  | [] => true
  | (k, v) :: rest => decide (low ≤ k) && decide (k < 0x10000) && decide (v ≠ unlistedByte) && wfFrom (k + 1) rest

/-- The canonical form. -/
def wf (m : List Host.Cell) : Bool := wfFrom 0 m

end Memory

/-! The bus (20_memory.md R61 to R63). -/

/-- An address lies in a region. -/
def inRegion (r : Region) (a : Addr) : Bool := decide (r.base ≤ a.toNat) && decide (a.toNat < r.base + r.size)

/-- What backs an address: the first region that contains it; in none, plain RAM. -/
def kindOf : List Region → Addr → RegionKind
  | [], _ => .ram
  | r :: rest, a => if inRegion r a then r.kind else kindOf rest a

/-- What backs an address in a state. -/
def State.kindAt (s : State) (a : Addr) : RegionKind := kindOf s.regions a

/-- The byte the bus answers to a read made now (R61): the byte held there, or what a device answers from its
state (R63, U4). -/
def State.peek (s : State) (a : Addr) : Byte :=
  match s.kindAt a with
  | .ram | .rom => Memory.read s.mem a.toNat
  | .device => Config.deviceByte s.deviceState a

/-- The devices' state after a read (R68): a device may have read side effects, RAM and ROM have none. -/
def State.deviceAfterRead (s : State) (a : Addr) : Nat :=
  match s.kindAt a with
  | .ram | .rom => s.deviceState
  | .device => Config.deviceAfterRead s.deviceState a

/-- The devices' state after a write (R63, U5): a device takes in the address and the byte written. -/
def State.deviceAfterWrite (s : State) (a : Addr) (v : Byte) : Nat :=
  match s.kindAt a with
  | .ram | .rom => s.deviceState
  | .device => Config.deviceAfterWrite s.deviceState a v

/-- The bytes held after a write (R62): accepted at every address, ignored by a read-only region; a device keeps
what it makes of the write in its own state (`State.deviceAfterWrite`; notes/assumptions/17.md). -/
def State.memAfterWrite (s : State) (a : Addr) (v : Byte) : List Host.Cell :=
  match s.kindAt a with
  | .ram => Memory.write s.mem a.toNat v
  | .rom | .device => s.mem

/-- The state after the bus call `read(a)`. -/
def State.afterRead (s : State) (a : Addr) : State :=
  { s with deviceState := s.deviceAfterRead a, busLog := s.busLog ++ [.read a (s.peek a)] }

/-- `Read8(a)`, one bus call (00_scope.md R10): the byte answered and the state after. -/
def State.read8 (s : State) (a : Addr) : Byte × State := (s.peek a, s.afterRead a)

/-- `MemWrite(a, 1, v)`, one bus call (R10). -/
def State.write8 (s : State) (a : Addr) (v : Byte) : State :=
  { s with mem := s.memAfterWrite a v, deviceState := s.deviceAfterWrite a v, busLog := s.busLog ++ [.write a v] }

/-- Two reads of a word's bytes, the low byte first (R10, 92_eei_decisions.md D21). -/
def State.readWord (s : State) (lo hi : Addr) : Addr × State :=
  let l := s.read8 lo
  let h := l.2.read8 hi
  (word h.1 l.1, h.2)

/-- `Read16(a)` (R10): the high byte from `trunc16(a + 1)`. -/
def State.read16 (s : State) (a : Addr) : Addr × State := s.readWord a (a + 1#16)

/-! Register updates. -/

def State.setA (s : State) (v : Byte) : State := { s with a := v }
def State.setX (s : State) (v : Byte) : State := { s with x := v }
def State.setY (s : State) (v : Byte) : State := { s with y := v }
def State.setSp (s : State) (v : Byte) : State := { s with sp := v }
def State.setP (s : State) (v : Byte) : State := { s with p := v }
def State.setPc (s : State) (v : Addr) : State := { s with pc := v }
def State.setFetched (s : State) (v : Byte) : State := { s with fetched := v }
def State.setAddrAbs (s : State) (v : Addr) : State := { s with addrAbs := v }
def State.setAddrRel (s : State) (v : Addr) : State := { s with addrRel := v }
def State.setAddrTemp (s : State) (v : Addr) : State := { s with addrTemp := v }
def State.setCycles (s : State) (n : Nat) : State := { s with cycles := n }
def State.setNmiPending (s : State) (b : Bool) : State := { s with nmiPending := b }
def State.setIrqPending (s : State) (b : Bool) : State := { s with irqPending := b }

/-- The record of bus calls begins anew with each core operation (notes/assumptions/5.md). -/
def State.clearLog (s : State) : State := { s with busLog := [] }

/-! The flag setter (10_state.md R37). -/

/-- The bit of a flag in P (R36). -/
def flagBit : Flag → Nat
  | .c => 0 | .z => 1 | .i => 2 | .d => 3 | .b => 4 | .u => 5 | .v => 6 | .n => 7

/-- The byte with only a flag's bit set. -/
def flagMask (f : Flag) : Byte := 1#8 <<< flagBit f

/-- `get_flag(f)`: "tests whether the named bit is set in Status". -/
def getFlag (f : Flag) (p : Byte) : Bool := p.getLsbD (flagBit f)

/-- `set_flag(f, cond)`: "sets the bit when `condition` is true, clears it otherwise". -/
def setFlag (f : Flag) (cond : Bool) (p : Byte) : Byte :=
  if cond then p ||| flagMask f else p &&& ~~~(flagMask f)

/-- A flag of the live status register. -/
def State.flag (s : State) (f : Flag) : Bool := getFlag f s.p

/-- `set_flag` on the live status register. -/
def State.setFlagTo (s : State) (f : Flag) (cond : Bool) : State := s.setP (setFlag f cond s.p)

/-- The status byte PHP and BRK push, `P | 0x30` (R46). -/
def statusPushedByProgram (p : Byte) : Byte := p ||| 0x30#8

/-- The status byte IRQ and NMI entry push, `(P & 0xEF) | 0x20` (R46). -/
def statusPushedByHardware (p : Byte) : Byte := (p &&& 0xEF#8) ||| 0x20#8

/-- The live status after a pull, `(v | 0x20) & 0xEF` (R47). -/
def statusRestored (v : Byte) : Byte := (v ||| 0x20#8) &&& 0xEF#8

/-! The stack (00_scope.md R10, 10_state.md R35). -/

/-- The stack byte SP designates, `0x0100 + SP`. -/
def stackAddr (sp : Byte) : Addr := 0x0100#16 + zext16 sp

/-- `Push(v)`: "push writes then decrements SP". -/
def State.push (s : State) (v : Byte) : State := (s.write8 (stackAddr s.sp) v).setSp (s.sp - 1#8)

/-- SP after the first half of a pull. -/
def State.pullSp (s : State) : State := s.setSp (s.sp + 1#8)

/-- `Pull()`: "pull increments SP then reads". -/
def State.pull (s : State) : Byte × State := s.pullSp.read8 (stackAddr s.pullSp.sp)

/-- Push of a word, the high byte first (20_memory.md R64, 45_control_transfer.md R280). -/
def State.pushWord (s : State) (v : Addr) : State := (s.push (page v)).push (lowByte v)

/-- Pull of a word, the low byte first (R281, 46_stack_flags_system.md R313). -/
def State.pullWord (s : State) : Addr × State :=
  let lo := s.pull
  let hi := lo.2.pull
  (word hi.1 lo.1, hi.2)

/-- Pull of the status byte into P (R304, R313). -/
def State.pullStatus (s : State) : State :=
  let v := s.pull
  v.2.setP (statusRestored v.1)

/-! Interrupt entry and return (60_exceptions.md R346, R351). -/

/-- The status byte an entry pushes: BRK's with B set, a hardware interrupt's with B clear (R346). -/
def statusForEntry (brk : Bool) (p : Byte) : Byte :=
  if brk then statusPushedByProgram p else statusPushedByHardware p

/-- `InterruptEntry(vector, bflag)` (R346): PC and status to the stack, I set, PC from the vector. -/
def State.interruptEntry (s : State) (vector : Addr) (brk : Bool) : State :=
  let pushed := (s.pushWord s.pc).push (statusForEntry brk s.p)
  let masked := pushed.setFlagTo .i true
  let target := masked.read16 vector
  target.2.setPc target.1

/-- The return from an interrupt (R313, R351): P, then PC, from the stack. -/
def State.interruptReturn (s : State) : State :=
  let target := s.pullStatus.pullWord
  target.2.setPc target.1

/-! Cycles (40_execution_cycle.md R121, R128, R129). -/

/-- The table entry of a mnemonic in a mode; ILL, and a pair that is no row, have the undocumented bytes'
entry (R98; notes/assumptions/11.md). -/
def rowEntry (m : Mnemonic) (mode : Mode) : Entry :=
  match opcodeOf m mode with
  | some op => entry op
  | none => illEntry

/-- `base + (cross AND page_penalty) + branch_extra` (R121, R128). -/
def cost (m : Mnemonic) (mode : Mode) (cross : Bool) (branchExtra : Nat) : Nat :=
  let e := rowEntry m mode
  e.base + (if cross && e.penalty then 1 else 0) + branchExtra

/-- The instruction's cost, set once per instruction (R51, R121). -/
def State.charge (s : State) (m : Mnemonic) (mode : Mode) (cross : Bool) (branchExtra : Nat) : State :=
  s.setCycles (cost m mode cross branchExtra)

/-- The end of a tick: one cycle of the countdown gone, one tick more in all (R120). -/
def State.countTick (s : State) : State :=
  { s with cycles := s.cycles - 1, totalCycles := s.totalCycles + 1#64 }

end Sys2Proof.Machine
end

