-- ==== Sys2Proof/Machine/Flags.lean ====
section
/-! DEFINITION. Every flag computation the spec gives. -/

namespace Sys2Proof.Machine

/-- Z and N of an 8-bit result, on a status byte (42_load_store_transfer.md R180). -/
def znOf (v : Byte) (p : Byte) : Byte := setFlag .n (v.getLsbD 7) (setFlag .z (decide (v = 0x00#8)) p)

/-- `SetZN(v)` (R180). -/
def State.setZN (s : State) (v : Byte) : State := s.setP (znOf v s.p)

/-- A carry flag as a number. -/
def carryIn (c : Bool) : Nat := if c then 1 else 0

/-- `sum <- A + m + C`, 0 to 511 (43_arithmetic_logic.md R211). -/
def adcSum (a m : Byte) (c : Bool) : Nat := a.toNat + m.toNat + carryIn c

/-- The 8-bit result of ADC, `trunc8(sum)` (R211). -/
def adcResult (a m : Byte) (c : Bool) : Byte := BitVec.ofNat 8 (adcSum a m c)

/-- C of ADC: `sum > 255` (R211). -/
def adcCarry (a m : Byte) (c : Bool) : Bool := decide (255 < adcSum a m c)

/-- V of ADC: `((~(A ^ m)) & (A ^ trunc8(sum)) & 0x80) != 0` (R211, 90_conflicts.md C1). -/
def adcOverflow (a m : Byte) (c : Bool) : Bool :=
  decide ((~~~(a ^^^ m) &&& (a ^^^ adcResult a m c) &&& 0x80#8) ≠ 0x00#8)

/-- The status after ADC (R211): C, Z, V, N. -/
def adcStatus (a m : Byte) (p : Byte) : Byte :=
  let c := getFlag .c p
  let r := adcResult a m c
  setFlag .n (r.getLsbD 7) (setFlag .v (adcOverflow a m c) (setFlag .z (decide (r = 0x00#8)) (setFlag .c (adcCarry a m c) p)))

/-- The operand SBC adds: M inverted (R212). -/
def sbcOperand (m : Byte) : Byte := m ^^^ 0xFF#8

/-- The 16-bit difference of a compare (R217). -/
def compareDifference (r m : Byte) : Addr := zext16 r - zext16 m

/-- The status after a compare of a register with M (R217): C unsigned, Z and N from the low byte of the
difference. -/
def compareStatus (r m : Byte) (p : Byte) : Byte :=
  let d := compareDifference r m
  setFlag .n (d.getLsbD 7) (setFlag .z (decide (lowByte d = 0x00#8)) (setFlag .c (decide (m.toNat ≤ r.toNat)) p))

/-- The status after BIT (R216): Z from A and M, N and V from M. -/
def bitStatus (a m : Byte) (p : Byte) : Byte :=
  setFlag .v (m.getLsbD 6) (setFlag .n (m.getLsbD 7) (setFlag .z (decide (a &&& m = 0x00#8)) p))

/-- The carry as the bit a rotate brings in (44_shift_rotate.md R253). -/
def carryBit (c : Bool) : Byte := if c then 0x01#8 else 0x00#8

/-- ASL: `trunc8(m << 1)` (R251). -/
def aslResult (m : Byte) : Byte := m <<< 1

/-- LSR: `m >> 1` (R252). -/
def lsrResult (m : Byte) : Byte := m >>> 1

/-- ROL: `trunc8((m << 1) | C)` (R253). -/
def rolResult (c : Bool) (m : Byte) : Byte := (m <<< 1) ||| carryBit c

/-- ROR: `(m >> 1) | (C << 7)` (R254). -/
def rorResult (c : Bool) (m : Byte) : Byte := (m >>> 1) ||| (carryBit c <<< 7)

/-- The status after a shift or rotate: C the bit that left, Z and N of the result (R251 to R254). -/
def shiftStatus (out : Bool) (r : Byte) (p : Byte) : Byte := znOf r (setFlag .c out p)

end Sys2Proof.Machine
end

