-- ==== Sys2Proof/Machine/Operands.lean ====
section
/-! DEFINITION. The addressing-mode resolvers, the operand read and the write-back, and the shapes of
instruction built on them. The operand bytes were read by the fetch and stand in the `Operand`; PC is already
past them (00_scope.md R12; notes/assumptions/12.md). -/

namespace Sys2Proof.Machine

/-- An index moved the address into another page (41_addressing_modes.md R159, R160, R163). -/
def crosses (base target : Addr) : Bool := page target != page base

/-- A zero-page address plus an index, wrapped within page 0 (R155, R156). -/
def zpIndexed (zp index : Byte) : Addr := (zext16 zp + zext16 index) &&& 0x00FF#16

/-- The address an indirect JMP takes its high byte from: in the pointer's own page (R161). -/
def indirectHigh (pointer : Addr) : Addr := (pointer &&& 0xFF00#16) ||| ((pointer + 1#16) &&& 0x00FF#16)

/-- `addr_abs <- base + index`, with the page-cross report (R159, R160, R163). -/
def State.indexInto (s : State) (base : Addr) (index : Byte) : Bool × State :=
  let target := base + zext16 index
  (crosses base target, s.setAddrAbs target)

/-- `Resolve(mode)` (R150 to R163): the latches written, the pointer bytes read, and `cross`. -/
def State.resolve (s : State) : Operand → Bool × State
  | .imp => (false, s.setFetched s.a)
  | .acc => (false, s.setFetched s.a)
  | .imm v => (false, (s.setAddrAbs (s.pc - 1#16)).setFetched v)
  | .zp0 zp => (false, s.setAddrAbs (zext16 zp &&& 0x00FF#16))
  | .zpx zp => (false, s.setAddrAbs (zpIndexed zp s.x))
  | .zpy zp => (false, s.setAddrAbs (zpIndexed zp s.y))
  | .rel d => (false, s.setAddrRel (sext16 d))
  | .abs address => (false, s.setAddrAbs address)
  | .abx base => s.indexInto base s.x
  | .aby base => s.indexInto base s.y
  | .ind pointer =>
    let target := s.readWord pointer (indirectHigh pointer)
    (false, target.2.setAddrAbs target.1)
  | .izx zp =>
    let target := s.readWord (zpIndexed zp s.x) ((zext16 zp + zext16 s.x + 1#16) &&& 0x00FF#16)
    (false, target.2.setAddrAbs target.1)
  | .izy zp =>
    let base := s.readWord (zext16 zp) ((zext16 zp + 1#16) &&& 0x00FF#16)
    base.2.indexInto base.1 base.2.y

/-- `Fetch()` (40_execution_cycle.md R126): the latch in IMP, ACC and IMM, else one read of `addr_abs`. -/
def State.fetchOperand (s : State) : Mode → Byte × State
  | .imp | .acc | .imm => (s.fetched, s)
  | .zp0 | .zpx | .zpy | .rel | .abs | .abx | .aby | .ind | .izx | .izy =>
    let m := s.read8 s.addrAbs
    (m.1, m.2.setFetched m.1)

/-- `WriteBack(v)` (44_shift_rotate.md R250): to A in mode ACC, else to `addr_abs`. -/
def State.writeBack (s : State) (v : Byte) : Mode → State
  | .acc => s.setA v
  | .imp | .imm | .zp0 | .zpx | .zpy | .rel | .abs | .abx | .aby | .ind | .izx | .izy => s.write8 s.addrAbs v

/-- An instruction without operand bytes: the IMP resolver, the effect, the charge. -/
def State.runImplied (s : State) (m : Mnemonic) (effect : State → State) : State :=
  (effect (s.resolve .imp).2).charge m .imp false 0

/-- An instruction that reads its operand value M: resolve, `Fetch()`, the effect of M, the charge. -/
def State.runRead (s : State) (m : Mnemonic) (o : Operand) (effect : Byte → State → State) : State :=
  let r := s.resolve o
  let v := r.2.fetchOperand o.mode
  (effect v.1 v.2).charge m o.mode r.1 0

/-- A store: resolve, one write of a register to EA, the charge; EA is never read (R126, R184). -/
def State.runStore (s : State) (m : Mnemonic) (o : Operand) (register : State → Byte) : State :=
  let r := s.resolve o
  (r.2.write8 r.2.addrAbs (register r.2)).charge m o.mode r.1 0

/-- A read-modify-write: M read once, the status and result of M, one write-back (R250, 70 R389). -/
def State.runModify (s : State) (m : Mnemonic) (o : Operand) (result : Byte → State → Byte)
    (status : Byte → State → Byte) : State :=
  s.runRead m o fun v t => (t.setP (status v t)).writeBack (result v t) o.mode

/-- `Branch(cond)` (45_control_transfer.md R270), PC past the displacement byte. -/
def State.runBranch (s : State) (m : Mnemonic) (displacement : Byte) (taken : State → Bool) : State :=
  let t := (s.resolve (.rel displacement)).2
  let target := t.pc + t.addrRel
  if taken t then
    (t.setPc target).charge m .rel false (if crosses t.pc target then 2 else 1)
  else t.charge m .rel false 0

end Sys2Proof.Machine
end

