-- ==== Sys2Proof/Machine/Arithmetic.lean ====
section
/-! DEFINITION. Arithmetic, logic, compare, increment and decrement (43_arithmetic_logic.md). -/

namespace Sys2Proof.Machine

/-- `A <- A + m + C` with its flags, D never read (R210, R211). -/
def State.addToA (s : State) (m : Byte) : State :=
  (s.setP (adcStatus s.a m s.p)).setA (adcResult s.a m (s.flag .c))

/-- `A <- v` with Z and N (R213 to R215). -/
def State.setAZN (s : State) (v : Byte) : State := (s.setA v).setZN v

/-- A compare of a register with M: the difference to `addr_temp`, C, Z and N; the register stays (R217). -/
def State.compare (s : State) (r m : Byte) : State :=
  (s.setAddrTemp (compareDifference r m)).setP (compareStatus r m s.p)

/-- ADC (43_arithmetic_logic.md R211). -/
def execAdc (o : Operand) (s : State) : Host.Outcome State Fault Refusal :=
  .next (s.runRead .adc o fun m t => t.addToA m)

/-- SBC (43_arithmetic_logic.md R212). -/
def execSbc (o : Operand) (s : State) : Host.Outcome State Fault Refusal :=
  .next (s.runRead .sbc o fun m t => t.addToA (sbcOperand m))

/-- AND (43_arithmetic_logic.md R213). -/
def execAnd (o : Operand) (s : State) : Host.Outcome State Fault Refusal :=
  .next (s.runRead .and o fun m t => t.setAZN (t.a &&& m))

/-- ORA (43_arithmetic_logic.md R214). -/
def execOra (o : Operand) (s : State) : Host.Outcome State Fault Refusal :=
  .next (s.runRead .ora o fun m t => t.setAZN (t.a ||| m))

/-- EOR (43_arithmetic_logic.md R215). -/
def execEor (o : Operand) (s : State) : Host.Outcome State Fault Refusal :=
  .next (s.runRead .eor o fun m t => t.setAZN (t.a ^^^ m))

/-- BIT (43_arithmetic_logic.md R216). -/
def execBit (o : Operand) (s : State) : Host.Outcome State Fault Refusal :=
  .next (s.runRead .bit o fun m t => t.setP (bitStatus t.a m t.p))

/-- CMP (43_arithmetic_logic.md R217). -/
def execCmp (o : Operand) (s : State) : Host.Outcome State Fault Refusal :=
  .next (s.runRead .cmp o fun m t => t.compare t.a m)

/-- CPX (43_arithmetic_logic.md R218). -/
def execCpx (o : Operand) (s : State) : Host.Outcome State Fault Refusal :=
  .next (s.runRead .cpx o fun m t => t.compare t.x m)

/-- CPY (43_arithmetic_logic.md R219). -/
def execCpy (o : Operand) (s : State) : Host.Outcome State Fault Refusal :=
  .next (s.runRead .cpy o fun m t => t.compare t.y m)

/-- INC (43_arithmetic_logic.md R220). -/
def execInc (o : Operand) (s : State) : Host.Outcome State Fault Refusal :=
  .next (s.runModify .inc o (fun m _ => m + 1#8) (fun m t => znOf (m + 1#8) t.p))

/-- DEC (43_arithmetic_logic.md R221). -/
def execDec (o : Operand) (s : State) : Host.Outcome State Fault Refusal :=
  .next (s.runModify .dec o (fun m _ => m - 1#8) (fun m t => znOf (m - 1#8) t.p))

/-- INX (43_arithmetic_logic.md R222). -/
def execInx (s : State) : Host.Outcome State Fault Refusal :=
  .next (s.runImplied .inx fun t => (t.setX (t.x + 1#8)).setZN (t.x + 1#8))

/-- INY (43_arithmetic_logic.md R223). -/
def execIny (s : State) : Host.Outcome State Fault Refusal :=
  .next (s.runImplied .iny fun t => (t.setY (t.y + 1#8)).setZN (t.y + 1#8))

/-- DEX (43_arithmetic_logic.md R224). -/
def execDex (s : State) : Host.Outcome State Fault Refusal :=
  .next (s.runImplied .dex fun t => (t.setX (t.x - 1#8)).setZN (t.x - 1#8))

/-- DEY (43_arithmetic_logic.md R225). -/
def execDey (s : State) : Host.Outcome State Fault Refusal :=
  .next (s.runImplied .dey fun t => (t.setY (t.y - 1#8)).setZN (t.y - 1#8))

end Sys2Proof.Machine
end

