-- ==== Sys2Proof/Machine/Control.lean ====
section
/-! DEFINITION. Branches, jumps, calls and returns (45_control_transfer.md). -/

namespace Sys2Proof.Machine

/-- BCC (45_control_transfer.md R271): `Branch(P.C == 0)`. -/
def execBcc (displacement : Byte) (s : State) : Host.Outcome State Fault Refusal :=
  .next (s.runBranch .bcc displacement fun t => !t.flag .c)

/-- BCS (45_control_transfer.md R272): `Branch(P.C == 1)`. -/
def execBcs (displacement : Byte) (s : State) : Host.Outcome State Fault Refusal :=
  .next (s.runBranch .bcs displacement fun t => t.flag .c)

/-- BEQ (45_control_transfer.md R273): `Branch(P.Z == 1)`. -/
def execBeq (displacement : Byte) (s : State) : Host.Outcome State Fault Refusal :=
  .next (s.runBranch .beq displacement fun t => t.flag .z)

/-- BMI (45_control_transfer.md R274): `Branch(P.N == 1)`. -/
def execBmi (displacement : Byte) (s : State) : Host.Outcome State Fault Refusal :=
  .next (s.runBranch .bmi displacement fun t => t.flag .n)

/-- BNE (45_control_transfer.md R275): `Branch(P.Z == 0)`. -/
def execBne (displacement : Byte) (s : State) : Host.Outcome State Fault Refusal :=
  .next (s.runBranch .bne displacement fun t => !t.flag .z)

/-- BPL (45_control_transfer.md R276): `Branch(P.N == 0)`. -/
def execBpl (displacement : Byte) (s : State) : Host.Outcome State Fault Refusal :=
  .next (s.runBranch .bpl displacement fun t => !t.flag .n)

/-- BVC (45_control_transfer.md R277): `Branch(P.V == 0)`. -/
def execBvc (displacement : Byte) (s : State) : Host.Outcome State Fault Refusal :=
  .next (s.runBranch .bvc displacement fun t => !t.flag .v)

/-- BVS (45_control_transfer.md R278): `Branch(P.V == 1)`. -/
def execBvs (displacement : Byte) (s : State) : Host.Outcome State Fault Refusal :=
  .next (s.runBranch .bvs displacement fun t => t.flag .v)

/-- JMP (45_control_transfer.md R279): `PC <- addr_abs`. -/
def execJmp (o : Operand) (s : State) : Host.Outcome State Fault Refusal :=
  let t := (s.resolve o).2
  .next ((t.setPc t.addrAbs).charge .jmp o.mode false 0)

/-- JSR (45_control_transfer.md R280): push the address of its own last byte, `PC <- addr_abs`. -/
def execJsr (address : Addr) (s : State) : Host.Outcome State Fault Refusal :=
  let t := (s.resolve (.abs address)).2
  let pushed := t.pushWord (t.pc - 1#16)
  .next ((pushed.setPc pushed.addrAbs).charge .jsr .abs false 0)

/-- RTS (45_control_transfer.md R281): `PC <- (hi : lo) + 1` of the word pulled. -/
def execRts (s : State) : Host.Outcome State Fault Refusal :=
  .next (s.runImplied .rts fun t =>
    let target := t.pullWord
    target.2.setPc (target.1 + 1#16))

end Sys2Proof.Machine
end

