-- ==== Sys2Proof/Machine/LoadStore.lean ====
section
/-! DEFINITION. Loads, stores and register transfers (42_load_store_transfer.md). -/

namespace Sys2Proof.Machine

/-- LDA (42_load_store_transfer.md R181). -/
def execLda (o : Operand) (s : State) : Host.Outcome State Fault Refusal :=
  .next (s.runRead .lda o fun m t => (t.setA m).setZN m)

/-- LDX (42_load_store_transfer.md R182). -/
def execLdx (o : Operand) (s : State) : Host.Outcome State Fault Refusal :=
  .next (s.runRead .ldx o fun m t => (t.setX m).setZN m)

/-- LDY (42_load_store_transfer.md R183). -/
def execLdy (o : Operand) (s : State) : Host.Outcome State Fault Refusal :=
  .next (s.runRead .ldy o fun m t => (t.setY m).setZN m)

/-- STA (42_load_store_transfer.md R184). -/
def execSta (o : Operand) (s : State) : Host.Outcome State Fault Refusal :=
  .next (s.runStore .sta o fun t => t.a)

/-- STX (42_load_store_transfer.md R185). -/
def execStx (o : Operand) (s : State) : Host.Outcome State Fault Refusal :=
  .next (s.runStore .stx o fun t => t.x)

/-- STY (42_load_store_transfer.md R186). -/
def execSty (o : Operand) (s : State) : Host.Outcome State Fault Refusal :=
  .next (s.runStore .sty o fun t => t.y)

/-- TAX (42_load_store_transfer.md R187). -/
def execTax (s : State) : Host.Outcome State Fault Refusal :=
  .next (s.runImplied .tax fun t => (t.setX t.a).setZN t.a)

/-- TAY (42_load_store_transfer.md R188). -/
def execTay (s : State) : Host.Outcome State Fault Refusal :=
  .next (s.runImplied .tay fun t => (t.setY t.a).setZN t.a)

/-- TXA (42_load_store_transfer.md R189). -/
def execTxa (s : State) : Host.Outcome State Fault Refusal :=
  .next (s.runImplied .txa fun t => (t.setA t.x).setZN t.x)

/-- TYA (42_load_store_transfer.md R190). -/
def execTya (s : State) : Host.Outcome State Fault Refusal :=
  .next (s.runImplied .tya fun t => (t.setA t.y).setZN t.y)

/-- TSX (42_load_store_transfer.md R191). -/
def execTsx (s : State) : Host.Outcome State Fault Refusal :=
  .next (s.runImplied .tsx fun t => (t.setX t.sp).setZN t.sp)

/-- TXS (42_load_store_transfer.md R192): "the only transfer that writes no flag". -/
def execTxs (s : State) : Host.Outcome State Fault Refusal :=
  .next (s.runImplied .txs fun t => t.setSp t.x)

end Sys2Proof.Machine
end

