-- ==== Sys2Proof/Machine/Shift.lean ====
section
/-! DEFINITION. Shifts and rotates (44_shift_rotate.md). -/

namespace Sys2Proof.Machine

/-- ASL (44_shift_rotate.md R251). -/
def execAsl (o : Operand) (s : State) : Host.Outcome State Fault Refusal :=
  .next (s.runModify .asl o (fun m _ => aslResult m)
    (fun m t => shiftStatus (m.getLsbD 7) (aslResult m) t.p))

/-- LSR (44_shift_rotate.md R252). -/
def execLsr (o : Operand) (s : State) : Host.Outcome State Fault Refusal :=
  .next (s.runModify .lsr o (fun m _ => lsrResult m)
    (fun m t => shiftStatus (m.getLsbD 0) (lsrResult m) t.p))

/-- ROL (44_shift_rotate.md R253). -/
def execRol (o : Operand) (s : State) : Host.Outcome State Fault Refusal :=
  .next (s.runModify .rol o (fun m t => rolResult (t.flag .c) m)
    (fun m t => shiftStatus (m.getLsbD 7) (rolResult (t.flag .c) m) t.p))

/-- ROR (44_shift_rotate.md R254). -/
def execRor (o : Operand) (s : State) : Host.Outcome State Fault Refusal :=
  .next (s.runModify .ror o (fun m t => rorResult (t.flag .c) m)
    (fun m t => shiftStatus (m.getLsbD 0) (rorResult (t.flag .c) m) t.p))

end Sys2Proof.Machine
end

