-- ==== Sys2Proof/Machine/System.lean ====
section
/-! DEFINITION. Stack, flag, system and undocumented instructions (46_stack_flags_system.md). -/

namespace Sys2Proof.Machine

/-- PHA (46_stack_flags_system.md R301). -/
def execPha (s : State) : Host.Outcome State Fault Refusal :=
  .next (s.runImplied .pha fun t => t.push t.a)

/-- PHP (46_stack_flags_system.md R302). -/
def execPhp (s : State) : Host.Outcome State Fault Refusal :=
  .next (s.runImplied .php fun t => t.push (statusPushedByProgram t.p))

/-- PLA (46_stack_flags_system.md R303). -/
def execPla (s : State) : Host.Outcome State Fault Refusal :=
  .next (s.runImplied .pla fun t =>
    let v := t.pull
    (v.2.setA v.1).setZN v.1)

/-- PLP (46_stack_flags_system.md R304). -/
def execPlp (s : State) : Host.Outcome State Fault Refusal :=
  .next (s.runImplied .plp fun t => t.pullStatus)

/-- CLC (46_stack_flags_system.md R305). -/
def execClc (s : State) : Host.Outcome State Fault Refusal :=
  .next (s.runImplied .clc fun t => t.setFlagTo .c false)

/-- CLD (46_stack_flags_system.md R306). -/
def execCld (s : State) : Host.Outcome State Fault Refusal :=
  .next (s.runImplied .cld fun t => t.setFlagTo .d false)

/-- CLI (46_stack_flags_system.md R307). -/
def execCli (s : State) : Host.Outcome State Fault Refusal :=
  .next (s.runImplied .cli fun t => t.setFlagTo .i false)

/-- CLV (46_stack_flags_system.md R308). -/
def execClv (s : State) : Host.Outcome State Fault Refusal :=
  .next (s.runImplied .clv fun t => t.setFlagTo .v false)

/-- SEC (46_stack_flags_system.md R309). -/
def execSec (s : State) : Host.Outcome State Fault Refusal :=
  .next (s.runImplied .sec fun t => t.setFlagTo .c true)

/-- SED (46_stack_flags_system.md R310). -/
def execSed (s : State) : Host.Outcome State Fault Refusal :=
  .next (s.runImplied .sed fun t => t.setFlagTo .d true)

/-- SEI (46_stack_flags_system.md R311). -/
def execSei (s : State) : Host.Outcome State Fault Refusal :=
  .next (s.runImplied .sei fun t => t.setFlagTo .i true)

/-- BRK (46_stack_flags_system.md R312): skip the padding byte, then the entry through the IRQ/BRK vector with B = 1. -/
def execBrk (s : State) : Host.Outcome State Fault Refusal :=
  .next (s.runImplied .brk fun t => (t.setPc (t.pc + 1#16)).interruptEntry irqVector true)

/-- RTI (46_stack_flags_system.md R313; 60_exceptions.md R351). -/
def execRti (s : State) : Host.Outcome State Fault Refusal :=
  .next (s.runImplied .rti fun t => t.interruptReturn)

/-- NOP (46_stack_flags_system.md R314). -/
def execNop (s : State) : Host.Outcome State Fault Refusal :=
  .next (s.runImplied .nop fun t => t)

/-- ILL (46_stack_flags_system.md R315): each undocumented byte is a no-op of one byte and two cycles. -/
def execIll (_opcode : Byte) (s : State) : Host.Outcome State Fault Refusal :=
  .next (s.runImplied .ill fun t => t)

end Sys2Proof.Machine
end

