-- ==== Sys2Proof/Machine/Cycle.lean ====
section
/-! DEFINITION. The fetch unit, the instruction in its tick, the servicing of pending interrupts, and the
clock tick (40_execution_cycle.md R120 to R132, 60_exceptions.md R344). -/

namespace Sys2Proof.Machine

/-- One byte of the instruction stream: read at PC, PC past it (R122, 30_encoding.md R90). -/
def State.fetchByte (s : State) : Byte × State :=
  let b := s.read8 s.pc
  (b.1, b.2.setPc (b.2.pc + 1#16))

/-- `n` bytes of the instruction stream, in address order (R127). -/
def State.fetchBytes : Nat → State → List Byte × State
  | 0, s => ([], s)
  | n + 1, s =>
    let b := s.fetchByte
    let rest := State.fetchBytes n b.2
    (b.1 :: rest.1, rest.2)

/-- The instruction at PC: the opcode byte, then the operand bytes its mode has and no others (R122, R123,
R127); PC is then past them. -/
def State.fetchInstr (s : State) : Instr × State :=
  let op := s.fetchByte
  let operands := State.fetchBytes (entry op.1).mode.operandBytes op.2
  (assemble op.1 (operands.1.getD 0 0x00#8) (operands.1.getD 1 0x00#8), operands.2)

/-- `ExecuteInstruction()` (R121). -/
def executeInstruction (s : State) : Host.Outcome State Fault Refusal :=
  let f := s.fetchInstr
  exec f.1 f.2

/-- The entry of an NMI: its vector, its cost (60_exceptions.md R348). -/
def State.enterNmi (s : State) : State := (s.interruptEntry nmiVector false).setCycles nmiCycles

/-- The entry of an IRQ: its vector, its cost (R347). -/
def State.enterIrq (s : State) : State := (s.interruptEntry irqVector false).setCycles irqCycles

/-- `ServicePending()` (R344): NMI first, one event a call; an IRQ found masked is dropped and the tick runs
the next instruction. -/
def servicePending (s : State) : Host.Outcome State Fault Refusal :=
  if s.nmiPending then
    .next (s.setNmiPending false).enterNmi
  else if s.flag .i then
    executeInstruction (s.setIrqPending false)
  else
    .next (s.setIrqPending false).enterIrq

/-- What a tick at an instruction boundary does before it is counted (R120). -/
def boundaryTick (s : State) : Host.Outcome State Fault Refusal :=
  if s.nmiPending || s.irqPending then servicePending s else executeInstruction s

/-- A tick's end: the state it leaves is counted, a stop stays a stop. -/
def counted : Host.Outcome State Fault Refusal → Host.Outcome State Fault Refusal
  | .next s => .next s.countTick
  | .fault f => .fault f
  | .refused r => .refused r

/-- `step()` (R120): one clock tick; refused before the first reset (60_exceptions.md R360). -/
def tick (s : State) : Host.Outcome State Fault Refusal :=
  match s.power with
  | .poweredOff => .refused .poweredOff
  | .running =>
    if s.cycles = 0 then counted (boundaryTick s.clearLog) else .next s.clearLog.countTick

/-! Placing an instruction. -/

/-- The bytes of a list stored from an address on, addresses modulo 2^16. -/
def storeBytes : List Byte → Addr → List Host.Cell → List Host.Cell
  | [], _, m => m
  | b :: rest, a, m => storeBytes rest (a + 1#16) (Memory.write m a.toNat b)

/-- A region is no device over any of the three bytes an instruction can have from `a` on. -/
def leavesPlain (a : Addr) (r : Region) : Bool :=
  !(decide (r.kind = .device) && (inRegion r a || inRegion r (a + 1#16) || inRegion r (a + 2#16)))

/-- A state whose very next tick fetches the three bytes given: running, at a boundary, nothing pending, the
bytes at PC, and no device answering there (notes/assumptions/14.md). -/
def State.withBytesAtPc (s : State) (bs : List Byte) : State :=
  { s with
    power := .running
    cycles := 0
    nmiPending := false
    irqPending := false
    mem := storeBytes bs s.pc s.mem
    regions := s.regions.filter (leavesPlain s.pc) }

end Sys2Proof.Machine
end

