-- ==== Sys2Proof/Machine/Step.lean ====
section
/-! DEFINITION. The step: one call of `step()`, one clock tick (00_scope.md R2). -/

namespace Sys2Proof.Machine

/-- `step()` (40_execution_cycle.md R120). -/
def step (s : State) : Host.Outcome State Fault Refusal := tick s

/-- The state whose very next step fetches and runs the instruction of a word of the opcode table
(notes/assumptions/3.md, 14.md). -/
def State.withFetchWord (s : State) (nbits w : Nat) : State := s.withBytesAtPc (wordBytes nbits w)

end Sys2Proof.Machine
end

