-- ==== Sys2Proof/Machine/Interface.lean ====
section
/-! DEFINITION. The core's other host operations (00_scope.md R5): `new`, `reset`, `irq`, `nmi`, the accessors
and `complete`; and all that can happen between two ticks as one type. -/

namespace Sys2Proof.Machine

/-- `new(bus)` (10_state.md R54, R57): powered off, no tick counted, nothing pending; the bus is the host's, and
every other content is whatever `unspecified` holds (93_implementation_defined.md U1;
notes/assumptions/9.md). -/
def construct (unspecified : State) : State :=
  { unspecified with
    totalCycles := 0#64
    nmiPending := false
    irqPending := false
    power := .poweredOff
    busLog := [] }

/-- The registers, latches and countdown `reset()` clears before it reads the vector
(70_reset_and_hazards.md R380). -/
def State.resetRegisters (s : State) : State :=
  { s with
    a := 0x00#8
    x := 0x00#8
    y := 0x00#8
    sp := 0xFD#8
    p := 0x20#8
    fetched := 0x00#8
    addrAbs := 0x0000#16
    addrRel := 0x0000#16
    addrTemp := 0x0000#16
    cycles := resetCycles
    nmiPending := false
    irqPending := false
    power := .running }

/-- `reset()` (R380): acts at once, from either power state; PC from the reset vector; total_cycles stays. -/
def reset (s : State) : State :=
  let target := s.clearLog.resetRegisters.read16 resetVector
  target.2.setPc target.1

/-- `irq()` (60_exceptions.md R341): latched inside an instruction; at a boundary taken if I is clear, dropped
if it is set; refused before the first reset (R360). -/
def irq (s : State) : Host.Outcome State Fault Refusal :=
  match s.power with
  | .poweredOff => .refused .poweredOff
  | .running =>
    if s.cycles ≠ 0 then .next (s.clearLog.setIrqPending true)
    else if s.flag .i then .next s.clearLog
    else .next s.clearLog.enterIrq

/-- `nmi()` (R342): latched inside an instruction, taken at a boundary; refused before the first reset. -/
def nmi (s : State) : Host.Outcome State Fault Refusal :=
  match s.power with
  | .poweredOff => .refused .poweredOff
  | .running =>
    if s.cycles ≠ 0 then .next (s.clearLog.setNmiPending true)
    else .next s.clearLog.enterNmi

/-- `complete()` (40_execution_cycle.md R131). -/
def complete (s : State) : Bool := decide (s.cycles = 0)

/-- What the host's accessors show (10_state.md R56): the six registers, total_cycles and complete(). -/
structure Accessors where
  a : Byte
  x : Byte
  y : Byte
  pc : Addr
  sp : Byte
  p : Byte
  totalCycles : BitVec 64
  complete : Bool
deriving DecidableEq, Repr

/-- The accessors of a state (R56); the latches have none. -/
def observe (s : State) : Accessors :=
  ⟨s.a, s.x, s.y, s.pc, s.sp, s.p, s.totalCycles, complete s⟩

/-- Everything that happens to the machine, one operation at a time (20_memory.md R71, R72): the core's own
operations, and what the surrounding machine may do to the bus between them (notes/assumptions/10.md). -/
inductive HostOp
  /-- `step()`. -/
  | step
  /-- `reset()`. -/
  | reset
  /-- `irq()`. -/
  | irq
  /-- `nmi()`. -/
  | nmi
  /-- The surrounding machine stores a byte, read-only regions included. -/
  | store (address : Addr) (value : Byte)
  /-- The surrounding machine maps other things onto the bus. -/
  | remap (regions : List Region)
  /-- The surrounding machine drives the devices into another state (R71). -/
  | devicesMove (state : Nat)
deriving DecidableEq, Repr

/-- One operation. -/
def HostOp.run (op : HostOp) (s : State) : Host.Outcome State Fault Refusal :=
  match op with
  | .step => Sys2Proof.Machine.step s
  | .reset => .next (Sys2Proof.Machine.reset s)
  | .irq => Sys2Proof.Machine.irq s
  | .nmi => Sys2Proof.Machine.nmi s
  | .store address value => .next { s with mem := Memory.write s.mem address.toNat value }
  | .remap regions => .next { s with regions := regions }
  | .devicesMove state => .next { s with deviceState := state }

/-- Several operations in order, up to the first that is refused. -/
def HostOp.runAll : List HostOp → State → Host.Outcome State Fault Refusal
  | [], s => .next s
  | op :: rest, s =>
    match op.run s with
    | .next t => HostOp.runAll rest t
    | .fault f => .fault f
    | .refused r => .refused r

end Sys2Proof.Machine
end

