-- ==== Sys2Proof/Safety.lean ====
section
/-! DEFINITION. The terms claims are made in: the invariant, what an operation leaves unchanged, which parts
of the state are architectural, and the classes of instructions that the spec's tables and prose name. -/

namespace Sys2Proof

/-- A mode whose operand is a byte of memory (40_execution_cycle.md R126). -/
def Mode.inMemory : Mode → Bool
  | .imp | .acc | .imm => false
  | .zp0 | .zpx | .zpy | .rel | .abs | .abx | .aby | .ind | .izx | .izy => true

end Sys2Proof

namespace Sys2Proof.Machine

/-! The invariant. -/

/-- What holds in every reachable state: the memory keeps its canonical form; once running, live B is 0 and
live U is 1 (10_state.md R42, R43), and the countdown is at most its largest value, `RESET_CYCLES` (R51). -/
structure State.Inv (s : State) : Prop where
  memory : Memory.wf s.mem = true
  breakClear : s.power = .running → s.flag .b = false
  unusedSet : s.power = .running → s.flag .u = true
  countdown : s.power = .running → s.cycles ≤ resetCycles

/-! Frames. -/

/-- The parts of the state a claim can say are unchanged: all but the scratch latches, whose contents between
instructions are unspecified (10_state.md R49, R50; notes/assumptions/6.md). -/
inductive Part
  | a | x | y | sp | p | pc | cycles | totalCycles | nmiPending | irqPending | power | mem | regions
  | deviceState | busLog
deriving DecidableEq, Repr

/-- A part is the same in two states; of memory: every byte reads the same. -/
def Part.Same (s t : State) : Part → Prop
  | .a => t.a = s.a
  | .x => t.x = s.x
  | .y => t.y = s.y
  | .sp => t.sp = s.sp
  | .p => t.p = s.p
  | .pc => t.pc = s.pc
  | .cycles => t.cycles = s.cycles
  | .totalCycles => t.totalCycles = s.totalCycles
  | .nmiPending => t.nmiPending = s.nmiPending
  | .irqPending => t.irqPending = s.irqPending
  | .power => t.power = s.power
  | .mem => ∀ a : Addr, Memory.read t.mem a.toNat = Memory.read s.mem a.toNat
  | .regions => t.regions = s.regions
  | .deviceState => t.deviceState = s.deviceState
  | .busLog => t.busLog = s.busLog

/-- From `s` to `t` nothing changed but the parts listed (and the latches). -/
def UnchangedBut (changed : List Part) (s t : State) : Prop := ∀ q : Part, q ∉ changed → q.Same s t

/-- From `p` to `q` no flag of the status changed but those listed. -/
def FlagsUnchangedBut (changed : List Flag) (p q : Byte) : Prop :=
  ∀ f : Flag, f ∉ changed → getFlag f q = getFlag f p

/-- Every byte outside the addresses listed reads in `t` as it read in `s`. -/
def BytesUnchangedBut (stored : List Addr) (s t : State) : Prop :=
  ∀ a : Addr, a ∉ stored → Memory.read t.mem a.toNat = Memory.read s.mem a.toNat

/-- What is left of a state when the four scratch latches are forgotten. -/
def State.withoutLatches (s : State) : State :=
  { s with fetched := 0x00#8, addrAbs := 0x0000#16, addrRel := 0x0000#16, addrTemp := 0x0000#16 }

/-- Two states agree in everything but the scratch latches. -/
def AgreeButLatches (s t : State) : Prop := s.withoutLatches = t.withoutLatches

/-- Two outcomes agree in everything but the scratch latches of the state they leave. -/
def OutcomesAgreeButLatches :
    Host.Outcome State Fault Refusal → Host.Outcome State Fault Refusal → Prop
  | .next s, .next t => AgreeButLatches s t
  | .fault f, .fault g => f = g
  | .refused r, .refused q => r = q
  | _, _ => False

/-- Z and N of a status byte are those of an 8-bit result (42_load_store_transfer.md R180). -/
def ZNOf (v : Byte) (q : Byte) : Prop := getFlag .z q = decide (v = 0x00#8) ∧ getFlag .n q = v.getLsbD 7

/-- The byte at an address after a store of `v` there: `v` if the address is RAM, what it was if it is not
(20_memory.md R62, R63). -/
def StoresByte (s t : State) (a : Addr) (v : Byte) : Prop :=
  (Memory.wf s.mem = true → s.kindAt a = .ram → Memory.read t.mem a.toNat = v) ∧
  (s.kindAt a ≠ .ram → Memory.read t.mem a.toNat = Memory.read s.mem a.toNat)

/-- `t` is `s` after three pushes, I set, and PC loaded from a vector (60_exceptions.md R346): the return
address `ret`, high byte first, then `status`. -/
def EntersWith (vector ret : Addr) (status : Byte) (s t : State) : Prop :=
  let high := stackAddr s.sp
  let low := stackAddr (s.sp - 1#8)
  let third := stackAddr (s.sp - 2#8)
  let pushed := ((s.write8 high (page ret)).write8 low (lowByte ret)).write8 third status
  StoresByte s t high (page ret) ∧ StoresByte s t low (lowByte ret) ∧ StoresByte s t third status ∧
  BytesUnchangedBut [high, low, third] s t ∧
  t.sp = s.sp - 3#8 ∧
  t.pc = word ((pushed.afterRead vector).peek (vector + 1#16)) (pushed.peek vector) ∧
  getFlag .i t.p = true ∧ FlagsUnchangedBut [.i] s.p t.p ∧
  t.busLog = s.busLog ++
    [.write high (page ret), .write low (lowByte ret), .write third status,
     .read vector (pushed.peek vector), .read (vector + 1#16) ((pushed.afterRead vector).peek (vector + 1#16))]

/-! Regions. -/

/-- The whole bus is plain RAM, the reference instance of 20_memory.md R63. -/
def AllRam (s : State) : Prop := ∀ a : Addr, s.kindAt a = .ram

/-! Operands. -/

/-- The operand value M (00_scope.md R12) of an operand in a state whose PC is past it. -/
def operandValue (o : Operand) (s : State) : Byte := ((s.resolve o).2.fetchOperand o.mode).1

/-- EA, the latch `addr_abs` after the resolver (R12). -/
def effectiveAddress (o : Operand) (s : State) : Addr := (s.resolve o).2.addrAbs

/-- A shift, rotate, INC or DEC left its result `r` in A in mode ACC, else in the byte at EA, by one read and one
write of EA (44_shift_rotate.md R250, 70_reset_and_hazards.md R389); the status may change, nothing else. -/
def ModifiesTo (o : Operand) (r : Byte) (s t : State) : Prop :=
  if o.mode = .acc then t.a = r ∧ UnchangedBut [.a, .p, .cycles] s t
  else
    StoresByte s t (effectiveAddress o s) r ∧ BytesUnchangedBut [effectiveAddress o s] s t ∧
    t.busLog = (s.resolve o).2.busLog ++
      [.read (effectiveAddress o s) (operandValue o s), .write (effectiveAddress o s) r] ∧
    UnchangedBut [.mem, .p, .cycles, .deviceState, .busLog] s t

/-- A branch with a displacement went to its target or not, at the cost of 45_control_transfer.md R270; `s.pc` is
the address after the displacement byte. -/
def BranchesIf (taken : Bool) (d : Byte) (s t : State) : Prop :=
  let target := s.pc + d.signExtend 16
  t.pc = (if taken then target else s.pc) ∧
  t.cycles = (if taken then (if page target = page s.pc then 3 else 4) else 2) ∧
  UnchangedBut [.pc, .cycles] s t

/-! Classes of instructions. -/

/-- The conditional branches (45_control_transfer.md R270): the flag tested and the value that takes it. -/
def branchCondition : Mnemonic → Option (Flag × Bool)
  | .bcc => some (.c, false)
  | .bcs => some (.c, true)
  | .beq => some (.z, true)
  | .bmi => some (.n, true)
  | .bne => some (.z, false)
  | .bpl => some (.n, false)
  | .bvc => some (.v, false)
  | .bvs => some (.v, true)
  | _ => none

/-- The classes of the timing table (70_reset_and_hazards.md R392). -/
inductive TimingClass
  | read | store | modify | registerOnly | push | pull | jmp | jsr | ret | brk | branch
deriving DecidableEq, Repr

/-- The class R392 puts a mnemonic in. -/
def timingClass : Mnemonic → TimingClass
  | .lda | .ldx | .ldy | .adc | .sbc | .and | .ora | .eor | .cmp | .cpx | .cpy | .bit => .read
  | .sta | .stx | .sty => .store
  | .asl | .lsr | .rol | .ror | .inc | .dec => .modify
  | .tax | .tay | .txa | .tya | .tsx | .txs | .inx | .iny | .dex | .dey | .clc | .cld | .cli | .clv | .sec
  | .sed | .sei | .nop | .ill => .registerOnly
  | .pha | .php => .push
  | .pla | .plp => .pull
  | .jmp => .jmp
  | .jsr => .jsr
  | .rts | .rti => .ret
  | .brk => .brk
  | .bcc | .bcs | .beq | .bmi | .bne | .bpl | .bvc | .bvs => .branch

/-- R392's table: the cost of a class in a mode, where it has a cell; `cross` is a page crossing of the
indexed address, which costs a cycle in the cells marked `+`. -/
def classCost (cross : Bool) : TimingClass → Mode → Option Nat
  | .read, .imm => some 2
  | .read, .zp0 => some 3
  | .read, .zpx => some 4
  | .read, .zpy => some 4
  | .read, .abs => some 4
  | .read, .abx => some (if cross then 5 else 4)
  | .read, .aby => some (if cross then 5 else 4)
  | .read, .izx => some 6
  | .read, .izy => some (if cross then 6 else 5)
  | .store, .zp0 => some 3
  | .store, .zpx => some 4
  | .store, .zpy => some 4
  | .store, .abs => some 4
  | .store, .abx => some 5
  | .store, .aby => some 5
  | .store, .izx => some 6
  | .store, .izy => some 6
  | .modify, .acc => some 2
  | .modify, .zp0 => some 5
  | .modify, .zpx => some 6
  | .modify, .abs => some 6
  | .modify, .abx => some 7
  | .registerOnly, .imp => some 2
  | .push, .imp => some 3
  | .pull, .imp => some 4
  | .jmp, .abs => some 3
  | .jmp, .ind => some 5
  | .jsr, .abs => some 6
  | .ret, .imp => some 6
  | .brk, .imp => some 7
  | .branch, .rel => some 2
  | _, _ => none

/-- What a branch costs beyond its base: nothing not taken, 1 taken within the page, 2 across a page; the page
test compares the target with PC past the displacement byte (R270). -/
def branchExtra (i : Instr) (s : State) : Nat :=
  match branchCondition i.mnemonic, i.operand with
  | some (f, v), .rel d =>
    if s.flag f = v then (if page (s.pc + sext16 d) = page s.pc then 1 else 2) else 0
  | _, _ => 0

/-- The instructions that transfer control (40_execution_cycle.md R133). -/
def transfersControl : Mnemonic → Bool
  | .jmp | .jsr | .rts | .rti | .brk => true
  | m => (branchCondition m).isSome

/-- The flags an instruction may write (10_state.md R38 to R45). -/
def flagsWritten : Mnemonic → List Flag
  | .adc | .sbc => [.c, .z, .v, .n]
  | .cmp | .cpx | .cpy | .asl | .lsr | .rol | .ror => [.c, .z, .n]
  | .and | .ora | .eor | .inc | .dec | .inx | .iny | .dex | .dey | .lda | .ldx | .ldy | .tax | .tay | .txa
  | .tya | .tsx | .pla => [.z, .n]
  | .bit => [.z, .v, .n]
  | .clc | .sec => [.c]
  | .cld | .sed => [.d]
  | .cli | .sei | .brk => [.i]
  | .clv => [.v]
  | .plp | .rti => [.c, .z, .i, .d, .b, .u, .v, .n]
  | _ => []

/-- The registers A, X, Y and SP an instruction may write, with its mode: a shift writes A in mode ACC
(10_state.md R31 to R33, R35). -/
def registersWritten : Mnemonic → Mode → List Part
  | .adc, _ | .sbc, _ | .and, _ | .ora, _ | .eor, _ | .lda, _ | .txa, _ | .tya, _ => [.a]
  | .asl, .acc | .lsr, .acc | .rol, .acc | .ror, .acc => [.a]
  | .pla, _ => [.a, .sp]
  | .ldx, _ | .tax, _ | .tsx, _ | .inx, _ | .dex, _ => [.x]
  | .ldy, _ | .tay, _ | .iny, _ | .dey, _ => [.y]
  | .txs, _ | .pha, _ | .php, _ | .plp, _ | .jsr, _ | .rts, _ | .rti, _ | .brk, _ => [.sp]
  | _, _ => []

/-- The addresses an instruction stores to, in a state whose PC is past its bytes: EA for a store or a
read-modify-write on memory, the stack bytes for a push (R184 to R186, R220, R221, R250, R280, R301, R302,
R312). -/
def storedAddresses (i : Instr) (s : State) : List Addr :=
  match timingClass i.mnemonic with
  | .store => [effectiveAddress i.operand s]
  | .modify => if i.operand.mode = .acc then [] else [effectiveAddress i.operand s]
  | .push => [stackAddr s.sp]
  | .jsr => [stackAddr s.sp, stackAddr (s.sp - 1#8)]
  | .brk => [stackAddr s.sp, stackAddr (s.sp - 1#8), stackAddr (s.sp - 2#8)]
  | .read | .registerOnly | .pull | .jmp | .ret | .branch => []

/-- A bus call without its byte: is it a write, and where. -/
def accessShape : BusAccess → Bool × Addr
  | .read a _ => (false, a)
  | .write a _ => (true, a)

/-- The reads of a resolver: the pointer's bytes, the low one first (41_addressing_modes.md R164). -/
def pointerReads (s : State) : Operand → List (Bool × Addr)
  | .ind p => [(false, p), (false, indirectHigh p)]
  | .izx z => [(false, zpIndexed z s.x), (false, (zext16 z + zext16 s.x + 1#16) &&& 0x00FF#16)]
  | .izy z => [(false, zext16 z), (false, (zext16 z + 1#16) &&& 0x00FF#16)]
  | .imp | .acc | .imm _ | .zp0 _ | .zpx _ | .zpy _ | .rel _ | .abs _ | .abx _ | .aby _ => []

/-- The instruction's own bus calls after its resolver's, in order: at most one operand read, then writes,
pushes, pulls and vector reads (40_execution_cycle.md R127). -/
def ownAccesses (i : Instr) (s : State) : List (Bool × Addr) :=
  let ea := effectiveAddress i.operand s
  match timingClass i.mnemonic with
  | .read => if i.operand.mode.inMemory then [(false, ea)] else []
  | .store => [(true, ea)]
  | .modify => if i.operand.mode.inMemory then [(false, ea), (true, ea)] else []
  | .push => [(true, stackAddr s.sp)]
  | .pull => [(false, stackAddr (s.sp + 1#8))]
  | .jsr => [(true, stackAddr s.sp), (true, stackAddr (s.sp - 1#8))]
  | .ret =>
    if i.mnemonic = .rti then
      [(false, stackAddr (s.sp + 1#8)), (false, stackAddr (s.sp + 2#8)), (false, stackAddr (s.sp + 3#8))]
    else [(false, stackAddr (s.sp + 1#8)), (false, stackAddr (s.sp + 2#8))]
  | .brk =>
    [(true, stackAddr s.sp), (true, stackAddr (s.sp - 1#8)), (true, stackAddr (s.sp - 2#8)),
     (false, 0xFFFE#16), (false, 0xFFFF#16)]
  | .jmp | .registerOnly | .branch => []

/-- The reads of `n` instruction bytes from an address on (R127). -/
def fetchReads (pc : Addr) (n : Nat) : List (Bool × Addr) :=
  (List.range n).map fun k => (false, pc + BitVec.ofNat 16 k)

/-- Bytes pushed one after another (00_scope.md R10). -/
def pushAll : List Byte → State → State
  | [], s => s
  | v :: rest, s => pushAll rest (s.push v)

/-- The rows of the opcode table with a mnemonic, in the order of the bytes: mode, byte, base cycles, page
penalty (30_encoding.md R95, R96). -/
def tableRows (m : Mnemonic) : List (Mode × Nat × Nat × Bool) :=
  ((List.range 256).filter fun n => (entry (BitVec.ofNat 8 n)).mnemonic == m).map fun n =>
    let e := entry (BitVec.ofNat 8 n)
    (e.mode, n, e.base, e.penalty)

end Sys2Proof.Machine
end

