-- ==== Sys2Proof/Certificates/Slice0/Obligations.lean ====
section
/-! DEFINITION. The statements for the provers. -/

open Sys2Proof Sys2Proof.Machine

/-- For every well-formed instruction, with every operand, and any bytes after it: decoding its encoding
followed by those bytes gives the instruction and leaves exactly those bytes. (30_encoding.md R91,
30_encoding.md R95, 30_encoding.md R96, 30_encoding.md R98) -/
def Obligations.DecodeOfEncodeIsTheInstruction : Prop :=
  ∀ (i : Instr) (rest : List Byte), i.WellFormed → decode (encode i ++ rest) = .ok (i, rest)

/-- Any three bytes decode to a well-formed instruction whose mnemonic and mode are those of the table entry of
the first byte, whose length is 1, 2 or 3, which takes exactly its length of bytes, and whose encoding is
those bytes; too few operand bytes, or no byte, are rejected by name. (30_encoding.md R90, 30_encoding.md
R93, 30_encoding.md R101) -/
def Obligations.EveryOpcodeByteDecodes : Prop :=
  decode [] = .error .noOpcode ∧
  (∀ (op : Byte) (bs : List Byte), bs.length < (entry op).mode.operandBytes →
    decode (op :: bs) = .error (.missingOperand op)) ∧
  ∀ (op b1 b2 : Byte) (rest : List Byte), ∃ i : Instr,
    decode (op :: b1 :: b2 :: rest) = .ok (i, (b1 :: b2 :: rest).drop (i.length - 1)) ∧
    i.WellFormed ∧ 1 ≤ i.length ∧ i.length ≤ 3 ∧
    i.mnemonic = (entry op).mnemonic ∧ i.operand.mode = (entry op).mode ∧
    encode i = [op, b1, b2].take i.length

/-- The list of undocumented bytes has 105 different members; the table entry of a byte is (ILL, IMP, 2, false)
exactly if the byte is in the list; an instruction ILL has length 1. (30_encoding.md R98,
46_stack_flags_system.md R315) -/
def Obligations.UndocumentedBytesAreIll : Prop :=
  undocumented.length = 105 ∧ undocumented.Nodup ∧
  (∀ op : Byte, entry op = ⟨.ill, .imp, 2, false⟩ ↔ op ∈ undocumented) ∧
  (∀ op : Byte, (entry op).mnemonic = .ill ↔ op ∈ undocumented) ∧
  ∀ op : Byte, (Instr.ill op).length = 1

/-- One instruction of each family, its bytes as the rules and examples of the spec give them, decodes to that
instruction. (30_encoding.md R91, 30_encoding.md R96, 30_encoding.md R110) -/
def Obligations.SampleBytesDecode : Prop :=
  decode [0xA9#8, 0x10#8] = .ok (.lda (.imm 0x10#8), []) ∧
  decode [0xBD#8, 0x34#8, 0x12#8] = .ok (.lda (.abx 0x1234#16), []) ∧
  decode [0x94#8, 0xFF#8] = .ok (.sty (.zpx 0xFF#8), []) ∧
  decode [0xB6#8, 0x10#8] = .ok (.ldx (.zpy 0x10#8), []) ∧
  decode [0x61#8, 0x10#8] = .ok (.adc (.izx 0x10#8), []) ∧
  decode [0xF1#8, 0x40#8] = .ok (.sbc (.izy 0x40#8), []) ∧
  decode [0x0A#8] = .ok (.asl .acc, []) ∧
  decode [0xF0#8, 0x0E#8] = .ok (.beq 0x0E#8, []) ∧
  decode [0x6C#8, 0x34#8, 0x12#8] = .ok (.jmp (.ind 0x1234#16), []) ∧
  decode [0x20#8, 0x10#8, 0x80#8] = .ok (.jsr 0x8010#16, []) ∧
  decode [0x00#8, 0xEA#8] = .ok (.brk, [0xEA#8]) ∧
  decode [0x02#8, 0xFF#8] = .ok (.ill 0x02#8, [0xFF#8])

/-- The flags C, Z, I, D, B, U, V, N are bits 0 to 7 of P; set_flag makes the named bit the condition and leaves
every other flag; get_flag tests the named bit. (10_state.md R36, 10_state.md R37) -/
def Obligations.FlagSetterWritesOneBit : Prop :=
  (∀ p : Byte, getFlag .c p = p.getLsbD 0 ∧ getFlag .z p = p.getLsbD 1 ∧ getFlag .i p = p.getLsbD 2 ∧
    getFlag .d p = p.getLsbD 3 ∧ getFlag .b p = p.getLsbD 4 ∧ getFlag .u p = p.getLsbD 5 ∧
    getFlag .v p = p.getLsbD 6 ∧ getFlag .n p = p.getLsbD 7) ∧
  ∀ (f : Flag) (cond : Bool) (p : Byte),
    getFlag f (setFlag f cond p) = cond ∧ FlagsUnchangedBut [f] p (setFlag f cond p)

/-- The byte PHP and BRK push has B and U set and the other flags live; the byte IRQ and NMI entry push has B
clear and U set; a pulled byte is restored as eight flag writes, one per bit, with U set and B clear.
(10_state.md R37, 10_state.md R46, 10_state.md R47) -/
def Obligations.PushedAndPulledStatus : Prop :=
  (∀ p : Byte, getFlag .b (statusPushedByProgram p) = true ∧ getFlag .u (statusPushedByProgram p) = true ∧
    FlagsUnchangedBut [.b, .u] p (statusPushedByProgram p)) ∧
  (∀ p : Byte, getFlag .b (statusPushedByHardware p) = false ∧ getFlag .u (statusPushedByHardware p) = true ∧
    FlagsUnchangedBut [.b, .u] p (statusPushedByHardware p)) ∧
  ∀ v p : Byte, statusRestored v =
    setFlag .n (v.getLsbD 7) (setFlag .v (v.getLsbD 6) (setFlag .u true (setFlag .b false
      (setFlag .d (v.getLsbD 3) (setFlag .i (v.getLsbD 2) (setFlag .z (v.getLsbD 1)
        (setFlag .c (v.getLsbD 0) p)))))))

/-- After a bus write the written address reads the byte if it is RAM and reads as before if it is read-only;
every other address that is no device reads as before; the write is one bus call, whatever the address.
(20_memory.md R62, 20_memory.md R63, 20_memory.md R73) -/
def Obligations.BusWriteReachesRamOnly : Prop :=
  ∀ (s : State) (a : Addr) (v : Byte),
    (Memory.wf s.mem = true → s.kindAt a = .ram → (s.write8 a v).peek a = v) ∧
    (s.kindAt a = .rom → (s.write8 a v).peek a = s.peek a) ∧
    (∀ b : Addr, b ≠ a → s.kindAt b ≠ .device → (s.write8 a v).peek b = s.peek b) ∧
    (s.write8 a v).busLog = s.busLog ++ [.write a v]

/-- A call to a device: a read is answered from the state of the devices by an open function of that state and
the address, a read updates the state by an open function of both, a write by an open function of both and
the byte; no byte held and nothing else changes. A call to RAM or ROM leaves the devices. A store to a
device and then a load from a device: A becomes the answer of the state after the write of that very byte,
and the devices take in the read. The answer and the update on a write are the form R63 gives the bus. MODEL
CHOICE, no rule of the spec: that an address is RAM, ROM or a device (log entry 1, DESIGN CHOICE); that the
state of the devices is a number, that a read updates it by Config.deviceAfterRead, where R68 only allows
read side effects, and that a call to RAM or ROM leaves it (log entry 4, DESIGN CHOICE); that a write to a
device changes no held byte (log entry 17, DEDUCED). (20_memory.md R61, 20_memory.md R63,
notes/assumptions/1.md, notes/assumptions/4.md, notes/assumptions/17.md) -/
def Obligations.DevicesAnswerFromTheirState : Prop :=
  (∀ (s : State) (a : Addr) (v : Byte), s.kindAt a = .device →
    (s.read8 a).1 = Config.deviceByte s.deviceState a ∧
    (s.read8 a).2.deviceState = Config.deviceAfterRead s.deviceState a ∧
    UnchangedBut [.deviceState, .busLog] s (s.read8 a).2 ∧
    (s.write8 a v).deviceState = Config.deviceAfterWrite s.deviceState a v ∧
    UnchangedBut [.deviceState, .busLog] s (s.write8 a v)) ∧
  (∀ (s : State) (a : Addr) (v : Byte), s.kindAt a ≠ .device →
    (s.read8 a).2.deviceState = s.deviceState ∧ (s.write8 a v).deviceState = s.deviceState) ∧
  ∀ (s : State) (a b : Addr), s.kindAt a = .device → s.kindAt b = .device →
    let written := Config.deviceAfterWrite s.deviceState a s.a
    ∃ t u : State, exec (.sta (.abs a)) s = .next t ∧ exec (.lda (.abs b)) t = .next u ∧
      t.deviceState = written ∧ u.a = Config.deviceByte written b ∧
      u.deviceState = Config.deviceAfterRead written b

/-- A tick that executes an instruction makes exactly these bus calls in this order: the opcode and operand
bytes from PC on, the pointer bytes of the resolver, then the instruction own calls: at most one operand
read, then its writes, pushes, pulls and vector reads. (R127) -/
def Obligations.BusAccessesInOrder : Prop :=
  ∀ s : State, s.power = .running → s.cycles = 0 → s.nmiPending = false → s.irqPending = false →
    ∃ t : State, step s = .next t ∧
      t.busLog.map accessShape =
        fetchReads s.pc s.clearLog.fetchInstr.1.length ++
        pointerReads s s.clearLog.fetchInstr.1.operand ++
        ownAccesses s.clearLog.fetchInstr.1 s.clearLog.fetchInstr.2

/-- EA of ZP0 is the byte; of ZPX and ZPY the sum of the byte and X or Y modulo 256; no crossing is reported,
and nothing but latches changes. (41_addressing_modes.md R154, 41_addressing_modes.md R155,
41_addressing_modes.md R156) -/
def Obligations.ZeroPageModesStayInPageZero : Prop :=
  ∀ (zp : Byte) (s : State),
    (effectiveAddress (.zp0 zp) s).toNat = zp.toNat ∧
    (effectiveAddress (.zpx zp) s).toNat = (zp.toNat + s.x.toNat) % 256 ∧
    (effectiveAddress (.zpy zp) s).toNat = (zp.toNat + s.y.toNat) % 256 ∧
    ∀ o ∈ [Operand.zp0 zp, .zpx zp, .zpy zp], (s.resolve o).1 = false ∧ AgreeButLatches s (s.resolve o).2

/-- EA of ABS is the operand word; of ABX and ABY its sum with X or Y modulo 2^16; a crossing is reported
exactly if the page of the sum differs from the page of the base; nothing but latches changes.
(41_addressing_modes.md R158, 41_addressing_modes.md R159, 41_addressing_modes.md R160) -/
def Obligations.AbsoluteModesIndexModulo64K : Prop :=
  ∀ (base : Addr) (s : State),
    effectiveAddress (.abs base) s = base ∧ (s.resolve (.abs base)).1 = false ∧
    (effectiveAddress (.abx base) s).toNat = (base.toNat + s.x.toNat) % 65536 ∧
    ((s.resolve (.abx base)).1 = true ↔ (effectiveAddress (.abx base) s).toNat / 256 ≠ base.toNat / 256) ∧
    (effectiveAddress (.aby base) s).toNat = (base.toNat + s.y.toNat) % 65536 ∧
    ((s.resolve (.aby base)).1 = true ↔ (effectiveAddress (.aby base) s).toNat / 256 ≠ base.toNat / 256) ∧
    ∀ o ∈ [Operand.abs base, .abx base, .aby base], AgreeButLatches s (s.resolve o).2

/-- IND takes the high byte of EA from the start of the pointer page when the pointer ends in 0xFF, else from
the next address; IZX and IZY read both pointer bytes from page 0; IZY adds Y modulo 2^16 and reports a
crossing exactly if the page changes; low byte first. (41_addressing_modes.md R161, 41_addressing_modes.md
R162, 41_addressing_modes.md R163, 20_memory.md R66) -/
def Obligations.PointerModesReadTheirPointer : Prop :=
  (∀ (p : Addr) (s : State),
    let hi := BitVec.ofNat 16 (if p.toNat % 256 = 255 then p.toNat - 255 else p.toNat + 1)
    effectiveAddress (.ind p) s = word ((s.afterRead p).peek hi) (s.peek p) ∧
    (s.resolve (.ind p)).1 = false ∧
    (s.resolve (.ind p)).2.busLog = s.busLog ++ [.read p (s.peek p), .read hi ((s.afterRead p).peek hi)]) ∧
  (∀ (zp : Byte) (s : State),
    let lo := BitVec.ofNat 16 ((zp.toNat + s.x.toNat) % 256)
    let hi := BitVec.ofNat 16 ((zp.toNat + s.x.toNat + 1) % 256)
    effectiveAddress (.izx zp) s = word ((s.afterRead lo).peek hi) (s.peek lo) ∧
    (s.resolve (.izx zp)).1 = false ∧
    (s.resolve (.izx zp)).2.busLog = s.busLog ++ [.read lo (s.peek lo), .read hi ((s.afterRead lo).peek hi)]) ∧
  ∀ (zp : Byte) (s : State),
    let lo := BitVec.ofNat 16 zp.toNat
    let hi := BitVec.ofNat 16 ((zp.toNat + 1) % 256)
    let base := word ((s.afterRead lo).peek hi) (s.peek lo)
    (effectiveAddress (.izy zp) s).toNat = (base.toNat + s.y.toNat) % 65536 ∧
    ((s.resolve (.izy zp)).1 = true ↔ (effectiveAddress (.izy zp) s).toNat / 256 ≠ base.toNat / 256) ∧
    (s.resolve (.izy zp)).2.busLog = s.busLog ++ [.read lo (s.peek lo), .read hi ((s.afterRead lo).peek hi)]

/-- M is A in modes IMP and ACC, the immediate byte in IMM, and in every other mode the byte the bus answers at
EA after the resolver; REL puts the sign-extended displacement in addr_rel and reads nothing. (00_scope.md
R12, 40_execution_cycle.md R126, 41_addressing_modes.md R151, 41_addressing_modes.md R152,
41_addressing_modes.md R153, 41_addressing_modes.md R157) -/
def Obligations.OperandValuesByMode : Prop :=
  (∀ s : State, operandValue .imp s = s.a ∧ operandValue .acc s = s.a) ∧
  (∀ (v : Byte) (s : State), operandValue (.imm v) s = v) ∧
  (∀ (o : Operand) (s : State), o.mode.inMemory = true →
    operandValue o s = (s.resolve o).2.peek (effectiveAddress o s)) ∧
  (∀ (d : Byte) (s : State), (s.resolve (.rel d)).2.addrRel = d.signExtend 16) ∧
  ∀ (s : State) (b : Byte), ∀ o ∈ [Operand.imp, .acc, .imm b, .rel b],
    (s.resolve o).1 = false ∧ AgreeButLatches s (s.resolve o).2

/-- For every operand and state each load completes: its register becomes M, Z and N follow M, no other flag,
register or byte of memory changes; the opcode rows are those the rules encode. (R181, R182, R183) -/
def Obligations.LoadsWriteTheirRegister : Prop :=
  tableRows .lda = [
      (.izx, 0xA1, 6, false), (.zp0, 0xA5, 3, false), (.imm, 0xA9, 2, false), (.abs, 0xAD, 4, false),
      (.izy, 0xB1, 5, true), (.zpx, 0xB5, 4, false), (.aby, 0xB9, 4, true), (.abx, 0xBD, 4, true)] ∧
  tableRows .ldx = [
      (.imm, 0xA2, 2, false), (.zp0, 0xA6, 3, false), (.abs, 0xAE, 4, false), (.zpy, 0xB6, 4, false),
      (.aby, 0xBE, 4, true)] ∧
  tableRows .ldy = [
      (.imm, 0xA0, 2, false), (.zp0, 0xA4, 3, false), (.abs, 0xAC, 4, false), (.zpx, 0xB4, 4, false),
      (.abx, 0xBC, 4, true)] ∧
  ∀ (o : Operand) (s : State),
    (∃ t : State, exec (.lda o) s = .next t ∧ t.a = operandValue o s ∧ ZNOf (operandValue o s) t.p ∧
      FlagsUnchangedBut [.z, .n] s.p t.p ∧ UnchangedBut [.a, .p, .cycles, .deviceState, .busLog] s t) ∧
    (∃ t : State, exec (.ldx o) s = .next t ∧ t.x = operandValue o s ∧ ZNOf (operandValue o s) t.p ∧
      FlagsUnchangedBut [.z, .n] s.p t.p ∧ UnchangedBut [.x, .p, .cycles, .deviceState, .busLog] s t) ∧
    (∃ t : State, exec (.ldy o) s = .next t ∧ t.y = operandValue o s ∧ ZNOf (operandValue o s) t.p ∧
      FlagsUnchangedBut [.z, .n] s.p t.p ∧ UnchangedBut [.y, .p, .cycles, .deviceState, .busLog] s t)

/-- For every operand and state each store completes with one bus write of its register at EA after the
resolver: RAM holds the byte, a region that is not RAM keeps its byte, every other byte, every register and
every flag is unchanged; the opcode rows are those the rules encode. (R184, R185, R186) -/
def Obligations.StoresWriteOneByte : Prop :=
  tableRows .sta = [
      (.izx, 0x81, 6, false), (.zp0, 0x85, 3, false), (.abs, 0x8D, 4, false), (.izy, 0x91, 6, false),
      (.zpx, 0x95, 4, false), (.aby, 0x99, 5, false), (.abx, 0x9D, 5, false)] ∧
  tableRows .stx = [(.zp0, 0x86, 3, false), (.abs, 0x8E, 4, false), (.zpy, 0x96, 4, false)] ∧
  tableRows .sty = [(.zp0, 0x84, 3, false), (.abs, 0x8C, 4, false), (.zpx, 0x94, 4, false)] ∧
  ∀ (o : Operand) (s : State),
    (∃ t : State, exec (.sta o) s = .next t ∧ StoresByte s t (effectiveAddress o s) s.a ∧
      BytesUnchangedBut [effectiveAddress o s] s t ∧
      t.busLog = (s.resolve o).2.busLog ++ [.write (effectiveAddress o s) s.a] ∧
      UnchangedBut [.mem, .cycles, .deviceState, .busLog] s t) ∧
    (∃ t : State, exec (.stx o) s = .next t ∧ StoresByte s t (effectiveAddress o s) s.x ∧
      BytesUnchangedBut [effectiveAddress o s] s t ∧
      t.busLog = (s.resolve o).2.busLog ++ [.write (effectiveAddress o s) s.x] ∧
      UnchangedBut [.mem, .cycles, .deviceState, .busLog] s t) ∧
    (∃ t : State, exec (.sty o) s = .next t ∧ StoresByte s t (effectiveAddress o s) s.y ∧
      BytesUnchangedBut [effectiveAddress o s] s t ∧
      t.busLog = (s.resolve o).2.busLog ++ [.write (effectiveAddress o s) s.y] ∧
      UnchangedBut [.mem, .cycles, .deviceState, .busLog] s t)

/-- In every state each transfer completes: the target register becomes the source, Z and N follow it (TXS: no
flag changes), and nothing else changes; the opcode rows are those the rules encode. (R187, R188, R189,
R190, R191, R192) -/
def Obligations.TransfersCopyARegister : Prop :=
  tableRows .tax = [(.imp, 0xAA, 2, false)] ∧
  tableRows .tay = [(.imp, 0xA8, 2, false)] ∧
  tableRows .txa = [(.imp, 0x8A, 2, false)] ∧
  tableRows .tya = [(.imp, 0x98, 2, false)] ∧
  tableRows .tsx = [(.imp, 0xBA, 2, false)] ∧
  tableRows .txs = [(.imp, 0x9A, 2, false)] ∧
  ∀ s : State,
    (∃ t : State, exec .tax s = .next t ∧ t.x = s.a ∧ ZNOf s.a t.p ∧
      FlagsUnchangedBut [.z, .n] s.p t.p ∧ UnchangedBut [.x, .p, .cycles] s t) ∧
    (∃ t : State, exec .tay s = .next t ∧ t.y = s.a ∧ ZNOf s.a t.p ∧
      FlagsUnchangedBut [.z, .n] s.p t.p ∧ UnchangedBut [.y, .p, .cycles] s t) ∧
    (∃ t : State, exec .txa s = .next t ∧ t.a = s.x ∧ ZNOf s.x t.p ∧
      FlagsUnchangedBut [.z, .n] s.p t.p ∧ UnchangedBut [.a, .p, .cycles] s t) ∧
    (∃ t : State, exec .tya s = .next t ∧ t.a = s.y ∧ ZNOf s.y t.p ∧
      FlagsUnchangedBut [.z, .n] s.p t.p ∧ UnchangedBut [.a, .p, .cycles] s t) ∧
    (∃ t : State, exec .tsx s = .next t ∧ t.x = s.sp ∧ ZNOf s.sp t.p ∧
      FlagsUnchangedBut [.z, .n] s.p t.p ∧ UnchangedBut [.x, .p, .cycles] s t) ∧
    (∃ t : State, exec .txs s = .next t ∧ t.sp = s.x ∧ UnchangedBut [.sp, .cycles] s t)

/-- For every operand and state ADC completes: A becomes the sum of A, M and C modulo 256, C is set exactly if
the sum exceeds 255, Z if the result is 0, N is its bit 7, V is set exactly if A and M have the same bit 7
and the result another, which is exactly when the signed sum does not fit; nothing else changes. (R211) -/
def Obligations.AdcAddsWithCarry : Prop :=
  tableRows .adc = [
      (.izx, 0x61, 6, false), (.zp0, 0x65, 3, false), (.imm, 0x69, 2, false), (.abs, 0x6D, 4, false),
      (.izy, 0x71, 5, true), (.zpx, 0x75, 4, false), (.aby, 0x79, 4, true), (.abx, 0x7D, 4, true)] ∧
  ∀ (o : Operand) (s : State), ∃ t : State, exec (.adc o) s = .next t ∧
    (let m := operandValue o s
     let sum := s.a.toNat + m.toNat + (if s.flag .c then 1 else 0)
     t.a.toNat = sum % 256 ∧ t.flag .c = decide (255 < sum) ∧ ZNOf t.a t.p ∧
     t.flag .v = ((s.a.getLsbD 7 == m.getLsbD 7) && (t.a.getLsbD 7 != s.a.getLsbD 7)) ∧
     (t.flag .v = true ↔ t.a.toInt ≠ s.a.toInt + m.toInt + (if s.flag .c then 1 else 0))) ∧
    FlagsUnchangedBut [.c, .z, .v, .n] s.p t.p ∧ UnchangedBut [.a, .p, .cycles, .deviceState, .busLog] s t

/-- For every operand and state SBC completes: A becomes A - M - (1 - C) modulo 256, C is set exactly if A is at
least M + (1 - C) unsigned, V exactly if the signed difference does not fit, Z and N follow the result;
nothing else changes. (R212) -/
def Obligations.SbcSubtractsWithBorrow : Prop :=
  tableRows .sbc = [
      (.izx, 0xE1, 6, false), (.zp0, 0xE5, 3, false), (.imm, 0xE9, 2, false), (.abs, 0xED, 4, false),
      (.izy, 0xF1, 5, true), (.zpx, 0xF5, 4, false), (.aby, 0xF9, 4, true), (.abx, 0xFD, 4, true)] ∧
  ∀ (o : Operand) (s : State), ∃ t : State, exec (.sbc o) s = .next t ∧
    (let m := operandValue o s
     let borrow := if s.flag .c then 0 else 1
     t.a = s.a - m - BitVec.ofNat 8 borrow ∧ t.flag .c = decide (m.toNat + borrow ≤ s.a.toNat) ∧ ZNOf t.a t.p ∧
     (t.flag .v = true ↔ t.a.toInt ≠ s.a.toInt - m.toInt - borrow)) ∧
    FlagsUnchangedBut [.c, .z, .v, .n] s.p t.p ∧ UnchangedBut [.a, .p, .cycles, .deviceState, .busLog] s t

/-- For every operand and state each completes: A becomes A and M, A or M, A exclusive-or M, Z and N follow the
result, nothing else changes; the opcode rows are those the rules encode. (R213, R214, R215) -/
def Obligations.LogicCombinesIntoA : Prop :=
  tableRows .and = [
      (.izx, 0x21, 6, false), (.zp0, 0x25, 3, false), (.imm, 0x29, 2, false), (.abs, 0x2D, 4, false),
      (.izy, 0x31, 5, true), (.zpx, 0x35, 4, false), (.aby, 0x39, 4, true), (.abx, 0x3D, 4, true)] ∧
  tableRows .ora = [
      (.izx, 0x01, 6, false), (.zp0, 0x05, 3, false), (.imm, 0x09, 2, false), (.abs, 0x0D, 4, false),
      (.izy, 0x11, 5, true), (.zpx, 0x15, 4, false), (.aby, 0x19, 4, true), (.abx, 0x1D, 4, true)] ∧
  tableRows .eor = [
      (.izx, 0x41, 6, false), (.zp0, 0x45, 3, false), (.imm, 0x49, 2, false), (.abs, 0x4D, 4, false),
      (.izy, 0x51, 5, true), (.zpx, 0x55, 4, false), (.aby, 0x59, 4, true), (.abx, 0x5D, 4, true)] ∧
  ∀ (o : Operand) (s : State),
    (∃ t : State, exec (.and o) s = .next t ∧ t.a = s.a &&& operandValue o s ∧ ZNOf t.a t.p ∧
      FlagsUnchangedBut [.z, .n] s.p t.p ∧ UnchangedBut [.a, .p, .cycles, .deviceState, .busLog] s t) ∧
    (∃ t : State, exec (.ora o) s = .next t ∧ t.a = s.a ||| operandValue o s ∧ ZNOf t.a t.p ∧
      FlagsUnchangedBut [.z, .n] s.p t.p ∧ UnchangedBut [.a, .p, .cycles, .deviceState, .busLog] s t) ∧
    (∃ t : State, exec (.eor o) s = .next t ∧ t.a = s.a ^^^ operandValue o s ∧ ZNOf t.a t.p ∧
      FlagsUnchangedBut [.z, .n] s.p t.p ∧ UnchangedBut [.a, .p, .cycles, .deviceState, .busLog] s t)

/-- For every operand and state BIT completes: Z is set exactly if A and M have no common bit, N and V are bits
7 and 6 of M, and nothing else changes. (R216) -/
def Obligations.BitTestsTheOperand : Prop :=
  tableRows .bit = [(.zp0, 0x24, 3, false), (.abs, 0x2C, 4, false)] ∧
  ∀ (o : Operand) (s : State), ∃ t : State, exec (.bit o) s = .next t ∧
    t.flag .z = decide (s.a &&& operandValue o s = 0x00#8) ∧
    t.flag .n = (operandValue o s).getLsbD 7 ∧ t.flag .v = (operandValue o s).getLsbD 6 ∧
    FlagsUnchangedBut [.z, .n, .v] s.p t.p ∧ UnchangedBut [.p, .cycles, .deviceState, .busLog] s t

/-- For every operand and state each compare completes: C is set exactly if the register is at least M unsigned,
Z exactly if they are equal, N is bit 7 of the 8-bit difference; no register and nothing else changes; the
opcode rows are those the rules encode. (43_arithmetic_logic.md R217, 43_arithmetic_logic.md R218,
43_arithmetic_logic.md R219) -/
def Obligations.ComparesSetFlagsOnly : Prop :=
  tableRows .cmp = [
      (.izx, 0xC1, 6, false), (.zp0, 0xC5, 3, false), (.imm, 0xC9, 2, false), (.abs, 0xCD, 4, false),
      (.izy, 0xD1, 5, true), (.zpx, 0xD5, 4, false), (.aby, 0xD9, 4, true), (.abx, 0xDD, 4, true)] ∧
  tableRows .cpx = [(.imm, 0xE0, 2, false), (.zp0, 0xE4, 3, false), (.abs, 0xEC, 4, false)] ∧
  tableRows .cpy = [(.imm, 0xC0, 2, false), (.zp0, 0xC4, 3, false), (.abs, 0xCC, 4, false)] ∧
  ∀ (o : Operand) (s : State),
    (∃ t : State, exec (.cmp o) s = .next t ∧
      t.flag .c = decide ((operandValue o s).toNat ≤ s.a.toNat) ∧
      t.flag .z = decide (s.a = operandValue o s) ∧ t.flag .n = (s.a - operandValue o s).getLsbD 7 ∧
      FlagsUnchangedBut [.c, .z, .n] s.p t.p ∧ UnchangedBut [.p, .cycles, .deviceState, .busLog] s t) ∧
    (∃ t : State, exec (.cpx o) s = .next t ∧
      t.flag .c = decide ((operandValue o s).toNat ≤ s.x.toNat) ∧
      t.flag .z = decide (s.x = operandValue o s) ∧ t.flag .n = (s.x - operandValue o s).getLsbD 7 ∧
      FlagsUnchangedBut [.c, .z, .n] s.p t.p ∧ UnchangedBut [.p, .cycles, .deviceState, .busLog] s t) ∧
    (∃ t : State, exec (.cpy o) s = .next t ∧
      t.flag .c = decide ((operandValue o s).toNat ≤ s.y.toNat) ∧
      t.flag .z = decide (s.y = operandValue o s) ∧ t.flag .n = (s.y - operandValue o s).getLsbD 7 ∧
      FlagsUnchangedBut [.c, .z, .n] s.p t.p ∧ UnchangedBut [.p, .cycles, .deviceState, .busLog] s t)

/-- For every operand INC and DEC have, in every state, they complete: EA holds M + 1 or M - 1 modulo 256 if it
is RAM, the bus sees one read then one write of EA, Z and N follow the result, and nothing else changes; the
opcode rows are those the rules encode. (R220, R221) -/
def Obligations.IncDecStepAByte : Prop :=
  tableRows .inc = [
      (.zp0, 0xE6, 5, false), (.abs, 0xEE, 6, false), (.zpx, 0xF6, 6, false), (.abx, 0xFE, 7, false)] ∧
  tableRows .dec = [
      (.zp0, 0xC6, 5, false), (.abs, 0xCE, 6, false), (.zpx, 0xD6, 6, false), (.abx, 0xDE, 7, false)] ∧
  ∀ (o : Operand) (s : State),
    ((Instr.inc o).WellFormed → ∃ t : State, exec (.inc o) s = .next t ∧
      ModifiesTo o (operandValue o s + 1#8) s t ∧ ZNOf (operandValue o s + 1#8) t.p ∧
      FlagsUnchangedBut [.z, .n] s.p t.p) ∧
    ((Instr.dec o).WellFormed → ∃ t : State, exec (.dec o) s = .next t ∧
      ModifiesTo o (operandValue o s - 1#8) s t ∧ ZNOf (operandValue o s - 1#8) t.p ∧
      FlagsUnchangedBut [.z, .n] s.p t.p)

/-- In every state each completes: X or Y becomes one more or one less modulo 256, Z and N follow it, and
nothing else changes; the opcode rows are those the rules encode. (R222, R223, R224, R225) -/
def Obligations.IndexRegistersStepByOne : Prop :=
  tableRows .inx = [(.imp, 0xE8, 2, false)] ∧
  tableRows .iny = [(.imp, 0xC8, 2, false)] ∧
  tableRows .dex = [(.imp, 0xCA, 2, false)] ∧
  tableRows .dey = [(.imp, 0x88, 2, false)] ∧
  ∀ s : State,
    (∃ t : State, exec .inx s = .next t ∧ t.x = s.x + 1#8 ∧ ZNOf t.x t.p ∧
      FlagsUnchangedBut [.z, .n] s.p t.p ∧ UnchangedBut [.x, .p, .cycles] s t) ∧
    (∃ t : State, exec .iny s = .next t ∧ t.y = s.y + 1#8 ∧ ZNOf t.y t.p ∧
      FlagsUnchangedBut [.z, .n] s.p t.p ∧ UnchangedBut [.y, .p, .cycles] s t) ∧
    (∃ t : State, exec .dex s = .next t ∧ t.x = s.x - 1#8 ∧ ZNOf t.x t.p ∧
      FlagsUnchangedBut [.z, .n] s.p t.p ∧ UnchangedBut [.x, .p, .cycles] s t) ∧
    (∃ t : State, exec .dey s = .next t ∧ t.y = s.y - 1#8 ∧ ZNOf t.y t.p ∧
      FlagsUnchangedBut [.z, .n] s.p t.p ∧ UnchangedBut [.y, .p, .cycles] s t)

/-- For every operand ASL and LSR have, in every state, they complete: the result is 2 M modulo 256, or M
divided by 2, in A in mode ACC and else at EA by one read and one write; C is bit 7, or bit 0, of M; Z and N
follow the result; nothing else changes; the opcode rows are those the rules encode. (R251, R252) -/
def Obligations.ShiftsMoveOneBit : Prop :=
  tableRows .asl = [
      (.zp0, 0x06, 5, false), (.acc, 0x0A, 2, false), (.abs, 0x0E, 6, false), (.zpx, 0x16, 6, false),
      (.abx, 0x1E, 7, false)] ∧
  tableRows .lsr = [
      (.zp0, 0x46, 5, false), (.acc, 0x4A, 2, false), (.abs, 0x4E, 6, false), (.zpx, 0x56, 6, false),
      (.abx, 0x5E, 7, false)] ∧
  ∀ (o : Operand) (s : State),
    ((Instr.asl o).WellFormed → ∃ t : State, exec (.asl o) s = .next t ∧
      (let m := (operandValue o s).toNat
       let r := BitVec.ofNat 8 (2 * m)
       ModifiesTo o r s t ∧ ZNOf r t.p) ∧
      t.flag .c = (operandValue o s).getLsbD 7 ∧ FlagsUnchangedBut [.c, .z, .n] s.p t.p) ∧
    ((Instr.lsr o).WellFormed → ∃ t : State, exec (.lsr o) s = .next t ∧
      (let m := (operandValue o s).toNat
       let r := BitVec.ofNat 8 (m / 2)
       ModifiesTo o r s t ∧ ZNOf r t.p) ∧
      t.flag .c = (operandValue o s).getLsbD 0 ∧ FlagsUnchangedBut [.c, .z, .n] s.p t.p)

/-- For every operand ROL and ROR have, in every state, they complete: the result is 2 M + C modulo 256, or M
divided by 2 plus 128 C, in A in mode ACC and else at EA by one read and one write; C is bit 7, or bit 0, of
M; Z and N follow the result; nothing else changes; the opcode rows are those the rules encode. (R253, R254) -/
def Obligations.RotatesGoThroughCarry : Prop :=
  tableRows .rol = [
      (.zp0, 0x26, 5, false), (.acc, 0x2A, 2, false), (.abs, 0x2E, 6, false), (.zpx, 0x36, 6, false),
      (.abx, 0x3E, 7, false)] ∧
  tableRows .ror = [
      (.zp0, 0x66, 5, false), (.acc, 0x6A, 2, false), (.abs, 0x6E, 6, false), (.zpx, 0x76, 6, false),
      (.abx, 0x7E, 7, false)] ∧
  ∀ (o : Operand) (s : State),
    ((Instr.rol o).WellFormed → ∃ t : State, exec (.rol o) s = .next t ∧
      (let m := (operandValue o s).toNat
       let r := BitVec.ofNat 8 (2 * m + (if s.flag .c then 1 else 0))
       ModifiesTo o r s t ∧ ZNOf r t.p) ∧
      t.flag .c = (operandValue o s).getLsbD 7 ∧ FlagsUnchangedBut [.c, .z, .n] s.p t.p) ∧
    ((Instr.ror o).WellFormed → ∃ t : State, exec (.ror o) s = .next t ∧
      (let m := (operandValue o s).toNat
       let r := BitVec.ofNat 8 (m / 2 + (if s.flag .c then 128 else 0))
       ModifiesTo o r s t ∧ ZNOf r t.p) ∧
      t.flag .c = (operandValue o s).getLsbD 0 ∧ FlagsUnchangedBut [.c, .z, .n] s.p t.p)

/-- For every displacement and state each branch completes: if its flag has its value PC becomes PC past the
displacement byte plus the sign-extended displacement modulo 2^16, at cost 3 in the same page and 4 across,
else PC stays there at cost 2; no flag and nothing else changes; the opcode rows are those the rules encode.
(R270, R271, R272, R273, R274, R275, R276, R277, R278) -/
def Obligations.BranchesFollowTheirFlag : Prop :=
  tableRows .bcc = [(.rel, 0x90, 2, false)] ∧
  tableRows .bcs = [(.rel, 0xB0, 2, false)] ∧
  tableRows .beq = [(.rel, 0xF0, 2, false)] ∧
  tableRows .bmi = [(.rel, 0x30, 2, false)] ∧
  tableRows .bne = [(.rel, 0xD0, 2, false)] ∧
  tableRows .bpl = [(.rel, 0x10, 2, false)] ∧
  tableRows .bvc = [(.rel, 0x50, 2, false)] ∧
  tableRows .bvs = [(.rel, 0x70, 2, false)] ∧
  ∀ (d : Byte) (s : State),
    (∃ t : State, exec (.bcc d) s = .next t ∧ BranchesIf (!s.flag .c) d s t) ∧
    (∃ t : State, exec (.bcs d) s = .next t ∧ BranchesIf (s.flag .c) d s t) ∧
    (∃ t : State, exec (.beq d) s = .next t ∧ BranchesIf (s.flag .z) d s t) ∧
    (∃ t : State, exec (.bmi d) s = .next t ∧ BranchesIf (s.flag .n) d s t) ∧
    (∃ t : State, exec (.bne d) s = .next t ∧ BranchesIf (!s.flag .z) d s t) ∧
    (∃ t : State, exec (.bpl d) s = .next t ∧ BranchesIf (!s.flag .n) d s t) ∧
    (∃ t : State, exec (.bvc d) s = .next t ∧ BranchesIf (!s.flag .v) d s t) ∧
    (∃ t : State, exec (.bvs d) s = .next t ∧ BranchesIf (s.flag .v) d s t)

/-- For every operand and state JMP completes: PC becomes EA; no flag, register or byte of memory changes; `JMP`
through a pointer that ends in 0xFF takes the high byte from the start of the pointer page; the opcode rows
are those the rule encodes. (R279) -/
def Obligations.JumpGoesToItsAddress : Prop :=
  tableRows .jmp = [(.abs, 0x4C, 3, false), (.ind, 0x6C, 5, false)] ∧
  (∀ (o : Operand) (s : State), ∃ t : State, exec (.jmp o) s = .next t ∧ t.pc = effectiveAddress o s ∧
    UnchangedBut [.pc, .cycles, .deviceState, .busLog] s t) ∧
  ∀ (hi : Byte) (s : State), ∃ t : State, exec (.jmp (.ind (word hi 0xFF#8))) s = .next t ∧
    t.pc = word ((s.afterRead (word hi 0xFF#8)).peek (word hi 0x00#8)) (s.peek (word hi 0xFF#8))

/-- In every state JSR completes: with PC past its bytes, the word PC - 1 is pushed high byte first at SP and
then SP - 1 modulo 256, SP falls by 2, PC becomes the operand; no flag and nothing else changes; the opcode
row is the one the rule encodes. (R280) -/
def Obligations.JsrPushesItsLastByte : Prop :=
  tableRows .jsr = [(.abs, 0x20, 6, false)] ∧
  ∀ (a : Addr) (s : State), ∃ t : State, exec (.jsr a) s = .next t ∧
    t.pc = a ∧ t.sp = s.sp - 2#8 ∧
    StoresByte s t (stackAddr s.sp) (page (s.pc - 1#16)) ∧
    StoresByte s t (stackAddr (s.sp - 1#8)) (lowByte (s.pc - 1#16)) ∧
    BytesUnchangedBut [stackAddr s.sp, stackAddr (s.sp - 1#8)] s t ∧
    t.busLog = s.busLog ++ [.write (stackAddr s.sp) (page (s.pc - 1#16)),
      .write (stackAddr (s.sp - 1#8)) (lowByte (s.pc - 1#16))] ∧
    UnchangedBut [.pc, .sp, .mem, .cycles, .deviceState, .busLog] s t

/-- In every state RTS completes: the bytes at SP + 1 and SP + 2 modulo 256 are read in that order, PC becomes
their word plus 1 modulo 2^16, SP rises by 2; no flag, byte of memory or anything else changes; the opcode
row is the one the rule encodes. (R281) -/
def Obligations.RtsReturnsPastThePulledAddress : Prop :=
  tableRows .rts = [(.imp, 0x60, 6, false)] ∧
  ∀ s : State, ∃ t : State, exec .rts s = .next t ∧
    (let low := stackAddr (s.sp + 1#8)
     let high := stackAddr (s.sp + 2#8)
     t.pc = word ((s.afterRead low).peek high) (s.peek low) + 1#16 ∧
     t.busLog = s.busLog ++ [.read low (s.peek low), .read high ((s.afterRead low).peek high)]) ∧
    t.sp = s.sp + 2#8 ∧ UnchangedBut [.pc, .sp, .cycles, .deviceState, .busLog] s t

/-- In every state each push completes: one write at 0x0100 + SP, of A for PHA and of P or 0x30 for PHP, then SP
falls by 1 modulo 256; no flag and nothing else changes; the opcode rows are those the rules encode. (R301,
R302) -/
def Obligations.PushesStoreAOrStatus : Prop :=
  tableRows .pha = [(.imp, 0x48, 3, false)] ∧
  tableRows .php = [(.imp, 0x08, 3, false)] ∧
  ∀ s : State,
    (∃ t : State, exec .pha s = .next t ∧ StoresByte s t (stackAddr s.sp) (s.a) ∧
      BytesUnchangedBut [stackAddr s.sp] s t ∧ t.busLog = s.busLog ++ [.write (stackAddr s.sp) (s.a)] ∧
      t.sp = s.sp - 1#8 ∧ UnchangedBut [.sp, .mem, .cycles, .deviceState, .busLog] s t) ∧
    (∃ t : State, exec .php s = .next t ∧ StoresByte s t (stackAddr s.sp) (s.p ||| 0x30#8) ∧
      BytesUnchangedBut [stackAddr s.sp] s t ∧ t.busLog = s.busLog ++ [.write (stackAddr s.sp) (s.p ||| 0x30#8)] ∧
      t.sp = s.sp - 1#8 ∧ UnchangedBut [.sp, .mem, .cycles, .deviceState, .busLog] s t)

/-- In every state each pull completes: SP rises by 1 modulo 256 and the byte at 0x0100 + SP is read; PLA puts
it in A and sets Z and N from it; PLP puts its bits C, Z, I, D, V and N in P with U set and B clear; nothing
else changes; the opcode rows are those the rules encode. (R303, R304) -/
def Obligations.PullsLoadAOrStatus : Prop :=
  tableRows .pla = [(.imp, 0x68, 4, false)] ∧
  tableRows .plp = [(.imp, 0x28, 4, false)] ∧
  ∀ s : State,
    (∃ t : State, exec .pla s = .next t ∧ t.a = s.peek (stackAddr (s.sp + 1#8)) ∧ ZNOf t.a t.p ∧
      FlagsUnchangedBut [.z, .n] s.p t.p ∧ t.sp = s.sp + 1#8 ∧
      UnchangedBut [.a, .p, .sp, .cycles, .deviceState, .busLog] s t) ∧
    (∃ t : State, exec .plp s = .next t ∧
      t.p = (s.peek (stackAddr (s.sp + 1#8)) ||| 0x20#8) &&& 0xEF#8 ∧
      t.flag .u = true ∧ t.flag .b = false ∧
      FlagsUnchangedBut [.u, .b] (s.peek (stackAddr (s.sp + 1#8))) t.p ∧
      t.sp = s.sp + 1#8 ∧ UnchangedBut [.p, .sp, .cycles, .deviceState, .busLog] s t)

/-- In every state each completes with its flag cleared or set, every other flag and everything else unchanged;
the opcode rows are those the rules encode. (46_stack_flags_system.md R305, 46_stack_flags_system.md R306,
46_stack_flags_system.md R307, 46_stack_flags_system.md R308, 46_stack_flags_system.md R309,
46_stack_flags_system.md R310, 46_stack_flags_system.md R311) -/
def Obligations.FlagInstructionsWriteOneFlag : Prop :=
  tableRows .clc = [(.imp, 0x18, 2, false)] ∧
  tableRows .cld = [(.imp, 0xD8, 2, false)] ∧
  tableRows .cli = [(.imp, 0x58, 2, false)] ∧
  tableRows .clv = [(.imp, 0xB8, 2, false)] ∧
  tableRows .sec = [(.imp, 0x38, 2, false)] ∧
  tableRows .sed = [(.imp, 0xF8, 2, false)] ∧
  tableRows .sei = [(.imp, 0x78, 2, false)] ∧
  ∀ s : State,
    (∃ t : State, exec .clc s = .next t ∧ t.flag .c = false ∧ FlagsUnchangedBut [.c] s.p t.p ∧
      UnchangedBut [.p, .cycles] s t) ∧
    (∃ t : State, exec .cld s = .next t ∧ t.flag .d = false ∧ FlagsUnchangedBut [.d] s.p t.p ∧
      UnchangedBut [.p, .cycles] s t) ∧
    (∃ t : State, exec .cli s = .next t ∧ t.flag .i = false ∧ FlagsUnchangedBut [.i] s.p t.p ∧
      UnchangedBut [.p, .cycles] s t) ∧
    (∃ t : State, exec .clv s = .next t ∧ t.flag .v = false ∧ FlagsUnchangedBut [.v] s.p t.p ∧
      UnchangedBut [.p, .cycles] s t) ∧
    (∃ t : State, exec .sec s = .next t ∧ t.flag .c = true ∧ FlagsUnchangedBut [.c] s.p t.p ∧
      UnchangedBut [.p, .cycles] s t) ∧
    (∃ t : State, exec .sed s = .next t ∧ t.flag .d = true ∧ FlagsUnchangedBut [.d] s.p t.p ∧
      UnchangedBut [.p, .cycles] s t) ∧
    (∃ t : State, exec .sei s = .next t ∧ t.flag .i = true ∧ FlagsUnchangedBut [.i] s.p t.p ∧
      UnchangedBut [.p, .cycles] s t)

/-- In every state, whatever I is, BRK completes: with PC past the opcode, PC + 1 is pushed high byte first,
then P or 0x30, at SP, SP - 1 and SP - 2 modulo 256; I is set and no other flag changes; PC is loaded from
0xFFFE and 0xFFFF; A, X and Y and everything else are unchanged; the opcode row is the one the rule encodes.
(R312) -/
def Obligations.BrkEntersThroughTheIrqVector : Prop :=
  tableRows .brk = [(.imp, 0x00, 7, false)] ∧
  ∀ s : State, ∃ t : State, exec .brk s = .next t ∧
    EntersWith 0xFFFE#16 (s.pc + 1#16) (s.p ||| 0x30#8) s t ∧
    UnchangedBut [.pc, .sp, .p, .mem, .cycles, .deviceState, .busLog] s t

/-- In every state RTI completes: P is the byte at SP + 1 with U set and B clear, PC the word of the bytes at SP
+ 2 and SP + 3 modulo 256, read in that order, SP rises by 3; A, X, Y and everything else are unchanged; the
opcode row is the one the rule encodes. (R313) -/
def Obligations.RtiRestoresStatusThenPc : Prop :=
  tableRows .rti = [(.imp, 0x40, 6, false)] ∧
  ∀ s : State, ∃ t : State, exec .rti s = .next t ∧
    (let first := stackAddr (s.sp + 1#8)
     let low := stackAddr (s.sp + 2#8)
     let high := stackAddr (s.sp + 3#8)
     let lo := (s.afterRead first).peek low
     let hi := ((s.afterRead first).afterRead low).peek high
     t.p = (s.peek first ||| 0x20#8) &&& 0xEF#8 ∧ t.pc = word hi lo ∧
     t.busLog = s.busLog ++ [.read first (s.peek first), .read low lo, .read high hi]) ∧
    t.sp = s.sp + 3#8 ∧ UnchangedBut [.pc, .sp, .p, .cycles, .deviceState, .busLog] s t

/-- In every state NOP, and ILL with every byte, complete with nothing but the Fetched latch, now A, and the
countdown, now 2, changed; a tick that finds one of their bytes at PC makes the opcode read as its only bus
access, leaves PC one past it and changes no register, flag or byte; the opcode rows are those the rules
encode. (R314, R315) -/
def Obligations.NopAndIllChangeNothing : Prop :=
  tableRows .nop = [(.imp, 0xEA, 2, false)] ∧
  (∀ op ∈ undocumented, entry op = ⟨.ill, .imp, 2, false⟩ ∧ decode [op] = .ok (.ill op, [])) ∧
  (∀ s : State, exec .nop s = .next { s with fetched := s.a, cycles := 2 }) ∧
  (∀ (op : Byte) (s : State), exec (.ill op) s = .next { s with fetched := s.a, cycles := 2 }) ∧
  ∀ s : State, s.power = .running → s.cycles = 0 → s.nmiPending = false → s.irqPending = false →
    s.peek s.pc ∈ 0xEA#8 :: undocumented →
    ∃ t : State, step s = .next t ∧ t.pc = s.pc + 1#16 ∧ t.cycles = 1 ∧ t.totalCycles = s.totalCycles + 1#64 ∧
      t.busLog = [.read s.pc (s.peek s.pc)] ∧ UnchangedBut [.pc, .cycles, .totalCycles, .deviceState, .busLog] s t

/-- Whatever instruction completes, every flag outside the list its mnemonic has in the flag rules (C: ADC SBC,
compares, shifts, CLC SEC, PLP RTI; V: ADC SBC BIT CLV PLP RTI; I: SEI CLI BRK PLP RTI; D: SED CLD PLP RTI;
Z and N: results, compares, BIT, PLP RTI) is unchanged. (10_state.md R38, 10_state.md R39, 10_state.md R40,
10_state.md R41, 10_state.md R44, 10_state.md R45) -/
def Obligations.OnlyTheirInstructionsWriteAFlag : Prop :=
  ∀ (i : Instr) (s t : State), exec i s = .next t → FlagsUnchangedBut (flagsWritten i.mnemonic) s.p t.p

/-- Whatever well-formed instruction completes, each of A, X, Y and SP outside the list its mnemonic and mode
have is unchanged, and total_cycles, both pending latches, the power state and the bus map are unchanged.
(10_state.md R31, 10_state.md R32, 10_state.md R33, 10_state.md R35, 10_state.md R52, 10_state.md R53) -/
def Obligations.OnlyTheirInstructionsWriteARegister : Prop :=
  ∀ (i : Instr) (s t : State), i.WellFormed → exec i s = .next t →
    (∀ q ∈ [Part.a, .x, .y, .sp], q ∉ registersWritten i.mnemonic i.operand.mode → q.Same s t) ∧
    ∀ q ∈ [Part.totalCycles, .nmiPending, .irqPending, .power, .regions], q.Same s t

/-- Whatever well-formed instruction completes, every byte outside the computed list of its stored addresses (EA
of a store or a read-modify-write, the stack bytes of a push, JSR or BRK, none otherwise) reads as before.
(20_memory.md R68, 40_execution_cycle.md R127, 46_stack_flags_system.md R300) -/
def Obligations.OnlyStoredBytesChange : Prop :=
  ∀ (i : Instr) (s t : State), i.WellFormed → exec i s = .next t →
    BytesUnchangedBut (storedAddresses i s) s t

/-- A tick that executes an instruction other than JMP, JSR, RTS, RTI, BRK or a branch leaves PC at the opcode
address plus the instruction length, modulo 2^16. (40_execution_cycle.md R133, 10_state.md R34) -/
def Obligations.PcAdvancesByTheLength : Prop :=
  ∀ s : State, s.power = .running → s.cycles = 0 → s.nmiPending = false → s.irqPending = false →
    transfersControl s.clearLog.fetchInstr.1.mnemonic = false →
    ∃ t : State, step s = .next t ∧ t.pc = s.pc + BitVec.ofNat 16 s.clearLog.fetchInstr.1.length

/-- For every well-formed instruction and state, exec completes with the countdown at the cost the timing table
gives its class in its mode, one more in the cells marked + when the indexed address crosses a page, plus
for a taken branch 1, or 2 across a page; the cost is 2 to 7. (40_execution_cycle.md R128,
40_execution_cycle.md R129, 70_reset_and_hazards.md R392) -/
def Obligations.CostFollowsTheTimingTable : Prop :=
  ∀ (i : Instr) (s : State), i.WellFormed → ∃ (t : State) (c : Nat), exec i s = .next t ∧
    classCost (s.resolve i.operand).1 (timingClass i.mnemonic) i.operand.mode = some c ∧
    t.cycles = c + branchExtra i s ∧ 2 ≤ t.cycles ∧ t.cycles ≤ 7

/-- For every operand and state, ADC and SBC with D set either way leave the same A and the same flags but D,
which stays as it was set. (43_arithmetic_logic.md R210, 10_state.md R41) -/
def Obligations.DecimalFlagIsInert : Prop :=
  ∀ (o : Operand) (s : State) (d : Bool), ∀ i ∈ [Instr.adc o, Instr.sbc o], ∃ t u : State,
    exec i s = .next t ∧ exec i (s.setFlagTo .d d) = .next u ∧
    u.a = t.a ∧ FlagsUnchangedBut [.d] t.p u.p ∧ u.flag .d = d

/-- For every state and byte b: after ADC of b with carry c, setting C to 1 - c and executing SBC of b leaves A
as it was before the ADC. (43_arithmetic_logic.md R226, 90_conflicts.md C12) -/
def Obligations.AdcThenSbcRecoversA : Prop :=
  ∀ (b : Byte) (s : State), ∃ t u : State, exec (.adc (.imm b)) s = .next t ∧
    exec (.sbc (.imm b)) (t.setFlagTo .c (!s.flag .c)) = .next u ∧ u.a = s.a

/-- When the core is running at an instruction boundary with nothing pending and the n bytes the bus answers
from PC on decode to an instruction with none left over, that instruction is well-formed of length n, and
the step is exec of it in the state with PC past its bytes, with one cycle of its cost and one tick counted;
the fetch changes only PC and the bus fields; off the devices those bytes are the bytes held in memory at
PC, PC + 1, and so on. (40_execution_cycle.md R120, 40_execution_cycle.md R121, 40_execution_cycle.md R122,
30_encoding.md R90) -/
def Obligations.StepRunsTheDecodedInstruction : Prop :=
  ∀ (s : State) (n : Nat) (i : Instr),
    s.power = .running → s.cycles = 0 → s.nmiPending = false → s.irqPending = false →
    decode (State.fetchBytes n s.clearLog).1 = .ok (i, []) →
    let f := (State.fetchBytes n s.clearLog).2
    i.WellFormed ∧ i.length = n ∧ f.pc = s.pc + BitVec.ofNat 16 n ∧
    UnchangedBut [.pc, .deviceState, .busLog] s f ∧
    (∃ t : State, exec i f = .next t ∧
      step s = .next { t with cycles := t.cycles - 1, totalCycles := t.totalCycles + 1#64 }) ∧
    ((∀ k < n, s.kindAt (s.pc + BitVec.ofNat 16 k) ≠ .device) →
      (State.fetchBytes n s.clearLog).1 =
        (List.range n).map fun k => Memory.read s.mem (s.pc + BitVec.ofNat 16 k).toNat)

/-- In every running state step answers a next state, still running, with total_cycles one more modulo 2^64; at
a boundary with nothing pending some 1, 2 or 3 bytes at PC decode to an instruction with none left over.
(00_scope.md R11, 60_exceptions.md R340, 40_execution_cycle.md R130) -/
def Obligations.StepNeverFails : Prop :=
  ∀ s : State, s.power = .running →
    (∃ t : State, step s = .next t ∧ t.power = .running ∧ t.totalCycles = s.totalCycles + 1#64) ∧
    ∃ (n : Nat) (i : Instr), 1 ≤ n ∧ n ≤ 3 ∧ decode (State.fetchBytes n s.clearLog).1 = .ok (i, [])

/-- From a running boundary with nothing pending there is a cost c from 2 to 7: the first step leaves c - 1
cycles, and each of the next c - 1 steps changes only the countdown, the tick count and the record of bus
calls, which is then empty; the countdown is 0 after exactly c steps. (40_execution_cycle.md R121,
40_execution_cycle.md R129, 40_execution_cycle.md R132) -/
def Obligations.InstructionOccupiesItsCost : Prop :=
  ∀ s : State, s.power = .running → s.cycles = 0 → s.nmiPending = false → s.irqPending = false →
    ∃ (c : Nat) (t : State), 2 ≤ c ∧ c ≤ 7 ∧ step s = .next t ∧ t.cycles = c - 1 ∧
      ∀ k < c, Host.Core.run Sys2Proof.core (k + 1) s = .next
        { t with
          cycles := c - 1 - k
          totalCycles := t.totalCycles + BitVec.ofNat 64 k
          busLog := if k = 0 then t.busLog else [] }

/-- From any state reset leaves A, X, Y 0, SP 0xFD, P 0x20, the latches 0, cycles 8, nothing pending, running,
PC the word read at 0xFFFC then 0xFFFD; it makes exactly those two reads, writes nothing and keeps
total_cycles. (R380) -/
def Obligations.ResetLoadsItsValues : Prop :=
  ∀ s : State,
    let t := reset s
    t.a = 0x00#8 ∧ t.x = 0x00#8 ∧ t.y = 0x00#8 ∧ t.sp = 0xFD#8 ∧ t.p = 0x20#8 ∧
    t.pc = word ((s.afterRead 0xFFFC#16).peek 0xFFFD#16) (s.peek 0xFFFC#16) ∧
    t.fetched = 0x00#8 ∧ t.addrAbs = 0x0000#16 ∧ t.addrRel = 0x0000#16 ∧ t.addrTemp = 0x0000#16 ∧
    t.cycles = 8 ∧ t.nmiPending = false ∧ t.irqPending = false ∧ t.power = .running ∧
    t.busLog = [.read 0xFFFC#16 (s.peek 0xFFFC#16), .read 0xFFFD#16 ((s.afterRead 0xFFFC#16).peek 0xFFFD#16)] ∧
    t.mem = s.mem ∧ t.regions = s.regions ∧ t.totalCycles = s.totalCycles

/-- After reset, for k up to 8, k steps leave the reset state with cycles 8 - k and k more ticks counted;
complete() is then false for k below 8 and true for k = 8; the ninth step fetches at the reset-vector
address. (70_reset_and_hazards.md R381, 40_execution_cycle.md R134) -/
def Obligations.ResetCountdownHoldsTheFirstFetch : Prop :=
  ∀ s : State,
    (∀ k ≤ 8, Host.Core.run Sys2Proof.core k (reset s) = .next
      { reset s with
        cycles := 8 - k
        totalCycles := s.totalCycles + BitVec.ofNat 64 k
        busLog := if k = 0 then (reset s).busLog else [] }) ∧
    (∀ k ≤ 8, ∀ t : State, Host.Core.run Sys2Proof.core k (reset s) = .next t → complete t = decide (k = 8)) ∧
    ∃ t u : State, Host.Core.run Sys2Proof.core 8 (reset s) = .next t ∧ step t = .next u ∧
      u.busLog.head? = some (.read (reset s).pc (t.peek (reset s).pc))

/-- MODEL CHOICE in its values from an empty bus (log entries 1 to 5): for any unspecified contents with nothing
listed on the bus, no region and the devices in state 0, reset() after new() is State.reset; State.reset
meets the invariant. (10_state.md R57, notes/assumptions/3.md) -/
def Obligations.ResetStateMeetsTheInvariant : Prop :=
  (∀ u : State, u.mem = [] → u.regions = [] → u.deviceState = 0 → reset (construct u) = State.reset) ∧
  State.reset.Inv

/-- From every state that meets the invariant (memory in canonical form; once running, live B is 0, live U is 1
and the countdown is at most 8), a step that answers a next state leaves one that meets it. (10_state.md
R42, 10_state.md R43, 10_state.md R51, 20_memory.md R60) -/
def Obligations.EveryStepKeepsTheInvariant : Prop :=
  ∀ s t : State, s.Inv → step s = .next t → t.Inv

/-- From every state that meets the invariant, any sequence of step, reset, irq, nmi, stores by the surrounding
machine, remappings of the bus and moves of the devices leaves a state that meets it; so after new() and any
such sequence the accessor of P reads bit 4 as 0 and bit 5 as 1 once the core is running. (10_state.md R42,
10_state.md R43, 10_state.md R56, 20_memory.md R71) -/
def Obligations.EveryHostRunKeepsTheInvariant : Prop :=
  (∀ (ops : List HostOp) (s t : State), s.Inv → HostOp.runAll ops s = .next t → t.Inv) ∧
  ∀ (ops : List HostOp) (u t : State), Memory.wf u.mem = true → HostOp.runAll ops (construct u) = .next t →
    t.power = .running → (observe t).p.getLsbD 4 = false ∧ (observe t).p.getLsbD 5 = true

/-- From two states that differ only in Fetched, addr_abs, addr_rel and addr_temp, every host operation, a step
among them, has outcomes that differ only in those latches. (10_state.md R49, 10_state.md R50,
92_eei_decisions.md D17) -/
def Obligations.LatchesNeverReadBeforeWritten : Prop :=
  ∀ (op : HostOp) (s t : State), AgreeButLatches s t → OutcomesAgreeButLatches (op.run s) (op.run t)

/-- new() leaves the core powered off with total_cycles 0 and nothing pending; in that power state step, irq and
nmi are refused by name; reset leaves it running. (60_exceptions.md R360, 10_state.md R54,
92_eei_decisions.md D14) -/
def Obligations.PoweredOffRefusesAllButReset : Prop :=
  (∀ u : State, (construct u).power = .poweredOff ∧ (construct u).totalCycles = 0#64 ∧
    (construct u).nmiPending = false ∧ (construct u).irqPending = false) ∧
  ∀ s : State, s.power = .poweredOff →
    step s = .refused .poweredOff ∧ irq s = .refused .poweredOff ∧ nmi s = .refused .poweredOff ∧
    (reset s).power = .running

/-- In a running state irq() with cycles not 0 only sets irq_pending; at a boundary with I set it changes
nothing; at a boundary with I clear it enters through 0xFFFE with the return address PC and the status byte
with B clear and U set, sets cycles to 7 or 8, consumes no tick, and changes nothing else. (R341) -/
def Obligations.IrqCallByBoundaryAndMask : Prop :=
  ∀ s : State, s.power = .running →
    (s.cycles ≠ 0 → ∃ t : State, irq s = .next t ∧ t.irqPending = true ∧
      UnchangedBut [.irqPending, .busLog] s t) ∧
    (s.cycles = 0 → s.flag .i = true → ∃ t : State, irq s = .next t ∧ UnchangedBut [.busLog] s t) ∧
    (s.cycles = 0 → s.flag .i = false → ∃ t : State, irq s = .next t ∧
      EntersWith 0xFFFE#16 s.pc ((s.p &&& 0xEF#8) ||| 0x20#8) s.clearLog t ∧
      (t.cycles = 7 ∨ t.cycles = 8) ∧ UnchangedBut [.pc, .sp, .p, .mem, .cycles, .deviceState, .busLog] s t)

/-- In a running state nmi() with cycles not 0 only sets nmi_pending; at a boundary it enters through 0xFFFA
whatever I is, with the return address PC and the status byte with B clear and U set, sets cycles to 7 or 8,
consumes no tick, and changes nothing else. (60_exceptions.md R342, 60_exceptions.md R348, 60_exceptions.md
R353) -/
def Obligations.NmiCallIsNeverMasked : Prop :=
  ∀ s : State, s.power = .running →
    (s.cycles ≠ 0 → ∃ t : State, nmi s = .next t ∧ t.nmiPending = true ∧
      UnchangedBut [.nmiPending, .busLog] s t) ∧
    (s.cycles = 0 → ∃ t : State, nmi s = .next t ∧
      EntersWith 0xFFFA#16 s.pc ((s.p &&& 0xEF#8) ||| 0x20#8) s.clearLog t ∧
      (t.cycles = 7 ∨ t.cycles = 8) ∧ UnchangedBut [.pc, .sp, .p, .mem, .cycles, .deviceState, .busLog] s t)

/-- At a running boundary: a pending NMI is entered through 0xFFFA and cleared, irq_pending kept; else a pending
IRQ with I clear is entered through 0xFFFE and cleared; else a pending IRQ with I set is cleared and the
same step runs the next instruction; the entry tick counts as one of the 7 or 8. (60_exceptions.md R344,
60_exceptions.md R345, 40_execution_cycle.md R120) -/
def Obligations.PendingServicedAtTheBoundary : Prop :=
  ∀ s : State, s.power = .running → s.cycles = 0 →
    (s.nmiPending = true → ∃ t : State, step s = .next t ∧ t.nmiPending = false ∧
      EntersWith 0xFFFA#16 s.pc ((s.p &&& 0xEF#8) ||| 0x20#8) s.clearLog t ∧
      (t.cycles = 6 ∨ t.cycles = 7) ∧ t.totalCycles = s.totalCycles + 1#64 ∧
      UnchangedBut [.pc, .sp, .p, .mem, .nmiPending, .totalCycles, .cycles, .deviceState, .busLog] s t) ∧
    (s.nmiPending = false → s.irqPending = true → s.flag .i = false → ∃ t : State, step s = .next t ∧
      t.irqPending = false ∧ EntersWith 0xFFFE#16 s.pc ((s.p &&& 0xEF#8) ||| 0x20#8) s.clearLog t ∧
      (t.cycles = 6 ∨ t.cycles = 7) ∧ t.totalCycles = s.totalCycles + 1#64 ∧
      UnchangedBut [.pc, .sp, .p, .mem, .irqPending, .totalCycles, .cycles, .deviceState, .busLog] s t) ∧
    (s.nmiPending = false → s.irqPending = true → s.flag .i = true →
      step s = step { s with irqPending := false })

/-- From a running boundary with both latches set, the NMI entry and its 6 or 7 idle ticks leave a boundary with
irq_pending still set and I set, and the next step drops the request: it is the step of the same state
without it. (60_exceptions.md R344) -/
def Obligations.IrqLatchedWithNmiIsLost : Prop :=
  ∀ s : State, s.power = .running → s.cycles = 0 → s.nmiPending = true → s.irqPending = true →
    ∃ (k : Nat) (u : State), (k = 7 ∨ k = 8) ∧ Host.Core.run Sys2Proof.core k s = .next u ∧
      u.cycles = 0 ∧ u.nmiPending = false ∧ u.irqPending = true ∧ u.flag .i = true ∧
      step u = step { u with irqPending := false }

/-- When irq() is called with cycles = k, k at least 1, I clear and no NMI pending, the next k steps bring
cycles to 0 with PC unchanged, and the next step enters through 0xFFFE with that PC as return address.
(70_reset_and_hazards.md R390, 60_exceptions.md R350) -/
def Obligations.IrqLatencyIsTheCountdown : Prop :=
  ∀ (s : State) (k : Nat), s.power = .running → 1 ≤ k → s.cycles = k → s.flag .i = false →
    s.nmiPending = false →
    ∃ t u v : State, irq s = .next t ∧ Host.Core.run Sys2Proof.core k t = .next u ∧ u.cycles = 0 ∧
      u.pc = s.pc ∧ step u = .next v ∧ EntersWith 0xFFFE#16 s.pc ((s.p &&& 0xEF#8) ||| 0x20#8) u.clearLog v

/-- On a bus of RAM, from a running state that meets the invariant: RTI right after an IRQ or NMI entry leaves
PC, SP, P, A, X and Y as before the entry; RTI right after BRK leaves them as before with PC one past the
padding byte address the BRK saved. (60_exceptions.md R346, 60_exceptions.md R351, 46_stack_flags_system.md
R313) -/
def Obligations.RtiUndoesAnEntry : Prop :=
  ∀ s : State, s.Inv → s.power = .running → AllRam s →
    (∀ e ∈ [s.enterIrq, s.enterNmi], ∃ u : State, exec .rti e = .next u ∧ u.pc = s.pc ∧
      UnchangedBut [.mem, .cycles, .busLog] s u) ∧
    ∃ t u : State, exec .brk s = .next t ∧ exec .rti t = .next u ∧ u.pc = s.pc + 1#16 ∧
      UnchangedBut [.pc, .mem, .cycles, .busLog] s u

/-- On a bus of RAM with canonical memory, 256 pushes of any bytes leave SP as it was; the k-th byte stands at
the stack address of SP - k modulo 256, and no byte outside page 1 changes. (46_stack_flags_system.md R300,
10_state.md R35) -/
def Obligations.StackWrapsAfter256Pushes : Prop :=
  ∀ (s : State) (vs : List Byte), Memory.wf s.mem = true → AllRam s → vs.length = 256 →
    (pushAll vs s).sp = s.sp ∧
    (∀ k < 256, vs[k]? = some (Memory.read (pushAll vs s).mem (stackAddr (s.sp - BitVec.ofNat 8 k)).toNat)) ∧
    (∀ a : Addr, page a ≠ 0x01#8 → Memory.read (pushAll vs s).mem a.toNat = Memory.read s.mem a.toNat) ∧
    ∀ j k : Nat, j < 256 → k < 256 → stackAddr (s.sp - BitVec.ofNat 8 j) = stackAddr (s.sp - BitVec.ofNat 8 k) →
      j = k
end

