-- ==== Sys2Proof/Laws/Flags.lean ====
section
/-! SUPPORT. The flag setter sets one bit and leaves the others; what each flag computation leaves in a flag. -/

namespace Sys2Proof.Machine

theorem getFlag_setFlag_same (f : Flag) (b : Bool) (p : Byte) : getFlag f (setFlag f b p) = b := by
  cases f <;> cases b <;> simp [getFlag, setFlag, flagMask, flagBit]

theorem getFlag_setFlag_other {f g : Flag} (h : f ≠ g) (b : Bool) (p : Byte) :
    getFlag f (setFlag g b p) = getFlag f p := by
  revert h
  cases f <;> cases g <;> cases b <;> simp [getFlag, setFlag, flagMask, flagBit]

@[simp] theorem getFlag_setFlag (f g : Flag) (b : Bool) (p : Byte) :
    getFlag f (setFlag g b p) = if f = g then b else getFlag f p := by
  split
  · subst_vars; exact getFlag_setFlag_same _ _ _
  · exact getFlag_setFlag_other ‹_› _ _

/-- Two status bytes with the same flags are the same byte. -/
theorem status_ext {p q : Byte} (h : ∀ f, getFlag f p = getFlag f q) : p = q := by
  apply BitVec.eq_of_getLsbD_eq
  intro i hi
  have hc := h .c; have hz := h .z; have hI := h .i; have hd := h .d
  have hb := h .b; have hu := h .u; have hv := h .v; have hn := h .n
  simp only [getFlag, flagBit] at hc hz hI hd hb hu hv hn
  match i, hi with
  | 0, _ => exact hc
  | 1, _ => exact hz
  | 2, _ => exact hI
  | 3, _ => exact hd
  | 4, _ => exact hb
  | 5, _ => exact hu
  | 6, _ => exact hv
  | 7, _ => exact hn

/-- Z and N of a result, the other flags as they were. -/
@[simp] theorem getFlag_znOf (f : Flag) (v p : Byte) :
    getFlag f (znOf v p) = if f = .n then v.getLsbD 7 else if f = .z then decide (v = 0x00#8) else getFlag f p := by
  simp [znOf]

/-- The flags of ADC. -/
@[simp] theorem getFlag_adcStatus (f : Flag) (a m p : Byte) :
    getFlag f (adcStatus a m p) =
      if f = .n then (adcResult a m (getFlag .c p)).getLsbD 7
      else if f = .v then adcOverflow a m (getFlag .c p)
      else if f = .z then decide (adcResult a m (getFlag .c p) = 0x00#8)
      else if f = .c then adcCarry a m (getFlag .c p) else getFlag f p := by
  simp [adcStatus]

/-- The flags of a compare. -/
@[simp] theorem getFlag_compareStatus (f : Flag) (r m p : Byte) :
    getFlag f (compareStatus r m p) =
      if f = .n then (compareDifference r m).getLsbD 7
      else if f = .z then decide (lowByte (compareDifference r m) = 0x00#8)
      else if f = .c then decide (m.toNat ≤ r.toNat) else getFlag f p := by
  simp [compareStatus]

/-- The flags of BIT. -/
@[simp] theorem getFlag_bitStatus (f : Flag) (a m p : Byte) :
    getFlag f (bitStatus a m p) =
      if f = .v then m.getLsbD 6 else if f = .n then m.getLsbD 7
      else if f = .z then decide (a &&& m = 0x00#8) else getFlag f p := by
  simp [bitStatus]

/-- The flags of a shift or rotate. -/
@[simp] theorem getFlag_shiftStatus (f : Flag) (out : Bool) (r p : Byte) :
    getFlag f (shiftStatus out r p) =
      if f = .n then r.getLsbD 7 else if f = .z then decide (r = 0x00#8)
      else if f = .c then out else getFlag f p := by
  simp [shiftStatus]

/-- The flags of a pulled status: U set, B clear, the others the byte's. -/
@[simp] theorem getFlag_statusRestored (f : Flag) (v : Byte) :
    getFlag f (statusRestored v) = if f = .u then true else if f = .b then false else getFlag f v := by
  cases f <;> simp [getFlag, statusRestored, flagBit]

/-- The flags of the byte PHP and BRK push: B and U set. -/
@[simp] theorem getFlag_statusPushedByProgram (f : Flag) (p : Byte) :
    getFlag f (statusPushedByProgram p) = if f = .u then true else if f = .b then true else getFlag f p := by
  cases f <;> simp [getFlag, statusPushedByProgram, flagBit]

/-- The flags of the byte IRQ and NMI entry push: B clear, U set. -/
@[simp] theorem getFlag_statusPushedByHardware (f : Flag) (p : Byte) :
    getFlag f (statusPushedByHardware p) = if f = .u then true else if f = .b then false else getFlag f p := by
  cases f <;> simp [getFlag, statusPushedByHardware, flagBit]

/-- Z and N written for a result are that result's. -/
@[simp] theorem znOf_ZNOf (v p : Byte) : ZNOf v (znOf v p) := by simp [ZNOf]

end Sys2Proof.Machine
end

