-- ==== Sys2Proof/Laws/Memory.lean ====
section
/-! SUPPORT. The laws of memory: a read after a write, and the canonical form every operation keeps. -/

namespace Sys2Proof.Machine.Memory

theorem wfFrom_mono {low low' : Nat} (h : low' ≤ low) {m : List Host.Cell} (hm : wfFrom low m = true) :
    wfFrom low' m = true := by
  cases m with
  | nil => rfl
  | cons c rest =>
    obtain ⟨k, v⟩ := c
    simp only [wfFrom, Bool.and_eq_true, decide_eq_true_eq] at hm ⊢
    exact ⟨⟨⟨by omega, hm.1.1.2⟩, hm.1.2⟩, hm.2⟩

/-- Below the first address a canonical memory lists, every address reads as unlisted. -/
theorem read_below {low : Nat} {m : List Host.Cell} (hm : wfFrom low m = true) {a : Nat} (ha : a < low) :
    read m a = unlistedByte := by
  induction m generalizing low with
  | nil => rfl
  | cons c rest ih =>
    obtain ⟨k, v⟩ := c
    simp only [wfFrom, Bool.and_eq_true, decide_eq_true_eq] at hm
    rw [read, if_neg (by omega), ih hm.2 (by omega)]

/-- A write leaves every other address alone. -/
theorem read_write_other (m : List Host.Cell) {a b : Nat} (v : Byte) (h : b ≠ a) :
    read (write m a v) b = read m b := by
  induction m with
  | nil =>
    simp only [write]
    split <;> simp [read, Ne.symm h]
  | cons c rest ih =>
    obtain ⟨k, w⟩ := c
    simp only [write]
    split
    · split <;> simp [read, Ne.symm h]
    · split
      · subst_vars
        split <;> simp [read, Ne.symm h]
      · simp [read, ih]

/-- A read after a write to the same address gives the byte written. -/
theorem read_write_same {low : Nat} {m : List Host.Cell} (hm : wfFrom low m = true) (a : Nat) (v : Byte) :
    read (write m a v) a = v := by
  induction m generalizing low with
  | nil =>
    simp only [write]
    split <;> simp_all [read]
  | cons c rest ih =>
    obtain ⟨k, w⟩ := c
    simp only [wfFrom, Bool.and_eq_true, decide_eq_true_eq] at hm
    simp only [write]
    split
    · split
      · rename_i hlt hv
        rw [read, if_neg (by omega), read_below hm.2 (by omega), hv]
      · simp [read]
    · split
      · subst_vars
        split
        · rename_i hv
          rw [read_below hm.2 (by omega), hv]
        · simp [read]
      · rename_i hk
        rw [read, if_neg (by omega), ih hm.2]

theorem wfFrom_write {low : Nat} {m : List Host.Cell} (hm : wfFrom low m = true) {a : Nat} (hl : low ≤ a)
    (ha : a < 0x10000) (v : Byte) : wfFrom low (write m a v) = true := by
  induction m generalizing low with
  | nil =>
    simp only [write]
    split
    · rfl
    · simp_all [wfFrom]
  | cons c rest ih =>
    obtain ⟨k, w⟩ := c
    have hm' := hm
    simp only [wfFrom, Bool.and_eq_true, decide_eq_true_eq] at hm'
    simp only [write]
    split
    · split
      · exact hm
      · simp only [wfFrom, Bool.and_eq_true, decide_eq_true_eq]
        exact ⟨⟨⟨hl, ha⟩, ‹_›⟩, ⟨⟨by omega, hm'.1.1.2⟩, hm'.1.2⟩, hm'.2⟩
    · split
      · split
        · exact wfFrom_mono (by omega) hm'.2
        · simp only [wfFrom, Bool.and_eq_true, decide_eq_true_eq]
          exact ⟨⟨⟨hl, ha⟩, ‹_›⟩, by subst_vars; exact hm'.2⟩
      · simp only [wfFrom, Bool.and_eq_true, decide_eq_true_eq]
        exact ⟨hm'.1, ih hm'.2 (by omega)⟩

/-- A write of a byte of the 16-bit space keeps the canonical form. -/
theorem wf_write {m : List Host.Cell} (hm : wf m = true) (a : Addr) (v : Byte) :
    wf (write m a.toNat v) = true := wfFrom_write hm (Nat.zero_le _) a.isLt v

/-- In a canonical memory a byte reads back as written. -/
theorem read_write_eq {m : List Host.Cell} (hm : wf m = true) (a : Addr) (v : Byte) :
    read (write m a.toNat v) a.toNat = v := read_write_same hm _ _

/-- A write to one bus address leaves the others. -/
theorem read_write_ne (m : List Host.Cell) {a b : Addr} (v : Byte) (h : b ≠ a) :
    read (write m a.toNat v) b.toNat = read m b.toNat :=
  read_write_other m v fun e => h (BitVec.eq_of_toNat_eq e)

theorem wfFrom_ext {low : Nat} {m m' : List Host.Cell} (hm : wfFrom low m = true) (hm' : wfFrom low m' = true)
    (h : ∀ a, a < 0x10000 → read m a = read m' a) : m = m' := by
  induction m generalizing low m' with
  | nil =>
    cases m' with
    | nil => rfl
    | cons c' rest' =>
      obtain ⟨k', v'⟩ := c'
      simp only [wfFrom, Bool.and_eq_true, decide_eq_true_eq] at hm'
      have := h k' hm'.1.1.2
      simp only [read, if_pos] at this
      exact absurd this.symm hm'.1.2
  | cons c rest ih =>
    obtain ⟨k, v⟩ := c
    have hc := hm
    simp only [wfFrom, Bool.and_eq_true, decide_eq_true_eq] at hc
    cases m' with
    | nil =>
      have := h k hc.1.1.2
      simp only [read, if_pos] at this
      exact absurd this hc.1.2
    | cons c' rest' =>
      obtain ⟨k', v'⟩ := c'
      have hc' := hm'
      simp only [wfFrom, Bool.and_eq_true, decide_eq_true_eq] at hc'
      have hk : k = k' := by
        rcases Nat.lt_trichotomy k k' with hlt | heq | hgt
        · have := h k hc.1.1.2
          rw [read, if_pos rfl, read, if_neg (by omega), read_below hc'.2 (by omega)] at this
          exact absurd this hc.1.2
        · exact heq
        · have := h k' hc'.1.1.2
          rw [read, if_neg (by omega), read_below hc.2 (by omega), read, if_pos rfl] at this
          exact absurd this.symm hc'.1.2
      subst hk
      have hv := h k hc.1.1.2
      simp only [read, if_pos] at hv
      subst hv
      congr 1
      refine ih hc.2 hc'.2 fun a ha => ?_
      by_cases hlt : a < k + 1
      · rw [read_below hc.2 hlt, read_below hc'.2 hlt]
      · have := h a ha
        rwa [read, if_neg (by omega), read, if_neg (by omega)] at this

/-- Two canonical memories that read the same at every address are the same list. -/
theorem wf_ext {m m' : List Host.Cell} (hm : wf m = true) (hm' : wf m' = true)
    (h : ∀ a, a < 0x10000 → read m a = read m' a) : m = m' := wfFrom_ext hm hm' h

end Sys2Proof.Machine.Memory

namespace Sys2Proof.Machine

/-- A bus write keeps the canonical form. -/
theorem State.wf_memAfterWrite {s : State} (h : Memory.wf s.mem = true) (a : Addr) (v : Byte) :
    Memory.wf (s.memAfterWrite a v) = true := by
  unfold State.memAfterWrite
  split
  · exact Memory.wf_write h a v
  · exact h
  · exact h

/-- A bus write leaves every other byte. -/
theorem State.read_memAfterWrite_ne (s : State) {a b : Addr} (v : Byte) (h : b ≠ a) :
    Memory.read (s.memAfterWrite a v) b.toNat = Memory.read s.mem b.toNat := by
  unfold State.memAfterWrite
  split
  · exact Memory.read_write_ne s.mem v h
  · rfl
  · rfl

/-- A bus write to RAM is read back. -/
theorem State.read_memAfterWrite_eq {s : State} (h : Memory.wf s.mem = true) {a : Addr} (hk : s.kindAt a = .ram)
    (v : Byte) : Memory.read (s.memAfterWrite a v) a.toNat = v := by
  simp only [State.memAfterWrite, hk]
  exact Memory.read_write_eq h a v

/-- A bus write to anything but RAM leaves the bytes held. -/
theorem State.memAfterWrite_notRam {s : State} {a : Addr} (hk : s.kindAt a ≠ .ram) (v : Byte) :
    s.memAfterWrite a v = s.mem := by
  unfold State.memAfterWrite
  split
  · contradiction
  · rfl
  · rfl

end Sys2Proof.Machine
end

