-- ==== Sys2Proof/Laws/State.lean ====
section
/-! SUPPORT. What each update of the state leaves in each field, by rfl, so that no later proof unfolds a record
update; and that what the bus answers depends on the bus's own fields alone. -/

namespace Sys2Proof.Machine

/-! `State.setA` -/

@[simp] theorem State.setA_a (s : State) (v : Byte) : (s.setA v).a = v := rfl
@[simp] theorem State.setA_x (s : State) (v : Byte) : (s.setA v).x = s.x := rfl
@[simp] theorem State.setA_y (s : State) (v : Byte) : (s.setA v).y = s.y := rfl
@[simp] theorem State.setA_sp (s : State) (v : Byte) : (s.setA v).sp = s.sp := rfl
@[simp] theorem State.setA_p (s : State) (v : Byte) : (s.setA v).p = s.p := rfl
@[simp] theorem State.setA_pc (s : State) (v : Byte) : (s.setA v).pc = s.pc := rfl
@[simp] theorem State.setA_fetched (s : State) (v : Byte) : (s.setA v).fetched = s.fetched := rfl
@[simp] theorem State.setA_addrAbs (s : State) (v : Byte) : (s.setA v).addrAbs = s.addrAbs := rfl
@[simp] theorem State.setA_addrRel (s : State) (v : Byte) : (s.setA v).addrRel = s.addrRel := rfl
@[simp] theorem State.setA_addrTemp (s : State) (v : Byte) : (s.setA v).addrTemp = s.addrTemp := rfl
@[simp] theorem State.setA_cycles (s : State) (v : Byte) : (s.setA v).cycles = s.cycles := rfl
@[simp] theorem State.setA_totalCycles (s : State) (v : Byte) : (s.setA v).totalCycles = s.totalCycles := rfl
@[simp] theorem State.setA_nmiPending (s : State) (v : Byte) : (s.setA v).nmiPending = s.nmiPending := rfl
@[simp] theorem State.setA_irqPending (s : State) (v : Byte) : (s.setA v).irqPending = s.irqPending := rfl
@[simp] theorem State.setA_power (s : State) (v : Byte) : (s.setA v).power = s.power := rfl
@[simp] theorem State.setA_mem (s : State) (v : Byte) : (s.setA v).mem = s.mem := rfl
@[simp] theorem State.setA_regions (s : State) (v : Byte) : (s.setA v).regions = s.regions := rfl
@[simp] theorem State.setA_deviceState (s : State) (v : Byte) : (s.setA v).deviceState = s.deviceState := rfl
@[simp] theorem State.setA_busLog (s : State) (v : Byte) : (s.setA v).busLog = s.busLog := rfl
@[simp] theorem State.setA_flag (s : State) (v : Byte) (f : Flag) : (s.setA v).flag f = s.flag f := rfl
@[simp] theorem State.setA_kindAt (s : State) (v : Byte) (a : Addr) : (s.setA v).kindAt a = s.kindAt a := rfl
@[simp] theorem State.setA_peek (s : State) (v : Byte) (a : Addr) : (s.setA v).peek a = s.peek a := rfl
@[simp] theorem State.setA_deviceAfterRead (s : State) (v : Byte) (a : Addr) : (s.setA v).deviceAfterRead a = s.deviceAfterRead a := rfl
@[simp] theorem State.setA_deviceAfterWrite (s : State) (v : Byte) (a : Addr) (w : Byte) : (s.setA v).deviceAfterWrite a w = s.deviceAfterWrite a w := rfl
@[simp] theorem State.setA_memAfterWrite (s : State) (v : Byte) (a : Addr) (w : Byte) :
    (s.setA v).memAfterWrite a w = s.memAfterWrite a w := rfl

/-! `State.setX` -/

@[simp] theorem State.setX_a (s : State) (v : Byte) : (s.setX v).a = s.a := rfl
@[simp] theorem State.setX_x (s : State) (v : Byte) : (s.setX v).x = v := rfl
@[simp] theorem State.setX_y (s : State) (v : Byte) : (s.setX v).y = s.y := rfl
@[simp] theorem State.setX_sp (s : State) (v : Byte) : (s.setX v).sp = s.sp := rfl
@[simp] theorem State.setX_p (s : State) (v : Byte) : (s.setX v).p = s.p := rfl
@[simp] theorem State.setX_pc (s : State) (v : Byte) : (s.setX v).pc = s.pc := rfl
@[simp] theorem State.setX_fetched (s : State) (v : Byte) : (s.setX v).fetched = s.fetched := rfl
@[simp] theorem State.setX_addrAbs (s : State) (v : Byte) : (s.setX v).addrAbs = s.addrAbs := rfl
@[simp] theorem State.setX_addrRel (s : State) (v : Byte) : (s.setX v).addrRel = s.addrRel := rfl
@[simp] theorem State.setX_addrTemp (s : State) (v : Byte) : (s.setX v).addrTemp = s.addrTemp := rfl
@[simp] theorem State.setX_cycles (s : State) (v : Byte) : (s.setX v).cycles = s.cycles := rfl
@[simp] theorem State.setX_totalCycles (s : State) (v : Byte) : (s.setX v).totalCycles = s.totalCycles := rfl
@[simp] theorem State.setX_nmiPending (s : State) (v : Byte) : (s.setX v).nmiPending = s.nmiPending := rfl
@[simp] theorem State.setX_irqPending (s : State) (v : Byte) : (s.setX v).irqPending = s.irqPending := rfl
@[simp] theorem State.setX_power (s : State) (v : Byte) : (s.setX v).power = s.power := rfl
@[simp] theorem State.setX_mem (s : State) (v : Byte) : (s.setX v).mem = s.mem := rfl
@[simp] theorem State.setX_regions (s : State) (v : Byte) : (s.setX v).regions = s.regions := rfl
@[simp] theorem State.setX_deviceState (s : State) (v : Byte) : (s.setX v).deviceState = s.deviceState := rfl
@[simp] theorem State.setX_busLog (s : State) (v : Byte) : (s.setX v).busLog = s.busLog := rfl
@[simp] theorem State.setX_flag (s : State) (v : Byte) (f : Flag) : (s.setX v).flag f = s.flag f := rfl
@[simp] theorem State.setX_kindAt (s : State) (v : Byte) (a : Addr) : (s.setX v).kindAt a = s.kindAt a := rfl
@[simp] theorem State.setX_peek (s : State) (v : Byte) (a : Addr) : (s.setX v).peek a = s.peek a := rfl
@[simp] theorem State.setX_deviceAfterRead (s : State) (v : Byte) (a : Addr) : (s.setX v).deviceAfterRead a = s.deviceAfterRead a := rfl
@[simp] theorem State.setX_deviceAfterWrite (s : State) (v : Byte) (a : Addr) (w : Byte) : (s.setX v).deviceAfterWrite a w = s.deviceAfterWrite a w := rfl
@[simp] theorem State.setX_memAfterWrite (s : State) (v : Byte) (a : Addr) (w : Byte) :
    (s.setX v).memAfterWrite a w = s.memAfterWrite a w := rfl

/-! `State.setY` -/

@[simp] theorem State.setY_a (s : State) (v : Byte) : (s.setY v).a = s.a := rfl
@[simp] theorem State.setY_x (s : State) (v : Byte) : (s.setY v).x = s.x := rfl
@[simp] theorem State.setY_y (s : State) (v : Byte) : (s.setY v).y = v := rfl
@[simp] theorem State.setY_sp (s : State) (v : Byte) : (s.setY v).sp = s.sp := rfl
@[simp] theorem State.setY_p (s : State) (v : Byte) : (s.setY v).p = s.p := rfl
@[simp] theorem State.setY_pc (s : State) (v : Byte) : (s.setY v).pc = s.pc := rfl
@[simp] theorem State.setY_fetched (s : State) (v : Byte) : (s.setY v).fetched = s.fetched := rfl
@[simp] theorem State.setY_addrAbs (s : State) (v : Byte) : (s.setY v).addrAbs = s.addrAbs := rfl
@[simp] theorem State.setY_addrRel (s : State) (v : Byte) : (s.setY v).addrRel = s.addrRel := rfl
@[simp] theorem State.setY_addrTemp (s : State) (v : Byte) : (s.setY v).addrTemp = s.addrTemp := rfl
@[simp] theorem State.setY_cycles (s : State) (v : Byte) : (s.setY v).cycles = s.cycles := rfl
@[simp] theorem State.setY_totalCycles (s : State) (v : Byte) : (s.setY v).totalCycles = s.totalCycles := rfl
@[simp] theorem State.setY_nmiPending (s : State) (v : Byte) : (s.setY v).nmiPending = s.nmiPending := rfl
@[simp] theorem State.setY_irqPending (s : State) (v : Byte) : (s.setY v).irqPending = s.irqPending := rfl
@[simp] theorem State.setY_power (s : State) (v : Byte) : (s.setY v).power = s.power := rfl
@[simp] theorem State.setY_mem (s : State) (v : Byte) : (s.setY v).mem = s.mem := rfl
@[simp] theorem State.setY_regions (s : State) (v : Byte) : (s.setY v).regions = s.regions := rfl
@[simp] theorem State.setY_deviceState (s : State) (v : Byte) : (s.setY v).deviceState = s.deviceState := rfl
@[simp] theorem State.setY_busLog (s : State) (v : Byte) : (s.setY v).busLog = s.busLog := rfl
@[simp] theorem State.setY_flag (s : State) (v : Byte) (f : Flag) : (s.setY v).flag f = s.flag f := rfl
@[simp] theorem State.setY_kindAt (s : State) (v : Byte) (a : Addr) : (s.setY v).kindAt a = s.kindAt a := rfl
@[simp] theorem State.setY_peek (s : State) (v : Byte) (a : Addr) : (s.setY v).peek a = s.peek a := rfl
@[simp] theorem State.setY_deviceAfterRead (s : State) (v : Byte) (a : Addr) : (s.setY v).deviceAfterRead a = s.deviceAfterRead a := rfl
@[simp] theorem State.setY_deviceAfterWrite (s : State) (v : Byte) (a : Addr) (w : Byte) : (s.setY v).deviceAfterWrite a w = s.deviceAfterWrite a w := rfl
@[simp] theorem State.setY_memAfterWrite (s : State) (v : Byte) (a : Addr) (w : Byte) :
    (s.setY v).memAfterWrite a w = s.memAfterWrite a w := rfl

/-! `State.setSp` -/

@[simp] theorem State.setSp_a (s : State) (v : Byte) : (s.setSp v).a = s.a := rfl
@[simp] theorem State.setSp_x (s : State) (v : Byte) : (s.setSp v).x = s.x := rfl
@[simp] theorem State.setSp_y (s : State) (v : Byte) : (s.setSp v).y = s.y := rfl
@[simp] theorem State.setSp_sp (s : State) (v : Byte) : (s.setSp v).sp = v := rfl
@[simp] theorem State.setSp_p (s : State) (v : Byte) : (s.setSp v).p = s.p := rfl
@[simp] theorem State.setSp_pc (s : State) (v : Byte) : (s.setSp v).pc = s.pc := rfl
@[simp] theorem State.setSp_fetched (s : State) (v : Byte) : (s.setSp v).fetched = s.fetched := rfl
@[simp] theorem State.setSp_addrAbs (s : State) (v : Byte) : (s.setSp v).addrAbs = s.addrAbs := rfl
@[simp] theorem State.setSp_addrRel (s : State) (v : Byte) : (s.setSp v).addrRel = s.addrRel := rfl
@[simp] theorem State.setSp_addrTemp (s : State) (v : Byte) : (s.setSp v).addrTemp = s.addrTemp := rfl
@[simp] theorem State.setSp_cycles (s : State) (v : Byte) : (s.setSp v).cycles = s.cycles := rfl
@[simp] theorem State.setSp_totalCycles (s : State) (v : Byte) : (s.setSp v).totalCycles = s.totalCycles := rfl
@[simp] theorem State.setSp_nmiPending (s : State) (v : Byte) : (s.setSp v).nmiPending = s.nmiPending := rfl
@[simp] theorem State.setSp_irqPending (s : State) (v : Byte) : (s.setSp v).irqPending = s.irqPending := rfl
@[simp] theorem State.setSp_power (s : State) (v : Byte) : (s.setSp v).power = s.power := rfl
@[simp] theorem State.setSp_mem (s : State) (v : Byte) : (s.setSp v).mem = s.mem := rfl
@[simp] theorem State.setSp_regions (s : State) (v : Byte) : (s.setSp v).regions = s.regions := rfl
@[simp] theorem State.setSp_deviceState (s : State) (v : Byte) : (s.setSp v).deviceState = s.deviceState := rfl
@[simp] theorem State.setSp_busLog (s : State) (v : Byte) : (s.setSp v).busLog = s.busLog := rfl
@[simp] theorem State.setSp_flag (s : State) (v : Byte) (f : Flag) : (s.setSp v).flag f = s.flag f := rfl
@[simp] theorem State.setSp_kindAt (s : State) (v : Byte) (a : Addr) : (s.setSp v).kindAt a = s.kindAt a := rfl
@[simp] theorem State.setSp_peek (s : State) (v : Byte) (a : Addr) : (s.setSp v).peek a = s.peek a := rfl
@[simp] theorem State.setSp_deviceAfterRead (s : State) (v : Byte) (a : Addr) : (s.setSp v).deviceAfterRead a = s.deviceAfterRead a := rfl
@[simp] theorem State.setSp_deviceAfterWrite (s : State) (v : Byte) (a : Addr) (w : Byte) : (s.setSp v).deviceAfterWrite a w = s.deviceAfterWrite a w := rfl
@[simp] theorem State.setSp_memAfterWrite (s : State) (v : Byte) (a : Addr) (w : Byte) :
    (s.setSp v).memAfterWrite a w = s.memAfterWrite a w := rfl

/-! `State.setP` -/

@[simp] theorem State.setP_a (s : State) (v : Byte) : (s.setP v).a = s.a := rfl
@[simp] theorem State.setP_x (s : State) (v : Byte) : (s.setP v).x = s.x := rfl
@[simp] theorem State.setP_y (s : State) (v : Byte) : (s.setP v).y = s.y := rfl
@[simp] theorem State.setP_sp (s : State) (v : Byte) : (s.setP v).sp = s.sp := rfl
@[simp] theorem State.setP_p (s : State) (v : Byte) : (s.setP v).p = v := rfl
@[simp] theorem State.setP_pc (s : State) (v : Byte) : (s.setP v).pc = s.pc := rfl
@[simp] theorem State.setP_fetched (s : State) (v : Byte) : (s.setP v).fetched = s.fetched := rfl
@[simp] theorem State.setP_addrAbs (s : State) (v : Byte) : (s.setP v).addrAbs = s.addrAbs := rfl
@[simp] theorem State.setP_addrRel (s : State) (v : Byte) : (s.setP v).addrRel = s.addrRel := rfl
@[simp] theorem State.setP_addrTemp (s : State) (v : Byte) : (s.setP v).addrTemp = s.addrTemp := rfl
@[simp] theorem State.setP_cycles (s : State) (v : Byte) : (s.setP v).cycles = s.cycles := rfl
@[simp] theorem State.setP_totalCycles (s : State) (v : Byte) : (s.setP v).totalCycles = s.totalCycles := rfl
@[simp] theorem State.setP_nmiPending (s : State) (v : Byte) : (s.setP v).nmiPending = s.nmiPending := rfl
@[simp] theorem State.setP_irqPending (s : State) (v : Byte) : (s.setP v).irqPending = s.irqPending := rfl
@[simp] theorem State.setP_power (s : State) (v : Byte) : (s.setP v).power = s.power := rfl
@[simp] theorem State.setP_mem (s : State) (v : Byte) : (s.setP v).mem = s.mem := rfl
@[simp] theorem State.setP_regions (s : State) (v : Byte) : (s.setP v).regions = s.regions := rfl
@[simp] theorem State.setP_deviceState (s : State) (v : Byte) : (s.setP v).deviceState = s.deviceState := rfl
@[simp] theorem State.setP_busLog (s : State) (v : Byte) : (s.setP v).busLog = s.busLog := rfl
@[simp] theorem State.setP_kindAt (s : State) (v : Byte) (a : Addr) : (s.setP v).kindAt a = s.kindAt a := rfl
@[simp] theorem State.setP_peek (s : State) (v : Byte) (a : Addr) : (s.setP v).peek a = s.peek a := rfl
@[simp] theorem State.setP_deviceAfterRead (s : State) (v : Byte) (a : Addr) : (s.setP v).deviceAfterRead a = s.deviceAfterRead a := rfl
@[simp] theorem State.setP_deviceAfterWrite (s : State) (v : Byte) (a : Addr) (w : Byte) : (s.setP v).deviceAfterWrite a w = s.deviceAfterWrite a w := rfl
@[simp] theorem State.setP_memAfterWrite (s : State) (v : Byte) (a : Addr) (w : Byte) :
    (s.setP v).memAfterWrite a w = s.memAfterWrite a w := rfl

/-! `State.setPc` -/

@[simp] theorem State.setPc_a (s : State) (v : Addr) : (s.setPc v).a = s.a := rfl
@[simp] theorem State.setPc_x (s : State) (v : Addr) : (s.setPc v).x = s.x := rfl
@[simp] theorem State.setPc_y (s : State) (v : Addr) : (s.setPc v).y = s.y := rfl
@[simp] theorem State.setPc_sp (s : State) (v : Addr) : (s.setPc v).sp = s.sp := rfl
@[simp] theorem State.setPc_p (s : State) (v : Addr) : (s.setPc v).p = s.p := rfl
@[simp] theorem State.setPc_pc (s : State) (v : Addr) : (s.setPc v).pc = v := rfl
@[simp] theorem State.setPc_fetched (s : State) (v : Addr) : (s.setPc v).fetched = s.fetched := rfl
@[simp] theorem State.setPc_addrAbs (s : State) (v : Addr) : (s.setPc v).addrAbs = s.addrAbs := rfl
@[simp] theorem State.setPc_addrRel (s : State) (v : Addr) : (s.setPc v).addrRel = s.addrRel := rfl
@[simp] theorem State.setPc_addrTemp (s : State) (v : Addr) : (s.setPc v).addrTemp = s.addrTemp := rfl
@[simp] theorem State.setPc_cycles (s : State) (v : Addr) : (s.setPc v).cycles = s.cycles := rfl
@[simp] theorem State.setPc_totalCycles (s : State) (v : Addr) : (s.setPc v).totalCycles = s.totalCycles := rfl
@[simp] theorem State.setPc_nmiPending (s : State) (v : Addr) : (s.setPc v).nmiPending = s.nmiPending := rfl
@[simp] theorem State.setPc_irqPending (s : State) (v : Addr) : (s.setPc v).irqPending = s.irqPending := rfl
@[simp] theorem State.setPc_power (s : State) (v : Addr) : (s.setPc v).power = s.power := rfl
@[simp] theorem State.setPc_mem (s : State) (v : Addr) : (s.setPc v).mem = s.mem := rfl
@[simp] theorem State.setPc_regions (s : State) (v : Addr) : (s.setPc v).regions = s.regions := rfl
@[simp] theorem State.setPc_deviceState (s : State) (v : Addr) : (s.setPc v).deviceState = s.deviceState := rfl
@[simp] theorem State.setPc_busLog (s : State) (v : Addr) : (s.setPc v).busLog = s.busLog := rfl
@[simp] theorem State.setPc_flag (s : State) (v : Addr) (f : Flag) : (s.setPc v).flag f = s.flag f := rfl
@[simp] theorem State.setPc_kindAt (s : State) (v : Addr) (a : Addr) : (s.setPc v).kindAt a = s.kindAt a := rfl
@[simp] theorem State.setPc_peek (s : State) (v : Addr) (a : Addr) : (s.setPc v).peek a = s.peek a := rfl
@[simp] theorem State.setPc_deviceAfterRead (s : State) (v : Addr) (a : Addr) : (s.setPc v).deviceAfterRead a = s.deviceAfterRead a := rfl
@[simp] theorem State.setPc_deviceAfterWrite (s : State) (v : Addr) (a : Addr) (w : Byte) : (s.setPc v).deviceAfterWrite a w = s.deviceAfterWrite a w := rfl
@[simp] theorem State.setPc_memAfterWrite (s : State) (v : Addr) (a : Addr) (w : Byte) :
    (s.setPc v).memAfterWrite a w = s.memAfterWrite a w := rfl

/-! `State.setFetched` -/

@[simp] theorem State.setFetched_a (s : State) (v : Byte) : (s.setFetched v).a = s.a := rfl
@[simp] theorem State.setFetched_x (s : State) (v : Byte) : (s.setFetched v).x = s.x := rfl
@[simp] theorem State.setFetched_y (s : State) (v : Byte) : (s.setFetched v).y = s.y := rfl
@[simp] theorem State.setFetched_sp (s : State) (v : Byte) : (s.setFetched v).sp = s.sp := rfl
@[simp] theorem State.setFetched_p (s : State) (v : Byte) : (s.setFetched v).p = s.p := rfl
@[simp] theorem State.setFetched_pc (s : State) (v : Byte) : (s.setFetched v).pc = s.pc := rfl
@[simp] theorem State.setFetched_fetched (s : State) (v : Byte) : (s.setFetched v).fetched = v := rfl
@[simp] theorem State.setFetched_addrAbs (s : State) (v : Byte) : (s.setFetched v).addrAbs = s.addrAbs := rfl
@[simp] theorem State.setFetched_addrRel (s : State) (v : Byte) : (s.setFetched v).addrRel = s.addrRel := rfl
@[simp] theorem State.setFetched_addrTemp (s : State) (v : Byte) : (s.setFetched v).addrTemp = s.addrTemp := rfl
@[simp] theorem State.setFetched_cycles (s : State) (v : Byte) : (s.setFetched v).cycles = s.cycles := rfl
@[simp] theorem State.setFetched_totalCycles (s : State) (v : Byte) : (s.setFetched v).totalCycles = s.totalCycles := rfl
@[simp] theorem State.setFetched_nmiPending (s : State) (v : Byte) : (s.setFetched v).nmiPending = s.nmiPending := rfl
@[simp] theorem State.setFetched_irqPending (s : State) (v : Byte) : (s.setFetched v).irqPending = s.irqPending := rfl
@[simp] theorem State.setFetched_power (s : State) (v : Byte) : (s.setFetched v).power = s.power := rfl
@[simp] theorem State.setFetched_mem (s : State) (v : Byte) : (s.setFetched v).mem = s.mem := rfl
@[simp] theorem State.setFetched_regions (s : State) (v : Byte) : (s.setFetched v).regions = s.regions := rfl
@[simp] theorem State.setFetched_deviceState (s : State) (v : Byte) : (s.setFetched v).deviceState = s.deviceState := rfl
@[simp] theorem State.setFetched_busLog (s : State) (v : Byte) : (s.setFetched v).busLog = s.busLog := rfl
@[simp] theorem State.setFetched_flag (s : State) (v : Byte) (f : Flag) : (s.setFetched v).flag f = s.flag f := rfl
@[simp] theorem State.setFetched_kindAt (s : State) (v : Byte) (a : Addr) : (s.setFetched v).kindAt a = s.kindAt a := rfl
@[simp] theorem State.setFetched_peek (s : State) (v : Byte) (a : Addr) : (s.setFetched v).peek a = s.peek a := rfl
@[simp] theorem State.setFetched_deviceAfterRead (s : State) (v : Byte) (a : Addr) : (s.setFetched v).deviceAfterRead a = s.deviceAfterRead a := rfl
@[simp] theorem State.setFetched_deviceAfterWrite (s : State) (v : Byte) (a : Addr) (w : Byte) : (s.setFetched v).deviceAfterWrite a w = s.deviceAfterWrite a w := rfl
@[simp] theorem State.setFetched_memAfterWrite (s : State) (v : Byte) (a : Addr) (w : Byte) :
    (s.setFetched v).memAfterWrite a w = s.memAfterWrite a w := rfl

/-! `State.setAddrAbs` -/

@[simp] theorem State.setAddrAbs_a (s : State) (v : Addr) : (s.setAddrAbs v).a = s.a := rfl
@[simp] theorem State.setAddrAbs_x (s : State) (v : Addr) : (s.setAddrAbs v).x = s.x := rfl
@[simp] theorem State.setAddrAbs_y (s : State) (v : Addr) : (s.setAddrAbs v).y = s.y := rfl
@[simp] theorem State.setAddrAbs_sp (s : State) (v : Addr) : (s.setAddrAbs v).sp = s.sp := rfl
@[simp] theorem State.setAddrAbs_p (s : State) (v : Addr) : (s.setAddrAbs v).p = s.p := rfl
@[simp] theorem State.setAddrAbs_pc (s : State) (v : Addr) : (s.setAddrAbs v).pc = s.pc := rfl
@[simp] theorem State.setAddrAbs_fetched (s : State) (v : Addr) : (s.setAddrAbs v).fetched = s.fetched := rfl
@[simp] theorem State.setAddrAbs_addrAbs (s : State) (v : Addr) : (s.setAddrAbs v).addrAbs = v := rfl
@[simp] theorem State.setAddrAbs_addrRel (s : State) (v : Addr) : (s.setAddrAbs v).addrRel = s.addrRel := rfl
@[simp] theorem State.setAddrAbs_addrTemp (s : State) (v : Addr) : (s.setAddrAbs v).addrTemp = s.addrTemp := rfl
@[simp] theorem State.setAddrAbs_cycles (s : State) (v : Addr) : (s.setAddrAbs v).cycles = s.cycles := rfl
@[simp] theorem State.setAddrAbs_totalCycles (s : State) (v : Addr) : (s.setAddrAbs v).totalCycles = s.totalCycles := rfl
@[simp] theorem State.setAddrAbs_nmiPending (s : State) (v : Addr) : (s.setAddrAbs v).nmiPending = s.nmiPending := rfl
@[simp] theorem State.setAddrAbs_irqPending (s : State) (v : Addr) : (s.setAddrAbs v).irqPending = s.irqPending := rfl
@[simp] theorem State.setAddrAbs_power (s : State) (v : Addr) : (s.setAddrAbs v).power = s.power := rfl
@[simp] theorem State.setAddrAbs_mem (s : State) (v : Addr) : (s.setAddrAbs v).mem = s.mem := rfl
@[simp] theorem State.setAddrAbs_regions (s : State) (v : Addr) : (s.setAddrAbs v).regions = s.regions := rfl
@[simp] theorem State.setAddrAbs_deviceState (s : State) (v : Addr) : (s.setAddrAbs v).deviceState = s.deviceState := rfl
@[simp] theorem State.setAddrAbs_busLog (s : State) (v : Addr) : (s.setAddrAbs v).busLog = s.busLog := rfl
@[simp] theorem State.setAddrAbs_flag (s : State) (v : Addr) (f : Flag) : (s.setAddrAbs v).flag f = s.flag f := rfl
@[simp] theorem State.setAddrAbs_kindAt (s : State) (v : Addr) (a : Addr) : (s.setAddrAbs v).kindAt a = s.kindAt a := rfl
@[simp] theorem State.setAddrAbs_peek (s : State) (v : Addr) (a : Addr) : (s.setAddrAbs v).peek a = s.peek a := rfl
@[simp] theorem State.setAddrAbs_deviceAfterRead (s : State) (v : Addr) (a : Addr) : (s.setAddrAbs v).deviceAfterRead a = s.deviceAfterRead a := rfl
@[simp] theorem State.setAddrAbs_deviceAfterWrite (s : State) (v : Addr) (a : Addr) (w : Byte) : (s.setAddrAbs v).deviceAfterWrite a w = s.deviceAfterWrite a w := rfl
@[simp] theorem State.setAddrAbs_memAfterWrite (s : State) (v : Addr) (a : Addr) (w : Byte) :
    (s.setAddrAbs v).memAfterWrite a w = s.memAfterWrite a w := rfl

/-! `State.setAddrRel` -/

@[simp] theorem State.setAddrRel_a (s : State) (v : Addr) : (s.setAddrRel v).a = s.a := rfl
@[simp] theorem State.setAddrRel_x (s : State) (v : Addr) : (s.setAddrRel v).x = s.x := rfl
@[simp] theorem State.setAddrRel_y (s : State) (v : Addr) : (s.setAddrRel v).y = s.y := rfl
@[simp] theorem State.setAddrRel_sp (s : State) (v : Addr) : (s.setAddrRel v).sp = s.sp := rfl
@[simp] theorem State.setAddrRel_p (s : State) (v : Addr) : (s.setAddrRel v).p = s.p := rfl
@[simp] theorem State.setAddrRel_pc (s : State) (v : Addr) : (s.setAddrRel v).pc = s.pc := rfl
@[simp] theorem State.setAddrRel_fetched (s : State) (v : Addr) : (s.setAddrRel v).fetched = s.fetched := rfl
@[simp] theorem State.setAddrRel_addrAbs (s : State) (v : Addr) : (s.setAddrRel v).addrAbs = s.addrAbs := rfl
@[simp] theorem State.setAddrRel_addrRel (s : State) (v : Addr) : (s.setAddrRel v).addrRel = v := rfl
@[simp] theorem State.setAddrRel_addrTemp (s : State) (v : Addr) : (s.setAddrRel v).addrTemp = s.addrTemp := rfl
@[simp] theorem State.setAddrRel_cycles (s : State) (v : Addr) : (s.setAddrRel v).cycles = s.cycles := rfl
@[simp] theorem State.setAddrRel_totalCycles (s : State) (v : Addr) : (s.setAddrRel v).totalCycles = s.totalCycles := rfl
@[simp] theorem State.setAddrRel_nmiPending (s : State) (v : Addr) : (s.setAddrRel v).nmiPending = s.nmiPending := rfl
@[simp] theorem State.setAddrRel_irqPending (s : State) (v : Addr) : (s.setAddrRel v).irqPending = s.irqPending := rfl
@[simp] theorem State.setAddrRel_power (s : State) (v : Addr) : (s.setAddrRel v).power = s.power := rfl
@[simp] theorem State.setAddrRel_mem (s : State) (v : Addr) : (s.setAddrRel v).mem = s.mem := rfl
@[simp] theorem State.setAddrRel_regions (s : State) (v : Addr) : (s.setAddrRel v).regions = s.regions := rfl
@[simp] theorem State.setAddrRel_deviceState (s : State) (v : Addr) : (s.setAddrRel v).deviceState = s.deviceState := rfl
@[simp] theorem State.setAddrRel_busLog (s : State) (v : Addr) : (s.setAddrRel v).busLog = s.busLog := rfl
@[simp] theorem State.setAddrRel_flag (s : State) (v : Addr) (f : Flag) : (s.setAddrRel v).flag f = s.flag f := rfl
@[simp] theorem State.setAddrRel_kindAt (s : State) (v : Addr) (a : Addr) : (s.setAddrRel v).kindAt a = s.kindAt a := rfl
@[simp] theorem State.setAddrRel_peek (s : State) (v : Addr) (a : Addr) : (s.setAddrRel v).peek a = s.peek a := rfl
@[simp] theorem State.setAddrRel_deviceAfterRead (s : State) (v : Addr) (a : Addr) : (s.setAddrRel v).deviceAfterRead a = s.deviceAfterRead a := rfl
@[simp] theorem State.setAddrRel_deviceAfterWrite (s : State) (v : Addr) (a : Addr) (w : Byte) : (s.setAddrRel v).deviceAfterWrite a w = s.deviceAfterWrite a w := rfl
@[simp] theorem State.setAddrRel_memAfterWrite (s : State) (v : Addr) (a : Addr) (w : Byte) :
    (s.setAddrRel v).memAfterWrite a w = s.memAfterWrite a w := rfl

/-! `State.setAddrTemp` -/

@[simp] theorem State.setAddrTemp_a (s : State) (v : Addr) : (s.setAddrTemp v).a = s.a := rfl
@[simp] theorem State.setAddrTemp_x (s : State) (v : Addr) : (s.setAddrTemp v).x = s.x := rfl
@[simp] theorem State.setAddrTemp_y (s : State) (v : Addr) : (s.setAddrTemp v).y = s.y := rfl
@[simp] theorem State.setAddrTemp_sp (s : State) (v : Addr) : (s.setAddrTemp v).sp = s.sp := rfl
@[simp] theorem State.setAddrTemp_p (s : State) (v : Addr) : (s.setAddrTemp v).p = s.p := rfl
@[simp] theorem State.setAddrTemp_pc (s : State) (v : Addr) : (s.setAddrTemp v).pc = s.pc := rfl
@[simp] theorem State.setAddrTemp_fetched (s : State) (v : Addr) : (s.setAddrTemp v).fetched = s.fetched := rfl
@[simp] theorem State.setAddrTemp_addrAbs (s : State) (v : Addr) : (s.setAddrTemp v).addrAbs = s.addrAbs := rfl
@[simp] theorem State.setAddrTemp_addrRel (s : State) (v : Addr) : (s.setAddrTemp v).addrRel = s.addrRel := rfl
@[simp] theorem State.setAddrTemp_addrTemp (s : State) (v : Addr) : (s.setAddrTemp v).addrTemp = v := rfl
@[simp] theorem State.setAddrTemp_cycles (s : State) (v : Addr) : (s.setAddrTemp v).cycles = s.cycles := rfl
@[simp] theorem State.setAddrTemp_totalCycles (s : State) (v : Addr) : (s.setAddrTemp v).totalCycles = s.totalCycles := rfl
@[simp] theorem State.setAddrTemp_nmiPending (s : State) (v : Addr) : (s.setAddrTemp v).nmiPending = s.nmiPending := rfl
@[simp] theorem State.setAddrTemp_irqPending (s : State) (v : Addr) : (s.setAddrTemp v).irqPending = s.irqPending := rfl
@[simp] theorem State.setAddrTemp_power (s : State) (v : Addr) : (s.setAddrTemp v).power = s.power := rfl
@[simp] theorem State.setAddrTemp_mem (s : State) (v : Addr) : (s.setAddrTemp v).mem = s.mem := rfl
@[simp] theorem State.setAddrTemp_regions (s : State) (v : Addr) : (s.setAddrTemp v).regions = s.regions := rfl
@[simp] theorem State.setAddrTemp_deviceState (s : State) (v : Addr) : (s.setAddrTemp v).deviceState = s.deviceState := rfl
@[simp] theorem State.setAddrTemp_busLog (s : State) (v : Addr) : (s.setAddrTemp v).busLog = s.busLog := rfl
@[simp] theorem State.setAddrTemp_flag (s : State) (v : Addr) (f : Flag) : (s.setAddrTemp v).flag f = s.flag f := rfl
@[simp] theorem State.setAddrTemp_kindAt (s : State) (v : Addr) (a : Addr) : (s.setAddrTemp v).kindAt a = s.kindAt a := rfl
@[simp] theorem State.setAddrTemp_peek (s : State) (v : Addr) (a : Addr) : (s.setAddrTemp v).peek a = s.peek a := rfl
@[simp] theorem State.setAddrTemp_deviceAfterRead (s : State) (v : Addr) (a : Addr) : (s.setAddrTemp v).deviceAfterRead a = s.deviceAfterRead a := rfl
@[simp] theorem State.setAddrTemp_deviceAfterWrite (s : State) (v : Addr) (a : Addr) (w : Byte) : (s.setAddrTemp v).deviceAfterWrite a w = s.deviceAfterWrite a w := rfl
@[simp] theorem State.setAddrTemp_memAfterWrite (s : State) (v : Addr) (a : Addr) (w : Byte) :
    (s.setAddrTemp v).memAfterWrite a w = s.memAfterWrite a w := rfl

/-! `State.setCycles` -/

@[simp] theorem State.setCycles_a (s : State) (n : Nat) : (s.setCycles n).a = s.a := rfl
@[simp] theorem State.setCycles_x (s : State) (n : Nat) : (s.setCycles n).x = s.x := rfl
@[simp] theorem State.setCycles_y (s : State) (n : Nat) : (s.setCycles n).y = s.y := rfl
@[simp] theorem State.setCycles_sp (s : State) (n : Nat) : (s.setCycles n).sp = s.sp := rfl
@[simp] theorem State.setCycles_p (s : State) (n : Nat) : (s.setCycles n).p = s.p := rfl
@[simp] theorem State.setCycles_pc (s : State) (n : Nat) : (s.setCycles n).pc = s.pc := rfl
@[simp] theorem State.setCycles_fetched (s : State) (n : Nat) : (s.setCycles n).fetched = s.fetched := rfl
@[simp] theorem State.setCycles_addrAbs (s : State) (n : Nat) : (s.setCycles n).addrAbs = s.addrAbs := rfl
@[simp] theorem State.setCycles_addrRel (s : State) (n : Nat) : (s.setCycles n).addrRel = s.addrRel := rfl
@[simp] theorem State.setCycles_addrTemp (s : State) (n : Nat) : (s.setCycles n).addrTemp = s.addrTemp := rfl
@[simp] theorem State.setCycles_cycles (s : State) (n : Nat) : (s.setCycles n).cycles = n := rfl
@[simp] theorem State.setCycles_totalCycles (s : State) (n : Nat) : (s.setCycles n).totalCycles = s.totalCycles := rfl
@[simp] theorem State.setCycles_nmiPending (s : State) (n : Nat) : (s.setCycles n).nmiPending = s.nmiPending := rfl
@[simp] theorem State.setCycles_irqPending (s : State) (n : Nat) : (s.setCycles n).irqPending = s.irqPending := rfl
@[simp] theorem State.setCycles_power (s : State) (n : Nat) : (s.setCycles n).power = s.power := rfl
@[simp] theorem State.setCycles_mem (s : State) (n : Nat) : (s.setCycles n).mem = s.mem := rfl
@[simp] theorem State.setCycles_regions (s : State) (n : Nat) : (s.setCycles n).regions = s.regions := rfl
@[simp] theorem State.setCycles_deviceState (s : State) (n : Nat) : (s.setCycles n).deviceState = s.deviceState := rfl
@[simp] theorem State.setCycles_busLog (s : State) (n : Nat) : (s.setCycles n).busLog = s.busLog := rfl
@[simp] theorem State.setCycles_flag (s : State) (n : Nat) (f : Flag) : (s.setCycles n).flag f = s.flag f := rfl
@[simp] theorem State.setCycles_kindAt (s : State) (n : Nat) (a : Addr) : (s.setCycles n).kindAt a = s.kindAt a := rfl
@[simp] theorem State.setCycles_peek (s : State) (n : Nat) (a : Addr) : (s.setCycles n).peek a = s.peek a := rfl
@[simp] theorem State.setCycles_deviceAfterRead (s : State) (n : Nat) (a : Addr) : (s.setCycles n).deviceAfterRead a = s.deviceAfterRead a := rfl
@[simp] theorem State.setCycles_deviceAfterWrite (s : State) (n : Nat) (a : Addr) (w : Byte) : (s.setCycles n).deviceAfterWrite a w = s.deviceAfterWrite a w := rfl
@[simp] theorem State.setCycles_memAfterWrite (s : State) (n : Nat) (a : Addr) (w : Byte) :
    (s.setCycles n).memAfterWrite a w = s.memAfterWrite a w := rfl

/-! `State.setNmiPending` -/

@[simp] theorem State.setNmiPending_a (s : State) (b : Bool) : (s.setNmiPending b).a = s.a := rfl
@[simp] theorem State.setNmiPending_x (s : State) (b : Bool) : (s.setNmiPending b).x = s.x := rfl
@[simp] theorem State.setNmiPending_y (s : State) (b : Bool) : (s.setNmiPending b).y = s.y := rfl
@[simp] theorem State.setNmiPending_sp (s : State) (b : Bool) : (s.setNmiPending b).sp = s.sp := rfl
@[simp] theorem State.setNmiPending_p (s : State) (b : Bool) : (s.setNmiPending b).p = s.p := rfl
@[simp] theorem State.setNmiPending_pc (s : State) (b : Bool) : (s.setNmiPending b).pc = s.pc := rfl
@[simp] theorem State.setNmiPending_fetched (s : State) (b : Bool) : (s.setNmiPending b).fetched = s.fetched := rfl
@[simp] theorem State.setNmiPending_addrAbs (s : State) (b : Bool) : (s.setNmiPending b).addrAbs = s.addrAbs := rfl
@[simp] theorem State.setNmiPending_addrRel (s : State) (b : Bool) : (s.setNmiPending b).addrRel = s.addrRel := rfl
@[simp] theorem State.setNmiPending_addrTemp (s : State) (b : Bool) : (s.setNmiPending b).addrTemp = s.addrTemp := rfl
@[simp] theorem State.setNmiPending_cycles (s : State) (b : Bool) : (s.setNmiPending b).cycles = s.cycles := rfl
@[simp] theorem State.setNmiPending_totalCycles (s : State) (b : Bool) : (s.setNmiPending b).totalCycles = s.totalCycles := rfl
@[simp] theorem State.setNmiPending_nmiPending (s : State) (b : Bool) : (s.setNmiPending b).nmiPending = b := rfl
@[simp] theorem State.setNmiPending_irqPending (s : State) (b : Bool) : (s.setNmiPending b).irqPending = s.irqPending := rfl
@[simp] theorem State.setNmiPending_power (s : State) (b : Bool) : (s.setNmiPending b).power = s.power := rfl
@[simp] theorem State.setNmiPending_mem (s : State) (b : Bool) : (s.setNmiPending b).mem = s.mem := rfl
@[simp] theorem State.setNmiPending_regions (s : State) (b : Bool) : (s.setNmiPending b).regions = s.regions := rfl
@[simp] theorem State.setNmiPending_deviceState (s : State) (b : Bool) : (s.setNmiPending b).deviceState = s.deviceState := rfl
@[simp] theorem State.setNmiPending_busLog (s : State) (b : Bool) : (s.setNmiPending b).busLog = s.busLog := rfl
@[simp] theorem State.setNmiPending_flag (s : State) (b : Bool) (f : Flag) : (s.setNmiPending b).flag f = s.flag f := rfl
@[simp] theorem State.setNmiPending_kindAt (s : State) (b : Bool) (a : Addr) : (s.setNmiPending b).kindAt a = s.kindAt a := rfl
@[simp] theorem State.setNmiPending_peek (s : State) (b : Bool) (a : Addr) : (s.setNmiPending b).peek a = s.peek a := rfl
@[simp] theorem State.setNmiPending_deviceAfterRead (s : State) (b : Bool) (a : Addr) : (s.setNmiPending b).deviceAfterRead a = s.deviceAfterRead a := rfl
@[simp] theorem State.setNmiPending_deviceAfterWrite (s : State) (b : Bool) (a : Addr) (w : Byte) : (s.setNmiPending b).deviceAfterWrite a w = s.deviceAfterWrite a w := rfl
@[simp] theorem State.setNmiPending_memAfterWrite (s : State) (b : Bool) (a : Addr) (w : Byte) :
    (s.setNmiPending b).memAfterWrite a w = s.memAfterWrite a w := rfl

/-! `State.setIrqPending` -/

@[simp] theorem State.setIrqPending_a (s : State) (b : Bool) : (s.setIrqPending b).a = s.a := rfl
@[simp] theorem State.setIrqPending_x (s : State) (b : Bool) : (s.setIrqPending b).x = s.x := rfl
@[simp] theorem State.setIrqPending_y (s : State) (b : Bool) : (s.setIrqPending b).y = s.y := rfl
@[simp] theorem State.setIrqPending_sp (s : State) (b : Bool) : (s.setIrqPending b).sp = s.sp := rfl
@[simp] theorem State.setIrqPending_p (s : State) (b : Bool) : (s.setIrqPending b).p = s.p := rfl
@[simp] theorem State.setIrqPending_pc (s : State) (b : Bool) : (s.setIrqPending b).pc = s.pc := rfl
@[simp] theorem State.setIrqPending_fetched (s : State) (b : Bool) : (s.setIrqPending b).fetched = s.fetched := rfl
@[simp] theorem State.setIrqPending_addrAbs (s : State) (b : Bool) : (s.setIrqPending b).addrAbs = s.addrAbs := rfl
@[simp] theorem State.setIrqPending_addrRel (s : State) (b : Bool) : (s.setIrqPending b).addrRel = s.addrRel := rfl
@[simp] theorem State.setIrqPending_addrTemp (s : State) (b : Bool) : (s.setIrqPending b).addrTemp = s.addrTemp := rfl
@[simp] theorem State.setIrqPending_cycles (s : State) (b : Bool) : (s.setIrqPending b).cycles = s.cycles := rfl
@[simp] theorem State.setIrqPending_totalCycles (s : State) (b : Bool) : (s.setIrqPending b).totalCycles = s.totalCycles := rfl
@[simp] theorem State.setIrqPending_nmiPending (s : State) (b : Bool) : (s.setIrqPending b).nmiPending = s.nmiPending := rfl
@[simp] theorem State.setIrqPending_irqPending (s : State) (b : Bool) : (s.setIrqPending b).irqPending = b := rfl
@[simp] theorem State.setIrqPending_power (s : State) (b : Bool) : (s.setIrqPending b).power = s.power := rfl
@[simp] theorem State.setIrqPending_mem (s : State) (b : Bool) : (s.setIrqPending b).mem = s.mem := rfl
@[simp] theorem State.setIrqPending_regions (s : State) (b : Bool) : (s.setIrqPending b).regions = s.regions := rfl
@[simp] theorem State.setIrqPending_deviceState (s : State) (b : Bool) : (s.setIrqPending b).deviceState = s.deviceState := rfl
@[simp] theorem State.setIrqPending_busLog (s : State) (b : Bool) : (s.setIrqPending b).busLog = s.busLog := rfl
@[simp] theorem State.setIrqPending_flag (s : State) (b : Bool) (f : Flag) : (s.setIrqPending b).flag f = s.flag f := rfl
@[simp] theorem State.setIrqPending_kindAt (s : State) (b : Bool) (a : Addr) : (s.setIrqPending b).kindAt a = s.kindAt a := rfl
@[simp] theorem State.setIrqPending_peek (s : State) (b : Bool) (a : Addr) : (s.setIrqPending b).peek a = s.peek a := rfl
@[simp] theorem State.setIrqPending_deviceAfterRead (s : State) (b : Bool) (a : Addr) : (s.setIrqPending b).deviceAfterRead a = s.deviceAfterRead a := rfl
@[simp] theorem State.setIrqPending_deviceAfterWrite (s : State) (b : Bool) (a : Addr) (w : Byte) : (s.setIrqPending b).deviceAfterWrite a w = s.deviceAfterWrite a w := rfl
@[simp] theorem State.setIrqPending_memAfterWrite (s : State) (b : Bool) (a : Addr) (w : Byte) :
    (s.setIrqPending b).memAfterWrite a w = s.memAfterWrite a w := rfl

/-! `State.clearLog` -/

@[simp] theorem State.clearLog_a (s : State) : s.clearLog.a = s.a := rfl
@[simp] theorem State.clearLog_x (s : State) : s.clearLog.x = s.x := rfl
@[simp] theorem State.clearLog_y (s : State) : s.clearLog.y = s.y := rfl
@[simp] theorem State.clearLog_sp (s : State) : s.clearLog.sp = s.sp := rfl
@[simp] theorem State.clearLog_p (s : State) : s.clearLog.p = s.p := rfl
@[simp] theorem State.clearLog_pc (s : State) : s.clearLog.pc = s.pc := rfl
@[simp] theorem State.clearLog_fetched (s : State) : s.clearLog.fetched = s.fetched := rfl
@[simp] theorem State.clearLog_addrAbs (s : State) : s.clearLog.addrAbs = s.addrAbs := rfl
@[simp] theorem State.clearLog_addrRel (s : State) : s.clearLog.addrRel = s.addrRel := rfl
@[simp] theorem State.clearLog_addrTemp (s : State) : s.clearLog.addrTemp = s.addrTemp := rfl
@[simp] theorem State.clearLog_cycles (s : State) : s.clearLog.cycles = s.cycles := rfl
@[simp] theorem State.clearLog_totalCycles (s : State) : s.clearLog.totalCycles = s.totalCycles := rfl
@[simp] theorem State.clearLog_nmiPending (s : State) : s.clearLog.nmiPending = s.nmiPending := rfl
@[simp] theorem State.clearLog_irqPending (s : State) : s.clearLog.irqPending = s.irqPending := rfl
@[simp] theorem State.clearLog_power (s : State) : s.clearLog.power = s.power := rfl
@[simp] theorem State.clearLog_mem (s : State) : s.clearLog.mem = s.mem := rfl
@[simp] theorem State.clearLog_regions (s : State) : s.clearLog.regions = s.regions := rfl
@[simp] theorem State.clearLog_deviceState (s : State) : s.clearLog.deviceState = s.deviceState := rfl
@[simp] theorem State.clearLog_busLog (s : State) : s.clearLog.busLog = [] := rfl
@[simp] theorem State.clearLog_flag (s : State) (f : Flag) : s.clearLog.flag f = s.flag f := rfl
@[simp] theorem State.clearLog_kindAt (s : State) (a : Addr) : s.clearLog.kindAt a = s.kindAt a := rfl
@[simp] theorem State.clearLog_peek (s : State) (a : Addr) : s.clearLog.peek a = s.peek a := rfl
@[simp] theorem State.clearLog_deviceAfterRead (s : State) (a : Addr) : s.clearLog.deviceAfterRead a = s.deviceAfterRead a := rfl
@[simp] theorem State.clearLog_deviceAfterWrite (s : State) (a : Addr) (w : Byte) : s.clearLog.deviceAfterWrite a w = s.deviceAfterWrite a w := rfl
@[simp] theorem State.clearLog_memAfterWrite (s : State) (a : Addr) (w : Byte) :
    s.clearLog.memAfterWrite a w = s.memAfterWrite a w := rfl

/-! `State.countTick` -/

@[simp] theorem State.countTick_a (s : State) : s.countTick.a = s.a := rfl
@[simp] theorem State.countTick_x (s : State) : s.countTick.x = s.x := rfl
@[simp] theorem State.countTick_y (s : State) : s.countTick.y = s.y := rfl
@[simp] theorem State.countTick_sp (s : State) : s.countTick.sp = s.sp := rfl
@[simp] theorem State.countTick_p (s : State) : s.countTick.p = s.p := rfl
@[simp] theorem State.countTick_pc (s : State) : s.countTick.pc = s.pc := rfl
@[simp] theorem State.countTick_fetched (s : State) : s.countTick.fetched = s.fetched := rfl
@[simp] theorem State.countTick_addrAbs (s : State) : s.countTick.addrAbs = s.addrAbs := rfl
@[simp] theorem State.countTick_addrRel (s : State) : s.countTick.addrRel = s.addrRel := rfl
@[simp] theorem State.countTick_addrTemp (s : State) : s.countTick.addrTemp = s.addrTemp := rfl
@[simp] theorem State.countTick_cycles (s : State) : s.countTick.cycles = s.cycles - 1 := rfl
@[simp] theorem State.countTick_totalCycles (s : State) : s.countTick.totalCycles = s.totalCycles + 1#64 := rfl
@[simp] theorem State.countTick_nmiPending (s : State) : s.countTick.nmiPending = s.nmiPending := rfl
@[simp] theorem State.countTick_irqPending (s : State) : s.countTick.irqPending = s.irqPending := rfl
@[simp] theorem State.countTick_power (s : State) : s.countTick.power = s.power := rfl
@[simp] theorem State.countTick_mem (s : State) : s.countTick.mem = s.mem := rfl
@[simp] theorem State.countTick_regions (s : State) : s.countTick.regions = s.regions := rfl
@[simp] theorem State.countTick_deviceState (s : State) : s.countTick.deviceState = s.deviceState := rfl
@[simp] theorem State.countTick_busLog (s : State) : s.countTick.busLog = s.busLog := rfl
@[simp] theorem State.countTick_flag (s : State) (f : Flag) : s.countTick.flag f = s.flag f := rfl
@[simp] theorem State.countTick_kindAt (s : State) (a : Addr) : s.countTick.kindAt a = s.kindAt a := rfl
@[simp] theorem State.countTick_peek (s : State) (a : Addr) : s.countTick.peek a = s.peek a := rfl
@[simp] theorem State.countTick_deviceAfterRead (s : State) (a : Addr) : s.countTick.deviceAfterRead a = s.deviceAfterRead a := rfl
@[simp] theorem State.countTick_deviceAfterWrite (s : State) (a : Addr) (w : Byte) : s.countTick.deviceAfterWrite a w = s.deviceAfterWrite a w := rfl
@[simp] theorem State.countTick_memAfterWrite (s : State) (a : Addr) (w : Byte) :
    s.countTick.memAfterWrite a w = s.memAfterWrite a w := rfl

/-! `State.charge` -/

@[simp] theorem State.charge_a (s : State) (m : Mnemonic) (o : Mode) (c : Bool) (e : Nat) : (s.charge m o c e).a = s.a := rfl
@[simp] theorem State.charge_x (s : State) (m : Mnemonic) (o : Mode) (c : Bool) (e : Nat) : (s.charge m o c e).x = s.x := rfl
@[simp] theorem State.charge_y (s : State) (m : Mnemonic) (o : Mode) (c : Bool) (e : Nat) : (s.charge m o c e).y = s.y := rfl
@[simp] theorem State.charge_sp (s : State) (m : Mnemonic) (o : Mode) (c : Bool) (e : Nat) : (s.charge m o c e).sp = s.sp := rfl
@[simp] theorem State.charge_p (s : State) (m : Mnemonic) (o : Mode) (c : Bool) (e : Nat) : (s.charge m o c e).p = s.p := rfl
@[simp] theorem State.charge_pc (s : State) (m : Mnemonic) (o : Mode) (c : Bool) (e : Nat) : (s.charge m o c e).pc = s.pc := rfl
@[simp] theorem State.charge_fetched (s : State) (m : Mnemonic) (o : Mode) (c : Bool) (e : Nat) : (s.charge m o c e).fetched = s.fetched := rfl
@[simp] theorem State.charge_addrAbs (s : State) (m : Mnemonic) (o : Mode) (c : Bool) (e : Nat) : (s.charge m o c e).addrAbs = s.addrAbs := rfl
@[simp] theorem State.charge_addrRel (s : State) (m : Mnemonic) (o : Mode) (c : Bool) (e : Nat) : (s.charge m o c e).addrRel = s.addrRel := rfl
@[simp] theorem State.charge_addrTemp (s : State) (m : Mnemonic) (o : Mode) (c : Bool) (e : Nat) : (s.charge m o c e).addrTemp = s.addrTemp := rfl
@[simp] theorem State.charge_cycles (s : State) (m : Mnemonic) (o : Mode) (c : Bool) (e : Nat) : (s.charge m o c e).cycles = cost m o c e := rfl
@[simp] theorem State.charge_totalCycles (s : State) (m : Mnemonic) (o : Mode) (c : Bool) (e : Nat) : (s.charge m o c e).totalCycles = s.totalCycles := rfl
@[simp] theorem State.charge_nmiPending (s : State) (m : Mnemonic) (o : Mode) (c : Bool) (e : Nat) : (s.charge m o c e).nmiPending = s.nmiPending := rfl
@[simp] theorem State.charge_irqPending (s : State) (m : Mnemonic) (o : Mode) (c : Bool) (e : Nat) : (s.charge m o c e).irqPending = s.irqPending := rfl
@[simp] theorem State.charge_power (s : State) (m : Mnemonic) (o : Mode) (c : Bool) (e : Nat) : (s.charge m o c e).power = s.power := rfl
@[simp] theorem State.charge_mem (s : State) (m : Mnemonic) (o : Mode) (c : Bool) (e : Nat) : (s.charge m o c e).mem = s.mem := rfl
@[simp] theorem State.charge_regions (s : State) (m : Mnemonic) (o : Mode) (c : Bool) (e : Nat) : (s.charge m o c e).regions = s.regions := rfl
@[simp] theorem State.charge_deviceState (s : State) (m : Mnemonic) (o : Mode) (c : Bool) (e : Nat) : (s.charge m o c e).deviceState = s.deviceState := rfl
@[simp] theorem State.charge_busLog (s : State) (m : Mnemonic) (o : Mode) (c : Bool) (e : Nat) : (s.charge m o c e).busLog = s.busLog := rfl
@[simp] theorem State.charge_flag (s : State) (m : Mnemonic) (o : Mode) (c : Bool) (e : Nat) (f : Flag) : (s.charge m o c e).flag f = s.flag f := rfl
@[simp] theorem State.charge_kindAt (s : State) (m : Mnemonic) (o : Mode) (c : Bool) (e : Nat) (a : Addr) : (s.charge m o c e).kindAt a = s.kindAt a := rfl
@[simp] theorem State.charge_peek (s : State) (m : Mnemonic) (o : Mode) (c : Bool) (e : Nat) (a : Addr) : (s.charge m o c e).peek a = s.peek a := rfl
@[simp] theorem State.charge_deviceAfterRead (s : State) (m : Mnemonic) (o : Mode) (c : Bool) (e : Nat) (a : Addr) : (s.charge m o c e).deviceAfterRead a = s.deviceAfterRead a := rfl
@[simp] theorem State.charge_deviceAfterWrite (s : State) (m : Mnemonic) (o : Mode) (c : Bool) (e : Nat) (a : Addr) (w : Byte) : (s.charge m o c e).deviceAfterWrite a w = s.deviceAfterWrite a w := rfl
@[simp] theorem State.charge_memAfterWrite (s : State) (m : Mnemonic) (o : Mode) (c : Bool) (e : Nat) (a : Addr) (w : Byte) :
    (s.charge m o c e).memAfterWrite a w = s.memAfterWrite a w := rfl

/-! `State.setFlagTo` -/

@[simp] theorem State.setFlagTo_a (s : State) (f : Flag) (b : Bool) : (s.setFlagTo f b).a = s.a := rfl
@[simp] theorem State.setFlagTo_x (s : State) (f : Flag) (b : Bool) : (s.setFlagTo f b).x = s.x := rfl
@[simp] theorem State.setFlagTo_y (s : State) (f : Flag) (b : Bool) : (s.setFlagTo f b).y = s.y := rfl
@[simp] theorem State.setFlagTo_sp (s : State) (f : Flag) (b : Bool) : (s.setFlagTo f b).sp = s.sp := rfl
@[simp] theorem State.setFlagTo_p (s : State) (f : Flag) (b : Bool) : (s.setFlagTo f b).p = setFlag f b s.p := rfl
@[simp] theorem State.setFlagTo_pc (s : State) (f : Flag) (b : Bool) : (s.setFlagTo f b).pc = s.pc := rfl
@[simp] theorem State.setFlagTo_fetched (s : State) (f : Flag) (b : Bool) : (s.setFlagTo f b).fetched = s.fetched := rfl
@[simp] theorem State.setFlagTo_addrAbs (s : State) (f : Flag) (b : Bool) : (s.setFlagTo f b).addrAbs = s.addrAbs := rfl
@[simp] theorem State.setFlagTo_addrRel (s : State) (f : Flag) (b : Bool) : (s.setFlagTo f b).addrRel = s.addrRel := rfl
@[simp] theorem State.setFlagTo_addrTemp (s : State) (f : Flag) (b : Bool) : (s.setFlagTo f b).addrTemp = s.addrTemp := rfl
@[simp] theorem State.setFlagTo_cycles (s : State) (f : Flag) (b : Bool) : (s.setFlagTo f b).cycles = s.cycles := rfl
@[simp] theorem State.setFlagTo_totalCycles (s : State) (f : Flag) (b : Bool) : (s.setFlagTo f b).totalCycles = s.totalCycles := rfl
@[simp] theorem State.setFlagTo_nmiPending (s : State) (f : Flag) (b : Bool) : (s.setFlagTo f b).nmiPending = s.nmiPending := rfl
@[simp] theorem State.setFlagTo_irqPending (s : State) (f : Flag) (b : Bool) : (s.setFlagTo f b).irqPending = s.irqPending := rfl
@[simp] theorem State.setFlagTo_power (s : State) (f : Flag) (b : Bool) : (s.setFlagTo f b).power = s.power := rfl
@[simp] theorem State.setFlagTo_mem (s : State) (f : Flag) (b : Bool) : (s.setFlagTo f b).mem = s.mem := rfl
@[simp] theorem State.setFlagTo_regions (s : State) (f : Flag) (b : Bool) : (s.setFlagTo f b).regions = s.regions := rfl
@[simp] theorem State.setFlagTo_deviceState (s : State) (f : Flag) (b : Bool) : (s.setFlagTo f b).deviceState = s.deviceState := rfl
@[simp] theorem State.setFlagTo_busLog (s : State) (f : Flag) (b : Bool) : (s.setFlagTo f b).busLog = s.busLog := rfl
@[simp] theorem State.setFlagTo_kindAt (s : State) (f : Flag) (b : Bool) (a : Addr) : (s.setFlagTo f b).kindAt a = s.kindAt a := rfl
@[simp] theorem State.setFlagTo_peek (s : State) (f : Flag) (b : Bool) (a : Addr) : (s.setFlagTo f b).peek a = s.peek a := rfl
@[simp] theorem State.setFlagTo_deviceAfterRead (s : State) (f : Flag) (b : Bool) (a : Addr) : (s.setFlagTo f b).deviceAfterRead a = s.deviceAfterRead a := rfl
@[simp] theorem State.setFlagTo_deviceAfterWrite (s : State) (f : Flag) (b : Bool) (a : Addr) (w : Byte) : (s.setFlagTo f b).deviceAfterWrite a w = s.deviceAfterWrite a w := rfl
@[simp] theorem State.setFlagTo_memAfterWrite (s : State) (f : Flag) (b : Bool) (a : Addr) (w : Byte) :
    (s.setFlagTo f b).memAfterWrite a w = s.memAfterWrite a w := rfl

/-! `State.setZN` -/

@[simp] theorem State.setZN_a (s : State) (v : Byte) : (s.setZN v).a = s.a := rfl
@[simp] theorem State.setZN_x (s : State) (v : Byte) : (s.setZN v).x = s.x := rfl
@[simp] theorem State.setZN_y (s : State) (v : Byte) : (s.setZN v).y = s.y := rfl
@[simp] theorem State.setZN_sp (s : State) (v : Byte) : (s.setZN v).sp = s.sp := rfl
@[simp] theorem State.setZN_p (s : State) (v : Byte) : (s.setZN v).p = znOf v s.p := rfl
@[simp] theorem State.setZN_pc (s : State) (v : Byte) : (s.setZN v).pc = s.pc := rfl
@[simp] theorem State.setZN_fetched (s : State) (v : Byte) : (s.setZN v).fetched = s.fetched := rfl
@[simp] theorem State.setZN_addrAbs (s : State) (v : Byte) : (s.setZN v).addrAbs = s.addrAbs := rfl
@[simp] theorem State.setZN_addrRel (s : State) (v : Byte) : (s.setZN v).addrRel = s.addrRel := rfl
@[simp] theorem State.setZN_addrTemp (s : State) (v : Byte) : (s.setZN v).addrTemp = s.addrTemp := rfl
@[simp] theorem State.setZN_cycles (s : State) (v : Byte) : (s.setZN v).cycles = s.cycles := rfl
@[simp] theorem State.setZN_totalCycles (s : State) (v : Byte) : (s.setZN v).totalCycles = s.totalCycles := rfl
@[simp] theorem State.setZN_nmiPending (s : State) (v : Byte) : (s.setZN v).nmiPending = s.nmiPending := rfl
@[simp] theorem State.setZN_irqPending (s : State) (v : Byte) : (s.setZN v).irqPending = s.irqPending := rfl
@[simp] theorem State.setZN_power (s : State) (v : Byte) : (s.setZN v).power = s.power := rfl
@[simp] theorem State.setZN_mem (s : State) (v : Byte) : (s.setZN v).mem = s.mem := rfl
@[simp] theorem State.setZN_regions (s : State) (v : Byte) : (s.setZN v).regions = s.regions := rfl
@[simp] theorem State.setZN_deviceState (s : State) (v : Byte) : (s.setZN v).deviceState = s.deviceState := rfl
@[simp] theorem State.setZN_busLog (s : State) (v : Byte) : (s.setZN v).busLog = s.busLog := rfl
@[simp] theorem State.setZN_kindAt (s : State) (v : Byte) (a : Addr) : (s.setZN v).kindAt a = s.kindAt a := rfl
@[simp] theorem State.setZN_peek (s : State) (v : Byte) (a : Addr) : (s.setZN v).peek a = s.peek a := rfl
@[simp] theorem State.setZN_deviceAfterRead (s : State) (v : Byte) (a : Addr) : (s.setZN v).deviceAfterRead a = s.deviceAfterRead a := rfl
@[simp] theorem State.setZN_deviceAfterWrite (s : State) (v : Byte) (a : Addr) (w : Byte) : (s.setZN v).deviceAfterWrite a w = s.deviceAfterWrite a w := rfl
@[simp] theorem State.setZN_memAfterWrite (s : State) (v : Byte) (a : Addr) (w : Byte) :
    (s.setZN v).memAfterWrite a w = s.memAfterWrite a w := rfl

/-! `State.afterRead` -/

@[simp] theorem State.afterRead_a (s : State) (r : Addr) : (s.afterRead r).a = s.a := rfl
@[simp] theorem State.afterRead_x (s : State) (r : Addr) : (s.afterRead r).x = s.x := rfl
@[simp] theorem State.afterRead_y (s : State) (r : Addr) : (s.afterRead r).y = s.y := rfl
@[simp] theorem State.afterRead_sp (s : State) (r : Addr) : (s.afterRead r).sp = s.sp := rfl
@[simp] theorem State.afterRead_p (s : State) (r : Addr) : (s.afterRead r).p = s.p := rfl
@[simp] theorem State.afterRead_pc (s : State) (r : Addr) : (s.afterRead r).pc = s.pc := rfl
@[simp] theorem State.afterRead_fetched (s : State) (r : Addr) : (s.afterRead r).fetched = s.fetched := rfl
@[simp] theorem State.afterRead_addrAbs (s : State) (r : Addr) : (s.afterRead r).addrAbs = s.addrAbs := rfl
@[simp] theorem State.afterRead_addrRel (s : State) (r : Addr) : (s.afterRead r).addrRel = s.addrRel := rfl
@[simp] theorem State.afterRead_addrTemp (s : State) (r : Addr) : (s.afterRead r).addrTemp = s.addrTemp := rfl
@[simp] theorem State.afterRead_cycles (s : State) (r : Addr) : (s.afterRead r).cycles = s.cycles := rfl
@[simp] theorem State.afterRead_totalCycles (s : State) (r : Addr) : (s.afterRead r).totalCycles = s.totalCycles := rfl
@[simp] theorem State.afterRead_nmiPending (s : State) (r : Addr) : (s.afterRead r).nmiPending = s.nmiPending := rfl
@[simp] theorem State.afterRead_irqPending (s : State) (r : Addr) : (s.afterRead r).irqPending = s.irqPending := rfl
@[simp] theorem State.afterRead_power (s : State) (r : Addr) : (s.afterRead r).power = s.power := rfl
@[simp] theorem State.afterRead_mem (s : State) (r : Addr) : (s.afterRead r).mem = s.mem := rfl
@[simp] theorem State.afterRead_regions (s : State) (r : Addr) : (s.afterRead r).regions = s.regions := rfl
@[simp] theorem State.afterRead_deviceState (s : State) (r : Addr) : (s.afterRead r).deviceState = s.deviceAfterRead r := rfl
@[simp] theorem State.afterRead_busLog (s : State) (r : Addr) : (s.afterRead r).busLog = s.busLog ++ [.read r (s.peek r)] := rfl
@[simp] theorem State.afterRead_flag (s : State) (r : Addr) (f : Flag) : (s.afterRead r).flag f = s.flag f := rfl
@[simp] theorem State.afterRead_kindAt (s : State) (r : Addr) (a : Addr) : (s.afterRead r).kindAt a = s.kindAt a := rfl
@[simp] theorem State.afterRead_memAfterWrite (s : State) (r : Addr) (a : Addr) (w : Byte) :
    (s.afterRead r).memAfterWrite a w = s.memAfterWrite a w := rfl

/-! `State.write8` -/

@[simp] theorem State.write8_a (s : State) (r : Addr) (v : Byte) : (s.write8 r v).a = s.a := rfl
@[simp] theorem State.write8_x (s : State) (r : Addr) (v : Byte) : (s.write8 r v).x = s.x := rfl
@[simp] theorem State.write8_y (s : State) (r : Addr) (v : Byte) : (s.write8 r v).y = s.y := rfl
@[simp] theorem State.write8_sp (s : State) (r : Addr) (v : Byte) : (s.write8 r v).sp = s.sp := rfl
@[simp] theorem State.write8_p (s : State) (r : Addr) (v : Byte) : (s.write8 r v).p = s.p := rfl
@[simp] theorem State.write8_pc (s : State) (r : Addr) (v : Byte) : (s.write8 r v).pc = s.pc := rfl
@[simp] theorem State.write8_fetched (s : State) (r : Addr) (v : Byte) : (s.write8 r v).fetched = s.fetched := rfl
@[simp] theorem State.write8_addrAbs (s : State) (r : Addr) (v : Byte) : (s.write8 r v).addrAbs = s.addrAbs := rfl
@[simp] theorem State.write8_addrRel (s : State) (r : Addr) (v : Byte) : (s.write8 r v).addrRel = s.addrRel := rfl
@[simp] theorem State.write8_addrTemp (s : State) (r : Addr) (v : Byte) : (s.write8 r v).addrTemp = s.addrTemp := rfl
@[simp] theorem State.write8_cycles (s : State) (r : Addr) (v : Byte) : (s.write8 r v).cycles = s.cycles := rfl
@[simp] theorem State.write8_totalCycles (s : State) (r : Addr) (v : Byte) : (s.write8 r v).totalCycles = s.totalCycles := rfl
@[simp] theorem State.write8_nmiPending (s : State) (r : Addr) (v : Byte) : (s.write8 r v).nmiPending = s.nmiPending := rfl
@[simp] theorem State.write8_irqPending (s : State) (r : Addr) (v : Byte) : (s.write8 r v).irqPending = s.irqPending := rfl
@[simp] theorem State.write8_power (s : State) (r : Addr) (v : Byte) : (s.write8 r v).power = s.power := rfl
@[simp] theorem State.write8_mem (s : State) (r : Addr) (v : Byte) : (s.write8 r v).mem = s.memAfterWrite r v := rfl
@[simp] theorem State.write8_regions (s : State) (r : Addr) (v : Byte) : (s.write8 r v).regions = s.regions := rfl
@[simp] theorem State.write8_deviceState (s : State) (r : Addr) (v : Byte) : (s.write8 r v).deviceState = s.deviceAfterWrite r v := rfl
@[simp] theorem State.write8_busLog (s : State) (r : Addr) (v : Byte) : (s.write8 r v).busLog = s.busLog ++ [.write r v] := rfl
@[simp] theorem State.write8_flag (s : State) (r : Addr) (v : Byte) (f : Flag) : (s.write8 r v).flag f = s.flag f := rfl
@[simp] theorem State.write8_kindAt (s : State) (r : Addr) (v : Byte) (a : Addr) : (s.write8 r v).kindAt a = s.kindAt a := rfl

/-! `State.push` -/

@[simp] theorem State.push_a (s : State) (v : Byte) : (s.push v).a = s.a := rfl
@[simp] theorem State.push_x (s : State) (v : Byte) : (s.push v).x = s.x := rfl
@[simp] theorem State.push_y (s : State) (v : Byte) : (s.push v).y = s.y := rfl
@[simp] theorem State.push_sp (s : State) (v : Byte) : (s.push v).sp = s.sp - 1#8 := rfl
@[simp] theorem State.push_p (s : State) (v : Byte) : (s.push v).p = s.p := rfl
@[simp] theorem State.push_pc (s : State) (v : Byte) : (s.push v).pc = s.pc := rfl
@[simp] theorem State.push_fetched (s : State) (v : Byte) : (s.push v).fetched = s.fetched := rfl
@[simp] theorem State.push_addrAbs (s : State) (v : Byte) : (s.push v).addrAbs = s.addrAbs := rfl
@[simp] theorem State.push_addrRel (s : State) (v : Byte) : (s.push v).addrRel = s.addrRel := rfl
@[simp] theorem State.push_addrTemp (s : State) (v : Byte) : (s.push v).addrTemp = s.addrTemp := rfl
@[simp] theorem State.push_cycles (s : State) (v : Byte) : (s.push v).cycles = s.cycles := rfl
@[simp] theorem State.push_totalCycles (s : State) (v : Byte) : (s.push v).totalCycles = s.totalCycles := rfl
@[simp] theorem State.push_nmiPending (s : State) (v : Byte) : (s.push v).nmiPending = s.nmiPending := rfl
@[simp] theorem State.push_irqPending (s : State) (v : Byte) : (s.push v).irqPending = s.irqPending := rfl
@[simp] theorem State.push_power (s : State) (v : Byte) : (s.push v).power = s.power := rfl
@[simp] theorem State.push_mem (s : State) (v : Byte) : (s.push v).mem = s.memAfterWrite (stackAddr s.sp) v := rfl
@[simp] theorem State.push_regions (s : State) (v : Byte) : (s.push v).regions = s.regions := rfl
@[simp] theorem State.push_deviceState (s : State) (v : Byte) : (s.push v).deviceState = s.deviceAfterWrite (stackAddr s.sp) v := rfl
@[simp] theorem State.push_busLog (s : State) (v : Byte) : (s.push v).busLog = s.busLog ++ [.write (stackAddr s.sp) v] := rfl
@[simp] theorem State.push_flag (s : State) (v : Byte) (f : Flag) : (s.push v).flag f = s.flag f := rfl
@[simp] theorem State.push_kindAt (s : State) (v : Byte) (a : Addr) : (s.push v).kindAt a = s.kindAt a := rfl

/-! `State.pullSp` -/

@[simp] theorem State.pullSp_a (s : State) : s.pullSp.a = s.a := rfl
@[simp] theorem State.pullSp_x (s : State) : s.pullSp.x = s.x := rfl
@[simp] theorem State.pullSp_y (s : State) : s.pullSp.y = s.y := rfl
@[simp] theorem State.pullSp_sp (s : State) : s.pullSp.sp = s.sp + 1#8 := rfl
@[simp] theorem State.pullSp_p (s : State) : s.pullSp.p = s.p := rfl
@[simp] theorem State.pullSp_pc (s : State) : s.pullSp.pc = s.pc := rfl
@[simp] theorem State.pullSp_fetched (s : State) : s.pullSp.fetched = s.fetched := rfl
@[simp] theorem State.pullSp_addrAbs (s : State) : s.pullSp.addrAbs = s.addrAbs := rfl
@[simp] theorem State.pullSp_addrRel (s : State) : s.pullSp.addrRel = s.addrRel := rfl
@[simp] theorem State.pullSp_addrTemp (s : State) : s.pullSp.addrTemp = s.addrTemp := rfl
@[simp] theorem State.pullSp_cycles (s : State) : s.pullSp.cycles = s.cycles := rfl
@[simp] theorem State.pullSp_totalCycles (s : State) : s.pullSp.totalCycles = s.totalCycles := rfl
@[simp] theorem State.pullSp_nmiPending (s : State) : s.pullSp.nmiPending = s.nmiPending := rfl
@[simp] theorem State.pullSp_irqPending (s : State) : s.pullSp.irqPending = s.irqPending := rfl
@[simp] theorem State.pullSp_power (s : State) : s.pullSp.power = s.power := rfl
@[simp] theorem State.pullSp_mem (s : State) : s.pullSp.mem = s.mem := rfl
@[simp] theorem State.pullSp_regions (s : State) : s.pullSp.regions = s.regions := rfl
@[simp] theorem State.pullSp_deviceState (s : State) : s.pullSp.deviceState = s.deviceState := rfl
@[simp] theorem State.pullSp_busLog (s : State) : s.pullSp.busLog = s.busLog := rfl
@[simp] theorem State.pullSp_flag (s : State) (f : Flag) : s.pullSp.flag f = s.flag f := rfl
@[simp] theorem State.pullSp_kindAt (s : State) (a : Addr) : s.pullSp.kindAt a = s.kindAt a := rfl
@[simp] theorem State.pullSp_peek (s : State) (a : Addr) : s.pullSp.peek a = s.peek a := rfl
@[simp] theorem State.pullSp_deviceAfterRead (s : State) (a : Addr) : s.pullSp.deviceAfterRead a = s.deviceAfterRead a := rfl
@[simp] theorem State.pullSp_deviceAfterWrite (s : State) (a : Addr) (w : Byte) : s.pullSp.deviceAfterWrite a w = s.deviceAfterWrite a w := rfl
@[simp] theorem State.pullSp_memAfterWrite (s : State) (a : Addr) (w : Byte) :
    s.pullSp.memAfterWrite a w = s.memAfterWrite a w := rfl

/-! A status byte set into P is what the flags are then read from. -/

@[simp] theorem State.setP_flag (s : State) (v : Byte) (f : Flag) : (s.setP v).flag f = getFlag f v := rfl
@[simp] theorem State.setFlagTo_flag (s : State) (f : Flag) (b : Bool) (g : Flag) :
    (s.setFlagTo f b).flag g = getFlag g (setFlag f b s.p) := rfl
@[simp] theorem State.setZN_flag (s : State) (v : Byte) (f : Flag) :
    (s.setZN v).flag f = getFlag f (znOf v s.p) := rfl

/-! Reads and pulls answer a byte and leave a state. -/

@[simp] theorem State.read8_fst (s : State) (a : Addr) : (s.read8 a).1 = s.peek a := rfl
@[simp] theorem State.read8_snd (s : State) (a : Addr) : (s.read8 a).2 = s.afterRead a := rfl
@[simp] theorem State.pull_fst (s : State) : s.pull.1 = s.peek (stackAddr (s.sp + 1#8)) := rfl
@[simp] theorem State.pull_snd (s : State) : s.pull.2 = s.pullSp.afterRead (stackAddr (s.sp + 1#8)) := rfl
@[simp] theorem State.readWord_fst (s : State) (lo hi : Addr) :
    (s.readWord lo hi).1 = word ((s.afterRead lo).peek hi) (s.peek lo) := rfl
@[simp] theorem State.readWord_snd (s : State) (lo hi : Addr) :
    (s.readWord lo hi).2 = (s.afterRead lo).afterRead hi := rfl
@[simp] theorem State.read16_fst (s : State) (a : Addr) :
    (s.read16 a).1 = word ((s.afterRead a).peek (a + 1#16)) (s.peek a) := rfl
@[simp] theorem State.read16_snd (s : State) (a : Addr) :
    (s.read16 a).2 = (s.afterRead a).afterRead (a + 1#16) := rfl

end Sys2Proof.Machine
end

