-- ==== Sys2Proof/Laws/Operands.lean ====
section
/-! SUPPORT. What the resolvers, the operand read and the compound operations leave in each field. -/

namespace Sys2Proof.Machine

/-! The resolver writes latches and reads pointer bytes; nothing else changes (41_addressing_modes.md R164). -/

@[simp] theorem State.resolve_a (s : State) (o : Operand) : (s.resolve o).2.a = s.a := by cases o <;> rfl
@[simp] theorem State.resolve_x (s : State) (o : Operand) : (s.resolve o).2.x = s.x := by cases o <;> rfl
@[simp] theorem State.resolve_y (s : State) (o : Operand) : (s.resolve o).2.y = s.y := by cases o <;> rfl
@[simp] theorem State.resolve_sp (s : State) (o : Operand) : (s.resolve o).2.sp = s.sp := by cases o <;> rfl
@[simp] theorem State.resolve_p (s : State) (o : Operand) : (s.resolve o).2.p = s.p := by cases o <;> rfl
@[simp] theorem State.resolve_pc (s : State) (o : Operand) : (s.resolve o).2.pc = s.pc := by cases o <;> rfl
@[simp] theorem State.resolve_addrTemp (s : State) (o : Operand) : (s.resolve o).2.addrTemp = s.addrTemp := by cases o <;> rfl
@[simp] theorem State.resolve_cycles (s : State) (o : Operand) : (s.resolve o).2.cycles = s.cycles := by cases o <;> rfl
@[simp] theorem State.resolve_totalCycles (s : State) (o : Operand) : (s.resolve o).2.totalCycles = s.totalCycles := by cases o <;> rfl
@[simp] theorem State.resolve_nmiPending (s : State) (o : Operand) : (s.resolve o).2.nmiPending = s.nmiPending := by cases o <;> rfl
@[simp] theorem State.resolve_irqPending (s : State) (o : Operand) : (s.resolve o).2.irqPending = s.irqPending := by cases o <;> rfl
@[simp] theorem State.resolve_power (s : State) (o : Operand) : (s.resolve o).2.power = s.power := by cases o <;> rfl
@[simp] theorem State.resolve_mem (s : State) (o : Operand) : (s.resolve o).2.mem = s.mem := by cases o <;> rfl
@[simp] theorem State.resolve_regions (s : State) (o : Operand) : (s.resolve o).2.regions = s.regions := by cases o <;> rfl
@[simp] theorem State.resolve_flag (s : State) (o : Operand) (f : Flag) : (s.resolve o).2.flag f = s.flag f := by
  cases o <;> rfl
@[simp] theorem State.resolve_kindAt (s : State) (o : Operand) (a : Addr) : (s.resolve o).2.kindAt a = s.kindAt a := by
  cases o <;> rfl

/-! `Fetch()` reads one byte; only the latch and the bus's own fields change (40_execution_cycle.md R126). -/

@[simp] theorem State.fetchOperand_a (s : State) (m : Mode) : (s.fetchOperand m).2.a = s.a := by cases m <;> rfl
@[simp] theorem State.fetchOperand_x (s : State) (m : Mode) : (s.fetchOperand m).2.x = s.x := by cases m <;> rfl
@[simp] theorem State.fetchOperand_y (s : State) (m : Mode) : (s.fetchOperand m).2.y = s.y := by cases m <;> rfl
@[simp] theorem State.fetchOperand_sp (s : State) (m : Mode) : (s.fetchOperand m).2.sp = s.sp := by cases m <;> rfl
@[simp] theorem State.fetchOperand_p (s : State) (m : Mode) : (s.fetchOperand m).2.p = s.p := by cases m <;> rfl
@[simp] theorem State.fetchOperand_pc (s : State) (m : Mode) : (s.fetchOperand m).2.pc = s.pc := by cases m <;> rfl
@[simp] theorem State.fetchOperand_addrTemp (s : State) (m : Mode) : (s.fetchOperand m).2.addrTemp = s.addrTemp := by cases m <;> rfl
@[simp] theorem State.fetchOperand_cycles (s : State) (m : Mode) : (s.fetchOperand m).2.cycles = s.cycles := by cases m <;> rfl
@[simp] theorem State.fetchOperand_totalCycles (s : State) (m : Mode) : (s.fetchOperand m).2.totalCycles = s.totalCycles := by cases m <;> rfl
@[simp] theorem State.fetchOperand_nmiPending (s : State) (m : Mode) : (s.fetchOperand m).2.nmiPending = s.nmiPending := by cases m <;> rfl
@[simp] theorem State.fetchOperand_irqPending (s : State) (m : Mode) : (s.fetchOperand m).2.irqPending = s.irqPending := by cases m <;> rfl
@[simp] theorem State.fetchOperand_power (s : State) (m : Mode) : (s.fetchOperand m).2.power = s.power := by cases m <;> rfl
@[simp] theorem State.fetchOperand_mem (s : State) (m : Mode) : (s.fetchOperand m).2.mem = s.mem := by cases m <;> rfl
@[simp] theorem State.fetchOperand_regions (s : State) (m : Mode) : (s.fetchOperand m).2.regions = s.regions := by cases m <;> rfl
@[simp] theorem State.fetchOperand_addrAbs (s : State) (m : Mode) : (s.fetchOperand m).2.addrAbs = s.addrAbs := by cases m <;> rfl
@[simp] theorem State.fetchOperand_addrRel (s : State) (m : Mode) : (s.fetchOperand m).2.addrRel = s.addrRel := by cases m <;> rfl
@[simp] theorem State.fetchOperand_flag (s : State) (m : Mode) (f : Flag) :
    (s.fetchOperand m).2.flag f = s.flag f := by cases m <;> rfl
@[simp] theorem State.fetchOperand_kindAt (s : State) (m : Mode) (a : Addr) :
    (s.fetchOperand m).2.kindAt a = s.kindAt a := by cases m <;> rfl

/-- In a memory mode the operand is the byte at EA, and the read is one bus call. -/
theorem State.fetchOperand_inMemory {m : Mode} (h : m.inMemory = true) (s : State) :
    s.fetchOperand m = (s.peek s.addrAbs, (s.afterRead s.addrAbs).setFetched (s.peek s.addrAbs)) := by
  cases m <;> first | rfl | simp [Mode.inMemory] at h

/-- In the other modes the operand is the latch, and there is no bus call. -/
theorem State.fetchOperand_latch {m : Mode} (h : m.inMemory = false) (s : State) :
    s.fetchOperand m = (s.fetched, s) := by
  cases m <;> first | rfl | simp [Mode.inMemory] at h

/-- The write-back in mode ACC goes to A. -/
@[simp] theorem State.writeBack_acc (s : State) (v : Byte) : s.writeBack v .acc = s.setA v := rfl

/-- The write-back in any other mode is one bus write to `addr_abs`. -/
theorem State.writeBack_notAcc {m : Mode} (h : m ≠ .acc) (s : State) (v : Byte) :
    s.writeBack v m = s.write8 s.addrAbs v := by
  cases m <;> first | rfl | exact absurd rfl h

/-! The write-back changes A, or one byte of memory and the bus's own fields. -/

@[simp] theorem State.writeBack_x (s : State) (v : Byte) (m : Mode) : (s.writeBack v m).x = s.x := by cases m <;> rfl
@[simp] theorem State.writeBack_y (s : State) (v : Byte) (m : Mode) : (s.writeBack v m).y = s.y := by cases m <;> rfl
@[simp] theorem State.writeBack_sp (s : State) (v : Byte) (m : Mode) : (s.writeBack v m).sp = s.sp := by cases m <;> rfl
@[simp] theorem State.writeBack_p (s : State) (v : Byte) (m : Mode) : (s.writeBack v m).p = s.p := by cases m <;> rfl
@[simp] theorem State.writeBack_pc (s : State) (v : Byte) (m : Mode) : (s.writeBack v m).pc = s.pc := by cases m <;> rfl
@[simp] theorem State.writeBack_addrTemp (s : State) (v : Byte) (m : Mode) : (s.writeBack v m).addrTemp = s.addrTemp := by cases m <;> rfl
@[simp] theorem State.writeBack_cycles (s : State) (v : Byte) (m : Mode) : (s.writeBack v m).cycles = s.cycles := by cases m <;> rfl
@[simp] theorem State.writeBack_totalCycles (s : State) (v : Byte) (m : Mode) : (s.writeBack v m).totalCycles = s.totalCycles := by cases m <;> rfl
@[simp] theorem State.writeBack_nmiPending (s : State) (v : Byte) (m : Mode) : (s.writeBack v m).nmiPending = s.nmiPending := by cases m <;> rfl
@[simp] theorem State.writeBack_irqPending (s : State) (v : Byte) (m : Mode) : (s.writeBack v m).irqPending = s.irqPending := by cases m <;> rfl
@[simp] theorem State.writeBack_power (s : State) (v : Byte) (m : Mode) : (s.writeBack v m).power = s.power := by cases m <;> rfl
@[simp] theorem State.writeBack_regions (s : State) (v : Byte) (m : Mode) : (s.writeBack v m).regions = s.regions := by cases m <;> rfl
@[simp] theorem State.writeBack_addrAbs (s : State) (v : Byte) (m : Mode) : (s.writeBack v m).addrAbs = s.addrAbs := by cases m <;> rfl
@[simp] theorem State.writeBack_addrRel (s : State) (v : Byte) (m : Mode) : (s.writeBack v m).addrRel = s.addrRel := by cases m <;> rfl
@[simp] theorem State.writeBack_fetched (s : State) (v : Byte) (m : Mode) : (s.writeBack v m).fetched = s.fetched := by cases m <;> rfl
@[simp] theorem State.writeBack_kindAt (s : State) (v : Byte) (m : Mode) (a : Addr) :
    (s.writeBack v m).kindAt a = s.kindAt a := by cases m <;> rfl

/-! Stack addresses. -/

theorem stackAddr_injective {p q : Byte} (h : stackAddr p = stackAddr q) : p = q := by
  simp only [stackAddr, zext16] at h
  bv_omega

theorem stackAddr_ne {p q : Byte} (h : p ≠ q) : stackAddr p ≠ stackAddr q := fun e => h (stackAddr_injective e)

/-! Interrupt entry and return: registers (60_exceptions.md R346, R351). -/

@[simp] theorem State.interruptEntry_a (s : State) (v : Addr) (b : Bool) : (s.interruptEntry v b).a = s.a := by
  simp [State.interruptEntry, State.pushWord]
@[simp] theorem State.interruptEntry_x (s : State) (v : Addr) (b : Bool) : (s.interruptEntry v b).x = s.x := by
  simp [State.interruptEntry, State.pushWord]
@[simp] theorem State.interruptEntry_y (s : State) (v : Addr) (b : Bool) : (s.interruptEntry v b).y = s.y := by
  simp [State.interruptEntry, State.pushWord]
@[simp] theorem State.interruptEntry_fetched (s : State) (v : Addr) (b : Bool) : (s.interruptEntry v b).fetched = s.fetched := by
  simp [State.interruptEntry, State.pushWord]
@[simp] theorem State.interruptEntry_addrAbs (s : State) (v : Addr) (b : Bool) : (s.interruptEntry v b).addrAbs = s.addrAbs := by
  simp [State.interruptEntry, State.pushWord]
@[simp] theorem State.interruptEntry_addrRel (s : State) (v : Addr) (b : Bool) : (s.interruptEntry v b).addrRel = s.addrRel := by
  simp [State.interruptEntry, State.pushWord]
@[simp] theorem State.interruptEntry_addrTemp (s : State) (v : Addr) (b : Bool) : (s.interruptEntry v b).addrTemp = s.addrTemp := by
  simp [State.interruptEntry, State.pushWord]
@[simp] theorem State.interruptEntry_cycles (s : State) (v : Addr) (b : Bool) : (s.interruptEntry v b).cycles = s.cycles := by
  simp [State.interruptEntry, State.pushWord]
@[simp] theorem State.interruptEntry_totalCycles (s : State) (v : Addr) (b : Bool) : (s.interruptEntry v b).totalCycles = s.totalCycles := by
  simp [State.interruptEntry, State.pushWord]
@[simp] theorem State.interruptEntry_nmiPending (s : State) (v : Addr) (b : Bool) : (s.interruptEntry v b).nmiPending = s.nmiPending := by
  simp [State.interruptEntry, State.pushWord]
@[simp] theorem State.interruptEntry_irqPending (s : State) (v : Addr) (b : Bool) : (s.interruptEntry v b).irqPending = s.irqPending := by
  simp [State.interruptEntry, State.pushWord]
@[simp] theorem State.interruptEntry_power (s : State) (v : Addr) (b : Bool) : (s.interruptEntry v b).power = s.power := by
  simp [State.interruptEntry, State.pushWord]
@[simp] theorem State.interruptEntry_regions (s : State) (v : Addr) (b : Bool) : (s.interruptEntry v b).regions = s.regions := by
  simp [State.interruptEntry, State.pushWord]
@[simp] theorem State.interruptEntry_p (s : State) (v : Addr) (b : Bool) :
    (s.interruptEntry v b).p = setFlag .i true s.p := by simp [State.interruptEntry, State.pushWord]
@[simp] theorem State.interruptEntry_sp (s : State) (v : Addr) (b : Bool) :
    (s.interruptEntry v b).sp = s.sp - 1#8 - 1#8 - 1#8 := by simp [State.interruptEntry, State.pushWord]
@[simp] theorem State.interruptEntry_kindAt (s : State) (v : Addr) (b : Bool) (a : Addr) :
    (s.interruptEntry v b).kindAt a = s.kindAt a := by simp [State.interruptEntry, State.pushWord]

/-- An entry stores the three stack bytes and nothing else. -/
theorem State.interruptEntry_mem (s : State) (v : Addr) (b : Bool) :
    (s.interruptEntry v b).mem =
      (((s.push (page s.pc)).push (lowByte s.pc)).push (statusForEntry b s.p)).mem := by
  simp [State.interruptEntry, State.pushWord]

@[simp] theorem State.interruptReturn_a (s : State) : s.interruptReturn.a = s.a := by
  simp [State.interruptReturn, State.pullStatus, State.pullWord]
@[simp] theorem State.interruptReturn_x (s : State) : s.interruptReturn.x = s.x := by
  simp [State.interruptReturn, State.pullStatus, State.pullWord]
@[simp] theorem State.interruptReturn_y (s : State) : s.interruptReturn.y = s.y := by
  simp [State.interruptReturn, State.pullStatus, State.pullWord]
@[simp] theorem State.interruptReturn_fetched (s : State) : s.interruptReturn.fetched = s.fetched := by
  simp [State.interruptReturn, State.pullStatus, State.pullWord]
@[simp] theorem State.interruptReturn_addrAbs (s : State) : s.interruptReturn.addrAbs = s.addrAbs := by
  simp [State.interruptReturn, State.pullStatus, State.pullWord]
@[simp] theorem State.interruptReturn_addrRel (s : State) : s.interruptReturn.addrRel = s.addrRel := by
  simp [State.interruptReturn, State.pullStatus, State.pullWord]
@[simp] theorem State.interruptReturn_addrTemp (s : State) : s.interruptReturn.addrTemp = s.addrTemp := by
  simp [State.interruptReturn, State.pullStatus, State.pullWord]
@[simp] theorem State.interruptReturn_cycles (s : State) : s.interruptReturn.cycles = s.cycles := by
  simp [State.interruptReturn, State.pullStatus, State.pullWord]
@[simp] theorem State.interruptReturn_totalCycles (s : State) : s.interruptReturn.totalCycles = s.totalCycles := by
  simp [State.interruptReturn, State.pullStatus, State.pullWord]
@[simp] theorem State.interruptReturn_nmiPending (s : State) : s.interruptReturn.nmiPending = s.nmiPending := by
  simp [State.interruptReturn, State.pullStatus, State.pullWord]
@[simp] theorem State.interruptReturn_irqPending (s : State) : s.interruptReturn.irqPending = s.irqPending := by
  simp [State.interruptReturn, State.pullStatus, State.pullWord]
@[simp] theorem State.interruptReturn_power (s : State) : s.interruptReturn.power = s.power := by
  simp [State.interruptReturn, State.pullStatus, State.pullWord]
@[simp] theorem State.interruptReturn_mem (s : State) : s.interruptReturn.mem = s.mem := by
  simp [State.interruptReturn, State.pullStatus, State.pullWord]
@[simp] theorem State.interruptReturn_regions (s : State) : s.interruptReturn.regions = s.regions := by
  simp [State.interruptReturn, State.pullStatus, State.pullWord]
@[simp] theorem State.interruptReturn_sp (s : State) : s.interruptReturn.sp = s.sp + 1#8 + 1#8 + 1#8 := by
  simp [State.interruptReturn, State.pullStatus, State.pullWord]
@[simp] theorem State.interruptReturn_p (s : State) :
    s.interruptReturn.p = statusRestored (s.peek (stackAddr (s.sp + 1#8))) := by
  simp [State.interruptReturn, State.pullStatus, State.pullWord]

/-! The fetch: PC moves on by the bytes read, and only the bus's own fields change beside it
(40_execution_cycle.md R122). -/

@[simp] theorem State.fetchBytes_a (n : Nat) (s : State) : (State.fetchBytes n s).2.a = s.a := by
  induction n generalizing s with
  | zero => rfl
  | succ n ih => exact ih _
@[simp] theorem State.fetchInstr_a (s : State) : s.fetchInstr.2.a = s.a := by simp [State.fetchInstr, State.fetchByte]
@[simp] theorem State.fetchBytes_x (n : Nat) (s : State) : (State.fetchBytes n s).2.x = s.x := by
  induction n generalizing s with
  | zero => rfl
  | succ n ih => exact ih _
@[simp] theorem State.fetchInstr_x (s : State) : s.fetchInstr.2.x = s.x := by simp [State.fetchInstr, State.fetchByte]
@[simp] theorem State.fetchBytes_y (n : Nat) (s : State) : (State.fetchBytes n s).2.y = s.y := by
  induction n generalizing s with
  | zero => rfl
  | succ n ih => exact ih _
@[simp] theorem State.fetchInstr_y (s : State) : s.fetchInstr.2.y = s.y := by simp [State.fetchInstr, State.fetchByte]
@[simp] theorem State.fetchBytes_sp (n : Nat) (s : State) : (State.fetchBytes n s).2.sp = s.sp := by
  induction n generalizing s with
  | zero => rfl
  | succ n ih => exact ih _
@[simp] theorem State.fetchInstr_sp (s : State) : s.fetchInstr.2.sp = s.sp := by simp [State.fetchInstr, State.fetchByte]
@[simp] theorem State.fetchBytes_p (n : Nat) (s : State) : (State.fetchBytes n s).2.p = s.p := by
  induction n generalizing s with
  | zero => rfl
  | succ n ih => exact ih _
@[simp] theorem State.fetchInstr_p (s : State) : s.fetchInstr.2.p = s.p := by simp [State.fetchInstr, State.fetchByte]
@[simp] theorem State.fetchBytes_fetched (n : Nat) (s : State) : (State.fetchBytes n s).2.fetched = s.fetched := by
  induction n generalizing s with
  | zero => rfl
  | succ n ih => exact ih _
@[simp] theorem State.fetchInstr_fetched (s : State) : s.fetchInstr.2.fetched = s.fetched := by simp [State.fetchInstr, State.fetchByte]
@[simp] theorem State.fetchBytes_addrAbs (n : Nat) (s : State) : (State.fetchBytes n s).2.addrAbs = s.addrAbs := by
  induction n generalizing s with
  | zero => rfl
  | succ n ih => exact ih _
@[simp] theorem State.fetchInstr_addrAbs (s : State) : s.fetchInstr.2.addrAbs = s.addrAbs := by simp [State.fetchInstr, State.fetchByte]
@[simp] theorem State.fetchBytes_addrRel (n : Nat) (s : State) : (State.fetchBytes n s).2.addrRel = s.addrRel := by
  induction n generalizing s with
  | zero => rfl
  | succ n ih => exact ih _
@[simp] theorem State.fetchInstr_addrRel (s : State) : s.fetchInstr.2.addrRel = s.addrRel := by simp [State.fetchInstr, State.fetchByte]
@[simp] theorem State.fetchBytes_addrTemp (n : Nat) (s : State) : (State.fetchBytes n s).2.addrTemp = s.addrTemp := by
  induction n generalizing s with
  | zero => rfl
  | succ n ih => exact ih _
@[simp] theorem State.fetchInstr_addrTemp (s : State) : s.fetchInstr.2.addrTemp = s.addrTemp := by simp [State.fetchInstr, State.fetchByte]
@[simp] theorem State.fetchBytes_cycles (n : Nat) (s : State) : (State.fetchBytes n s).2.cycles = s.cycles := by
  induction n generalizing s with
  | zero => rfl
  | succ n ih => exact ih _
@[simp] theorem State.fetchInstr_cycles (s : State) : s.fetchInstr.2.cycles = s.cycles := by simp [State.fetchInstr, State.fetchByte]
@[simp] theorem State.fetchBytes_totalCycles (n : Nat) (s : State) : (State.fetchBytes n s).2.totalCycles = s.totalCycles := by
  induction n generalizing s with
  | zero => rfl
  | succ n ih => exact ih _
@[simp] theorem State.fetchInstr_totalCycles (s : State) : s.fetchInstr.2.totalCycles = s.totalCycles := by simp [State.fetchInstr, State.fetchByte]
@[simp] theorem State.fetchBytes_nmiPending (n : Nat) (s : State) : (State.fetchBytes n s).2.nmiPending = s.nmiPending := by
  induction n generalizing s with
  | zero => rfl
  | succ n ih => exact ih _
@[simp] theorem State.fetchInstr_nmiPending (s : State) : s.fetchInstr.2.nmiPending = s.nmiPending := by simp [State.fetchInstr, State.fetchByte]
@[simp] theorem State.fetchBytes_irqPending (n : Nat) (s : State) : (State.fetchBytes n s).2.irqPending = s.irqPending := by
  induction n generalizing s with
  | zero => rfl
  | succ n ih => exact ih _
@[simp] theorem State.fetchInstr_irqPending (s : State) : s.fetchInstr.2.irqPending = s.irqPending := by simp [State.fetchInstr, State.fetchByte]
@[simp] theorem State.fetchBytes_power (n : Nat) (s : State) : (State.fetchBytes n s).2.power = s.power := by
  induction n generalizing s with
  | zero => rfl
  | succ n ih => exact ih _
@[simp] theorem State.fetchInstr_power (s : State) : s.fetchInstr.2.power = s.power := by simp [State.fetchInstr, State.fetchByte]
@[simp] theorem State.fetchBytes_mem (n : Nat) (s : State) : (State.fetchBytes n s).2.mem = s.mem := by
  induction n generalizing s with
  | zero => rfl
  | succ n ih => exact ih _
@[simp] theorem State.fetchInstr_mem (s : State) : s.fetchInstr.2.mem = s.mem := by simp [State.fetchInstr, State.fetchByte]
@[simp] theorem State.fetchBytes_regions (n : Nat) (s : State) : (State.fetchBytes n s).2.regions = s.regions := by
  induction n generalizing s with
  | zero => rfl
  | succ n ih => exact ih _
@[simp] theorem State.fetchInstr_regions (s : State) : s.fetchInstr.2.regions = s.regions := by simp [State.fetchInstr, State.fetchByte]

@[simp] theorem State.fetchBytes_pc (n : Nat) (s : State) :
    (State.fetchBytes n s).2.pc = s.pc + BitVec.ofNat 16 n := by
  induction n generalizing s with
  | zero => simp [State.fetchBytes]
  | succ n ih =>
    have := ih (s.fetchByte.2)
    simp only [State.fetchBytes, State.fetchByte] at this ⊢
    rw [this]
    simp only [State.setPc_pc, State.read8_snd, State.afterRead_pc]
    bv_omega

@[simp] theorem State.fetchBytes_length (n : Nat) (s : State) : (State.fetchBytes n s).1.length = n := by
  induction n generalizing s with
  | zero => rfl
  | succ n ih => simp [State.fetchBytes, ih]

end Sys2Proof.Machine
end

