-- ==== Sys2Proof/Laws/Exec.lean ====
section
/-! SUPPORT. What each instruction answers: always a next state, which its meaning writes over the shared
operations; and what every instruction leaves alone. -/

namespace Sys2Proof.Machine

/-! One equation per instruction, so that no proof unfolds `exec`. -/

theorem exec_adc (o : Operand) (s : State) : exec (.adc o) s =
    .next (s.runRead .adc o fun m t => t.addToA m) := rfl
theorem exec_and (o : Operand) (s : State) : exec (.and o) s =
    .next (s.runRead .and o fun m t => t.setAZN (t.a &&& m)) := rfl
theorem exec_asl (o : Operand) (s : State) : exec (.asl o) s =
    .next (s.runModify .asl o (fun m _ => aslResult m)
      (fun m t => shiftStatus (m.getLsbD 7) (aslResult m) t.p)) := rfl
theorem exec_bcc (d : Byte) (s : State) : exec (.bcc d) s =
    .next (s.runBranch .bcc d fun t => !t.flag .c) := rfl
theorem exec_bcs (d : Byte) (s : State) : exec (.bcs d) s =
    .next (s.runBranch .bcs d fun t => t.flag .c) := rfl
theorem exec_beq (d : Byte) (s : State) : exec (.beq d) s =
    .next (s.runBranch .beq d fun t => t.flag .z) := rfl
theorem exec_bit (o : Operand) (s : State) : exec (.bit o) s =
    .next (s.runRead .bit o fun m t => t.setP (bitStatus t.a m t.p)) := rfl
theorem exec_bmi (d : Byte) (s : State) : exec (.bmi d) s =
    .next (s.runBranch .bmi d fun t => t.flag .n) := rfl
theorem exec_bne (d : Byte) (s : State) : exec (.bne d) s =
    .next (s.runBranch .bne d fun t => !t.flag .z) := rfl
theorem exec_bpl (d : Byte) (s : State) : exec (.bpl d) s =
    .next (s.runBranch .bpl d fun t => !t.flag .n) := rfl
theorem exec_brk (s : State) : exec .brk s =
    .next (s.runImplied .brk fun t => (t.setPc (t.pc + 1#16)).interruptEntry irqVector true) := rfl
theorem exec_bvc (d : Byte) (s : State) : exec (.bvc d) s =
    .next (s.runBranch .bvc d fun t => !t.flag .v) := rfl
theorem exec_bvs (d : Byte) (s : State) : exec (.bvs d) s =
    .next (s.runBranch .bvs d fun t => t.flag .v) := rfl
theorem exec_clc (s : State) : exec .clc s =
    .next (s.runImplied .clc fun t => t.setFlagTo .c false) := rfl
theorem exec_cld (s : State) : exec .cld s =
    .next (s.runImplied .cld fun t => t.setFlagTo .d false) := rfl
theorem exec_cli (s : State) : exec .cli s =
    .next (s.runImplied .cli fun t => t.setFlagTo .i false) := rfl
theorem exec_clv (s : State) : exec .clv s =
    .next (s.runImplied .clv fun t => t.setFlagTo .v false) := rfl
theorem exec_cmp (o : Operand) (s : State) : exec (.cmp o) s =
    .next (s.runRead .cmp o fun m t => t.compare t.a m) := rfl
theorem exec_cpx (o : Operand) (s : State) : exec (.cpx o) s =
    .next (s.runRead .cpx o fun m t => t.compare t.x m) := rfl
theorem exec_cpy (o : Operand) (s : State) : exec (.cpy o) s =
    .next (s.runRead .cpy o fun m t => t.compare t.y m) := rfl
theorem exec_dec (o : Operand) (s : State) : exec (.dec o) s =
    .next (s.runModify .dec o (fun m _ => m - 1#8) (fun m t => znOf (m - 1#8) t.p)) := rfl
theorem exec_dex (s : State) : exec .dex s =
    .next (s.runImplied .dex fun t => (t.setX (t.x - 1#8)).setZN (t.x - 1#8)) := rfl
theorem exec_dey (s : State) : exec .dey s =
    .next (s.runImplied .dey fun t => (t.setY (t.y - 1#8)).setZN (t.y - 1#8)) := rfl
theorem exec_eor (o : Operand) (s : State) : exec (.eor o) s =
    .next (s.runRead .eor o fun m t => t.setAZN (t.a ^^^ m)) := rfl
theorem exec_inc (o : Operand) (s : State) : exec (.inc o) s =
    .next (s.runModify .inc o (fun m _ => m + 1#8) (fun m t => znOf (m + 1#8) t.p)) := rfl
theorem exec_inx (s : State) : exec .inx s =
    .next (s.runImplied .inx fun t => (t.setX (t.x + 1#8)).setZN (t.x + 1#8)) := rfl
theorem exec_iny (s : State) : exec .iny s =
    .next (s.runImplied .iny fun t => (t.setY (t.y + 1#8)).setZN (t.y + 1#8)) := rfl
theorem exec_jmp (o : Operand) (s : State) : exec (.jmp o) s = (
    let t := (s.resolve o).2
    .next ((t.setPc t.addrAbs).charge .jmp o.mode false 0)) := rfl
theorem exec_jsr (a : Addr) (s : State) : exec (.jsr a) s = (
    let t := (s.resolve (.abs a)).2
    let pushed := t.pushWord (t.pc - 1#16)
    .next ((pushed.setPc pushed.addrAbs).charge .jsr .abs false 0)) := rfl
theorem exec_lda (o : Operand) (s : State) : exec (.lda o) s =
    .next (s.runRead .lda o fun m t => (t.setA m).setZN m) := rfl
theorem exec_ldx (o : Operand) (s : State) : exec (.ldx o) s =
    .next (s.runRead .ldx o fun m t => (t.setX m).setZN m) := rfl
theorem exec_ldy (o : Operand) (s : State) : exec (.ldy o) s =
    .next (s.runRead .ldy o fun m t => (t.setY m).setZN m) := rfl
theorem exec_lsr (o : Operand) (s : State) : exec (.lsr o) s =
    .next (s.runModify .lsr o (fun m _ => lsrResult m)
      (fun m t => shiftStatus (m.getLsbD 0) (lsrResult m) t.p)) := rfl
theorem exec_nop (s : State) : exec .nop s =
    .next (s.runImplied .nop fun t => t) := rfl
theorem exec_ora (o : Operand) (s : State) : exec (.ora o) s =
    .next (s.runRead .ora o fun m t => t.setAZN (t.a ||| m)) := rfl
theorem exec_pha (s : State) : exec .pha s =
    .next (s.runImplied .pha fun t => t.push t.a) := rfl
theorem exec_php (s : State) : exec .php s =
    .next (s.runImplied .php fun t => t.push (statusPushedByProgram t.p)) := rfl
theorem exec_pla (s : State) : exec .pla s =
    .next (s.runImplied .pla fun t =>
      let v := t.pull
      (v.2.setA v.1).setZN v.1) := rfl
theorem exec_plp (s : State) : exec .plp s =
    .next (s.runImplied .plp fun t => t.pullStatus) := rfl
theorem exec_rol (o : Operand) (s : State) : exec (.rol o) s =
    .next (s.runModify .rol o (fun m t => rolResult (t.flag .c) m)
      (fun m t => shiftStatus (m.getLsbD 7) (rolResult (t.flag .c) m) t.p)) := rfl
theorem exec_ror (o : Operand) (s : State) : exec (.ror o) s =
    .next (s.runModify .ror o (fun m t => rorResult (t.flag .c) m)
      (fun m t => shiftStatus (m.getLsbD 0) (rorResult (t.flag .c) m) t.p)) := rfl
theorem exec_rti (s : State) : exec .rti s =
    .next (s.runImplied .rti fun t => t.interruptReturn) := rfl
theorem exec_rts (s : State) : exec .rts s =
    .next (s.runImplied .rts fun t =>
      let target := t.pullWord
      target.2.setPc (target.1 + 1#16)) := rfl
theorem exec_sbc (o : Operand) (s : State) : exec (.sbc o) s =
    .next (s.runRead .sbc o fun m t => t.addToA (sbcOperand m)) := rfl
theorem exec_sec (s : State) : exec .sec s =
    .next (s.runImplied .sec fun t => t.setFlagTo .c true) := rfl
theorem exec_sed (s : State) : exec .sed s =
    .next (s.runImplied .sed fun t => t.setFlagTo .d true) := rfl
theorem exec_sei (s : State) : exec .sei s =
    .next (s.runImplied .sei fun t => t.setFlagTo .i true) := rfl
theorem exec_sta (o : Operand) (s : State) : exec (.sta o) s =
    .next (s.runStore .sta o fun t => t.a) := rfl
theorem exec_stx (o : Operand) (s : State) : exec (.stx o) s =
    .next (s.runStore .stx o fun t => t.x) := rfl
theorem exec_sty (o : Operand) (s : State) : exec (.sty o) s =
    .next (s.runStore .sty o fun t => t.y) := rfl
theorem exec_tax (s : State) : exec .tax s =
    .next (s.runImplied .tax fun t => (t.setX t.a).setZN t.a) := rfl
theorem exec_tay (s : State) : exec .tay s =
    .next (s.runImplied .tay fun t => (t.setY t.a).setZN t.a) := rfl
theorem exec_tsx (s : State) : exec .tsx s =
    .next (s.runImplied .tsx fun t => (t.setX t.sp).setZN t.sp) := rfl
theorem exec_txa (s : State) : exec .txa s =
    .next (s.runImplied .txa fun t => (t.setA t.x).setZN t.x) := rfl
theorem exec_txs (s : State) : exec .txs s =
    .next (s.runImplied .txs fun t => t.setSp t.x) := rfl
theorem exec_tya (s : State) : exec .tya s =
    .next (s.runImplied .tya fun t => (t.setA t.y).setZN t.y) := rfl
theorem exec_ill (op : Byte) (s : State) : exec (.ill op) s =
    .next (s.runImplied .ill fun t => t) := rfl

/-- Every instruction completes (00_scope.md R11). -/
theorem exec_next (i : Instr) (s : State) : ∃ t : State, exec i s = .next t := by
  cases i <;> exact ⟨_, rfl⟩

end Sys2Proof.Machine
end

