-- ==== Sys2Proof/Laws/Shared.lean ====
section
/-! SUPPORT. One law per shared operation, saying once what it does: bus calls, stores, pushes, branches,
read-modify-writes, interrupt entry and return, and the tick. -/

namespace Sys2Proof.Machine

/-! The bus's answer depends on three fields. -/

/-- Two states with the same bytes, regions and devices get the same answer. -/
theorem State.peek_congr {s t : State} (hm : t.mem = s.mem) (hr : t.regions = s.regions)
    (hb : t.deviceState = s.deviceState) (a : Addr) : t.peek a = s.peek a := by
  simp [State.peek, State.kindAt, hm, hr, hb]

/-- A read moves the devices by the regions and their own state alone. -/
theorem State.deviceAfterRead_congr {s t : State} (hr : t.regions = s.regions)
    (hb : t.deviceState = s.deviceState) (a : Addr) : t.deviceAfterRead a = s.deviceAfterRead a := by
  simp [State.deviceAfterRead, State.kindAt, hr, hb]

/-- A write moves the devices by the regions, their own state and the byte written alone. -/
theorem State.deviceAfterWrite_congr {s t : State} (hr : t.regions = s.regions)
    (hb : t.deviceState = s.deviceState) (a : Addr) (v : Byte) :
    t.deviceAfterWrite a v = s.deviceAfterWrite a v := by
  simp [State.deviceAfterWrite, State.kindAt, hr, hb]

/-! A call to RAM or ROM does not reach the devices; a call to a device is answered, and taken in, by the open
functions of Config (20_memory.md R63). -/

theorem State.deviceAfterRead_plain {s : State} {a : Addr} (h : s.kindAt a ≠ .device) :
    s.deviceAfterRead a = s.deviceState := by
  unfold State.deviceAfterRead
  split <;> first | rfl | contradiction

theorem State.deviceAfterWrite_plain {s : State} {a : Addr} (h : s.kindAt a ≠ .device) (v : Byte) :
    s.deviceAfterWrite a v = s.deviceState := by
  unfold State.deviceAfterWrite
  split <;> first | rfl | contradiction

theorem State.peek_device {s : State} {a : Addr} (h : s.kindAt a = .device) :
    s.peek a = Config.deviceByte s.deviceState a := by simp [State.peek, h]

theorem State.deviceAfterRead_device {s : State} {a : Addr} (h : s.kindAt a = .device) :
    s.deviceAfterRead a = Config.deviceAfterRead s.deviceState a := by simp [State.deviceAfterRead, h]

theorem State.deviceAfterWrite_device {s : State} {a : Addr} (h : s.kindAt a = .device) (v : Byte) :
    s.deviceAfterWrite a v = Config.deviceAfterWrite s.deviceState a v := by simp [State.deviceAfterWrite, h]

/-- A bus write stores its byte where it lands in RAM. -/
theorem State.write8_storesByte (s : State) (a : Addr) (v : Byte) : StoresByte s (s.write8 a v) a v := by
  refine ⟨fun h hk => ?_, fun hk => ?_⟩
  · exact State.read_memAfterWrite_eq h hk v
  · rw [State.write8_mem, State.memAfterWrite_notRam hk]

/-- A bus write changes no other byte. -/
theorem State.write8_bytes (s : State) (a : Addr) (v : Byte) : BytesUnchangedBut [a] s (s.write8 a v) :=
  fun _ hb => State.read_memAfterWrite_ne s v (by simpa using hb)

/-- A push stores its byte at the address SP designates. -/
theorem State.push_storesByte (s : State) (v : Byte) : StoresByte s (s.push v) (stackAddr s.sp) v :=
  State.write8_storesByte s (stackAddr s.sp) v

/-- A push changes no other byte. -/
theorem State.push_bytes (s : State) (v : Byte) : BytesUnchangedBut [stackAddr s.sp] s (s.push v) :=
  State.write8_bytes s (stackAddr s.sp) v

/-- A store instruction stores its register at EA. -/
theorem State.runStore_storesByte (s : State) (m : Mnemonic) (o : Operand) (register : State → Byte) :
    StoresByte s (s.runStore m o register) (effectiveAddress o s) (register (s.resolve o).2) := by
  have h := State.write8_storesByte (s.resolve o).2 (effectiveAddress o s) (register (s.resolve o).2)
  refine ⟨fun hw hk => h.1 (by simpa using hw) (by simpa using hk), fun hk => ?_⟩
  refine (h.2 (by simpa using hk)).trans ?_
  rw [State.resolve_mem]

/-- A store instruction changes no other byte. -/
theorem State.runStore_bytes (s : State) (m : Mnemonic) (o : Operand) (register : State → Byte) :
    BytesUnchangedBut [effectiveAddress o s] s (s.runStore m o register) := by
  intro b hb
  refine (State.write8_bytes (s.resolve o).2 (effectiveAddress o s) (register (s.resolve o).2) b hb).trans ?_
  rw [State.resolve_mem]

/-- What every branch does, once its mnemonic's row is known (45_control_transfer.md R270). -/
theorem State.runBranch_branchesIf {m : Mnemonic} (hm : rowEntry m .rel = ⟨m, .rel, 2, false⟩) (d : Byte)
    {k : State → Bool} {s : State} (hk : k (s.setAddrRel (sext16 d)) = k s) :
    BranchesIf (k s) d s (s.runBranch m d k) := by
  have hd : sext16 d = d.signExtend 16 := (by decide : ∀ d : Byte, sext16 d = d.signExtend 16) d
  refine ⟨?_, ?_, ?_⟩
  · simp only [State.runBranch, State.resolve, hk]
    split <;> simp [hd]
  · simp only [State.runBranch, State.resolve, hk]
    split
    · simp only [State.charge, State.setCycles, cost, hm, crosses, ← hd]
      simp
      split <;> simp_all
    · simp [State.charge, State.setCycles, cost, hm]
  · intro q hq
    simp only [State.runBranch, State.resolve, hk]
    split <;> cases q <;> simp_all [Part.Same]

/-- What every read-modify-write does (44_shift_rotate.md R250). -/
theorem State.runModify_modifiesTo {o : Operand} {s : State} (m : Mnemonic) {res : Byte → State → Byte}
    (st : Byte → State → Byte) {r : Byte} (hne : o ≠ .imp ∧ ∀ v, o ≠ .imm v)
    (hr : res (operandValue o s) ((s.resolve o).2.fetchOperand o.mode).2 = r) :
    ModifiesTo o r s (s.runModify m o res st) := by
  unfold ModifiesTo
  split
  · rename_i h
    have : o = .acc := by cases o <;> simp_all [Operand.mode]
    subst this
    subst hr
    refine ⟨?_, ?_⟩
    · simp [State.runModify, State.runRead, operandValue, Operand.mode, State.writeBack]
    · intro q hq; cases q <;> simp_all [Part.Same, State.runModify, State.runRead, Operand.mode,
        State.writeBack, State.resolve, State.fetchOperand]
  · rename_i h
    have hmm : o.mode.inMemory = true := by cases o <;> simp_all [Operand.mode, Mode.inMemory]
    subst hr
    have hv : operandValue o s = (s.resolve o).2.peek (s.resolve o).2.addrAbs := by
      simp [operandValue, State.fetchOperand_inMemory hmm]
    refine ⟨⟨?_, ?_⟩, ?_, ?_, ?_⟩
    · intro hw hk
      simp only [State.runModify, State.runRead, State.charge_mem, State.writeBack_notAcc h, State.write8_mem]
      simp only [State.setP_addrAbs, State.fetchOperand_addrAbs]
      rw [show effectiveAddress o s = (s.resolve o).2.addrAbs from rfl] at hk ⊢
      rw [State.read_memAfterWrite_eq]
      · rfl
      · simpa using hw
      · simpa using hk
    · intro hk
      simp only [State.runModify, State.runRead, State.charge_mem, State.writeBack_notAcc h, State.write8_mem]
      rw [show effectiveAddress o s = (s.resolve o).2.addrAbs from rfl] at hk ⊢
      rw [State.memAfterWrite_notRam]
      · simp
      · simpa using hk
    · intro a ha
      simp only [State.runModify, State.runRead, State.charge_mem, State.writeBack_notAcc h, State.write8_mem]
      rw [State.read_memAfterWrite_ne]
      · simp
      · simpa [effectiveAddress] using ha
    · simp only [State.runModify, State.runRead, State.charge_busLog, State.writeBack_notAcc h,
        State.write8_busLog, effectiveAddress]
      simp [State.fetchOperand_inMemory hmm, hv]
    · intro q hq; cases q <;> simp_all [Part.Same, State.runModify, State.runRead, State.writeBack_notAcc h]

/-- What interrupt entry does (60_exceptions.md R346). -/
theorem State.interruptEntry_entersWith (s : State) (v : Addr) (b : Bool) :
    EntersWith v s.pc (statusForEntry b s.p) s (s.interruptEntry v b) := by
  have h1 : stackAddr s.sp ≠ stackAddr (s.sp - 1#8) := stackAddr_ne (by bv_omega)
  have h2 : stackAddr s.sp ≠ stackAddr (s.sp - 2#8) := stackAddr_ne (by bv_omega)
  have h3 : stackAddr (s.sp - 1#8) ≠ stackAddr (s.sp - 2#8) := stackAddr_ne (by bv_omega)
  have e : s.sp - 1#8 - 1#8 = s.sp - 2#8 := by bv_omega
  have hmem :
      (s.interruptEntry v b).mem = (((s.push (page s.pc)).push (lowByte s.pc)).push (statusForEntry b s.p)).mem := State.interruptEntry_mem s v b
  simp only [State.push_mem, State.push_sp, e] at hmem
  refine ⟨⟨?_, ?_⟩, ⟨?_, ?_⟩, ⟨?_, ?_⟩, ?_, ?_, ?_, ?_, ?_, ?_⟩
  · intro h hk
    rw [hmem, State.read_memAfterWrite_ne _ _ h2, State.push_mem]
    rw [State.push_sp, State.read_memAfterWrite_ne _ _ h1, State.push_mem]
    exact State.read_memAfterWrite_eq h hk _
  · intro hk
    rw [hmem, State.read_memAfterWrite_ne _ _ h2, State.push_mem]
    rw [State.push_sp, State.read_memAfterWrite_ne _ _ h1, State.push_mem]
    rw [State.memAfterWrite_notRam hk]
  · intro h hk
    rw [hmem, State.read_memAfterWrite_ne _ _ h3, State.push_mem]
    refine State.read_memAfterWrite_eq ?_ ?_ _
    · exact State.wf_memAfterWrite h _ _
    · exact hk
  · intro hk
    rw [hmem, State.read_memAfterWrite_ne _ _ h3, State.push_mem, State.push_sp, State.memAfterWrite_notRam]
    · exact State.read_memAfterWrite_ne _ _ h1.symm
    · exact hk
  · intro h hk
    rw [hmem]
    refine State.read_memAfterWrite_eq ?_ ?_ _
    · exact State.wf_memAfterWrite (State.wf_memAfterWrite h _ _) _ _
    · exact hk
  · intro hk
    rw [hmem, State.memAfterWrite_notRam, State.push_mem, State.push_sp, State.read_memAfterWrite_ne _ _ h3.symm]
    · exact State.read_memAfterWrite_ne _ _ h2.symm
    · exact hk
  · intro a ha
    simp at ha
    rw [hmem, State.read_memAfterWrite_ne _ _ ha.2.2, State.push_mem, State.push_sp,
        State.read_memAfterWrite_ne _ _ ha.2.1]
    exact State.read_memAfterWrite_ne _ _ ha.1
  · simp; bv_omega
  · simp only [State.interruptEntry, State.setPc_pc, State.read16_fst, State.pushWord]
    have key :
        ∀ a, ((((s.push (page s.pc)).push (lowByte s.pc)).push (statusForEntry b s.p)).setFlagTo .i true).peek a = (((s.write8 (stackAddr s.sp) (page s.pc)).write8 (stackAddr (s.sp - 1#8)) (lowByte s.pc)).write8 (stackAddr (s.sp - 2#8)) (statusForEntry b s.p)).peek a := by
      intro a; rw [← e]; rfl
    rw [key]
    rw [← e]
    rfl
  · simp
  · intro f hf; simp at hf; simp [hf]
  · simp only [State.interruptEntry, State.pushWord, State.setPc_busLog, State.read16_snd,
      State.afterRead_busLog, State.setFlagTo, State.setP_busLog, State.push_busLog, State.push_sp]
    simp only [List.append_assoc, List.cons_append, List.nil_append]
    rw [← e]
    rfl

/-- `EntersWith` looks at the bytes, the regions, the devices, SP, P and the record of the state before, and at
memory, SP, P, PC and the record of the state after, and at nothing else. -/
theorem EntersWith.congr {v r : Addr} {st : Byte} {s s' t t' : State} (h : EntersWith v r st s t)
    (h1 : s'.mem = s.mem) (h2 : s'.regions = s.regions) (h3 : s'.deviceState = s.deviceState) (h4 : s'.sp = s.sp)
    (h5 : s'.p = s.p) (h6 : s'.busLog = s.busLog) (g1 : t'.mem = t.mem) (g2 : t'.sp = t.sp) (g3 : t'.p = t.p)
    (g4 : t'.busLog = t.busLog) (g5 : t'.pc = t.pc) : EntersWith v r st s' t' := by
  have hk : ∀ a, s'.kindAt a = s.kindAt a := fun a => by simp [State.kindAt, h2]
  have hp : ∀ a b c x y z d,
      (((s'.write8 a x).write8 b y).write8 c z).peek d = (((s.write8 a x).write8 b y).write8 c z).peek d := by
    intros
    apply State.peek_congr <;> simp [State.memAfterWrite, State.deviceAfterWrite, hk, h1, h2, h3]
  have hq : ∀ a b c x y z d e, ((((s'.write8 a x).write8 b y).write8 c z).afterRead e).peek d =
      ((((s.write8 a x).write8 b y).write8 c z).afterRead e).peek d := by
    intros
    apply State.peek_congr <;> simp [State.memAfterWrite, State.deviceAfterWrite, State.deviceAfterRead, hk, h1, h2, h3]
  unfold EntersWith StoresByte BytesUnchangedBut at *
  simp only [h1, h4, h5, h6, g1, g2, g3, g4, g5, hk, hp, hq]
  exact h

/-- Where the return from an interrupt goes (R351). -/
theorem State.interruptReturn_pc (s : State) :
    s.interruptReturn.pc =
      word (((s.afterRead (stackAddr (s.sp + 1#8))).afterRead (stackAddr (s.sp + 2#8))).peek (stackAddr (s.sp + 3#8)))
        ((s.afterRead (stackAddr (s.sp + 1#8))).peek (stackAddr (s.sp + 2#8))) := by
  simp [State.interruptReturn, State.pullWord, State.pullStatus, BitVec.add_assoc]
  rfl

/-! The tick. -/

/-- A tick inside an instruction only counts (40_execution_cycle.md R120). -/
theorem step_wait {s : State} (hp : s.power = .running) (hc : s.cycles ≠ 0) : step s = .next s.clearLog.countTick := by
  simp [step, tick, hp, hc]

/-- A tick at a boundary with nothing pending executes the instruction at PC (R120). -/
theorem step_execute {s : State} (hp : s.power = .running) (hc : s.cycles = 0) (hn : s.nmiPending = false)
    (hi : s.irqPending = false) : step s = counted (exec s.clearLog.fetchInstr.1 s.clearLog.fetchInstr.2) := by
  simp [step, tick, hp, hc, boundaryTick, hn, hi, executeInstruction]

/-! The canonical form of memory is kept by every operation that stores. -/

theorem State.wf_write8 {s : State} (h : Memory.wf s.mem = true) (a : Addr) (v : Byte) :
    Memory.wf (s.write8 a v).mem = true := State.wf_memAfterWrite h a v

theorem State.wf_push {s : State} (h : Memory.wf s.mem = true) (v : Byte) : Memory.wf (s.push v).mem = true :=
  State.wf_memAfterWrite h _ v

theorem State.wf_writeBack {s : State} (h : Memory.wf s.mem = true) (v : Byte) (m : Mode) :
    Memory.wf (s.writeBack v m).mem = true := by
  cases m <;> first | exact h | exact State.wf_memAfterWrite h _ v

theorem State.wf_interruptEntry {s : State} (h : Memory.wf s.mem = true) (v : Addr) (b : Bool) :
    Memory.wf (s.interruptEntry v b).mem = true := by
  rw [State.interruptEntry_mem]
  exact State.wf_push (State.wf_push (State.wf_push h _) _) _

theorem wf_storeBytes {m : List Host.Cell} (h : Memory.wf m = true) (bs : List Byte) (a : Addr) :
    Memory.wf (storeBytes bs a m) = true := by
  induction bs generalizing a m with
  | nil => exact h
  | cons b rest ih => exact ih (Memory.wf_write h a b) _

theorem State.wf_withFetchWord {s : State} (h : Memory.wf s.mem = true) (nbits w : Nat) :
    Memory.wf (s.withFetchWord nbits w).mem = true := wf_storeBytes h _ _

theorem State.wf_reset : Memory.wf State.reset.mem = true := rfl

end Sys2Proof.Machine
end

