-- ==== Sys2Proof/Laws/PerInstr.lean ====
section
/-! SUPPORT. Statements made for every instruction, one lemma per constructor: the encoding of an instruction has
its length (30_encoding.md R91). -/

namespace Sys2Proof.Laws.EncodedLength

/-- The bytes of a well-formed instruction are as many as its mode says (R91). -/
def Statement (i : Instr) : Prop := i.WellFormed → (encode i).length = i.length

/-- A row of the table is encoded as its opcode byte and its operand bytes. -/
theorem of_row {i : Instr} {op : Byte} (h : i.opcode = some op) : (encode i).length = i.length := by
  rw [encode, h]
  simp only [Instr.length, List.length_cons, Nat.add_comm 1]
  cases i.operand <;> rfl

/-- What well-formedness gives: the mode is one of the mnemonic's. -/
theorem mode_of_wellFormed {i : Instr} (h : i.WellFormed) : i.operand.mode ∈ i.mnemonic.modes := by
  simp only [Instr.WellFormed, Instr.wellFormed, Bool.and_eq_true, List.contains_iff_mem] at h
  exact h.1

/-- A documented mnemonic has an opcode byte in each of its modes. -/
theorem opcode_exists : ∀ m : Mnemonic, m ≠ .ill → ∀ p ∈ m.modes, (opcodeOf m p).isSome = true := by
  intro m
  cases m <;> decide

theorem of_documented {i : Instr} (hu : i.undocumentedByte = none) (hm : i.mnemonic ≠ .ill) : Statement i := by
  intro h
  obtain ⟨op, hop⟩ := Option.isSome_iff_exists.mp (opcode_exists _ hm _ (mode_of_wellFormed h))
  exact of_row (op := op) (by rw [Instr.opcode, hu]; exact hop)

theorem adc (o : Operand) : Statement (.adc o) := of_documented rfl nofun
theorem and (o : Operand) : Statement (.and o) := of_documented rfl nofun
theorem asl (o : Operand) : Statement (.asl o) := of_documented rfl nofun
theorem bcc (d : Byte) : Statement (.bcc d) := of_documented rfl nofun
theorem bcs (d : Byte) : Statement (.bcs d) := of_documented rfl nofun
theorem beq (d : Byte) : Statement (.beq d) := of_documented rfl nofun
theorem bit (o : Operand) : Statement (.bit o) := of_documented rfl nofun
theorem bmi (d : Byte) : Statement (.bmi d) := of_documented rfl nofun
theorem bne (d : Byte) : Statement (.bne d) := of_documented rfl nofun
theorem bpl (d : Byte) : Statement (.bpl d) := of_documented rfl nofun
theorem brk : Statement .brk := of_documented rfl nofun
theorem bvc (d : Byte) : Statement (.bvc d) := of_documented rfl nofun
theorem bvs (d : Byte) : Statement (.bvs d) := of_documented rfl nofun
theorem clc : Statement .clc := of_documented rfl nofun
theorem cld : Statement .cld := of_documented rfl nofun
theorem cli : Statement .cli := of_documented rfl nofun
theorem clv : Statement .clv := of_documented rfl nofun
theorem cmp (o : Operand) : Statement (.cmp o) := of_documented rfl nofun
theorem cpx (o : Operand) : Statement (.cpx o) := of_documented rfl nofun
theorem cpy (o : Operand) : Statement (.cpy o) := of_documented rfl nofun
theorem dec (o : Operand) : Statement (.dec o) := of_documented rfl nofun
theorem dex : Statement .dex := of_documented rfl nofun
theorem dey : Statement .dey := of_documented rfl nofun
theorem eor (o : Operand) : Statement (.eor o) := of_documented rfl nofun
theorem inc (o : Operand) : Statement (.inc o) := of_documented rfl nofun
theorem inx : Statement .inx := of_documented rfl nofun
theorem iny : Statement .iny := of_documented rfl nofun
theorem jmp (o : Operand) : Statement (.jmp o) := of_documented rfl nofun
theorem jsr (a : Addr) : Statement (.jsr a) := of_documented rfl nofun
theorem lda (o : Operand) : Statement (.lda o) := of_documented rfl nofun
theorem ldx (o : Operand) : Statement (.ldx o) := of_documented rfl nofun
theorem ldy (o : Operand) : Statement (.ldy o) := of_documented rfl nofun
theorem lsr (o : Operand) : Statement (.lsr o) := of_documented rfl nofun
theorem nop : Statement .nop := of_documented rfl nofun
theorem ora (o : Operand) : Statement (.ora o) := of_documented rfl nofun
theorem pha : Statement .pha := of_documented rfl nofun
theorem php : Statement .php := of_documented rfl nofun
theorem pla : Statement .pla := of_documented rfl nofun
theorem plp : Statement .plp := of_documented rfl nofun
theorem rol (o : Operand) : Statement (.rol o) := of_documented rfl nofun
theorem ror (o : Operand) : Statement (.ror o) := of_documented rfl nofun
theorem rti : Statement .rti := of_documented rfl nofun
theorem rts : Statement .rts := of_documented rfl nofun
theorem sbc (o : Operand) : Statement (.sbc o) := of_documented rfl nofun
theorem sec : Statement .sec := of_documented rfl nofun
theorem sed : Statement .sed := of_documented rfl nofun
theorem sei : Statement .sei := of_documented rfl nofun
theorem sta (o : Operand) : Statement (.sta o) := of_documented rfl nofun
theorem stx (o : Operand) : Statement (.stx o) := of_documented rfl nofun
theorem sty (o : Operand) : Statement (.sty o) := of_documented rfl nofun
theorem tax : Statement .tax := of_documented rfl nofun
theorem tay : Statement .tay := of_documented rfl nofun
theorem tsx : Statement .tsx := of_documented rfl nofun
theorem txa : Statement .txa := of_documented rfl nofun
theorem txs : Statement .txs := of_documented rfl nofun
theorem tya : Statement .tya := of_documented rfl nofun
theorem ill (op : Byte) : Statement (.ill op) := fun _ => rfl

end Sys2Proof.Laws.EncodedLength
end

