-- ==== Sys2Proof/Tests/Slice0.lean ====
section
/-! SUPPORT. The model's own tests: decoding, the checks of WellFormed, vectors of spec/95_test_vectors.md, and a
witness for the hypotheses of every statement. -/

namespace Sys2Proof.Machine.Tests

open Sys2Proof Sys2Proof.Machine

/-! Decoding and encoding, each word from its row of spec/opcode_table.json, operand bytes 0x94 and 0x7E. -/

/-- The bytes decode to the instruction with none left over, and are its encoding. -/
def agree (bytes : List Byte) (instruction : Instr) : Bool :=
  (match decode bytes with
    | .ok (i, []) => decide (i = instruction)
    | .ok (_, _ :: _) | .error _ => false) &&
  decide (encode instruction = bytes)

theorem test_decode_loads :
    (agree [0b10100001#8, 0b10010100#8] (.lda (.izx 0x94#8)) &&
      agree [0b10100101#8, 0b10010100#8] (.lda (.zp0 0x94#8)) &&
      agree [0b10101001#8, 0b10010100#8] (.lda (.imm 0x94#8)) &&
      agree [0b10101101#8, 0b10010100#8, 0b01111110#8] (.lda (.abs 0x7E94#16)) &&
      agree [0b10110001#8, 0b10010100#8] (.lda (.izy 0x94#8)) &&
      agree [0b10110101#8, 0b10010100#8] (.lda (.zpx 0x94#8)) &&
      agree [0b10111001#8, 0b10010100#8, 0b01111110#8] (.lda (.aby 0x7E94#16)) &&
      agree [0b10111101#8, 0b10010100#8, 0b01111110#8] (.lda (.abx 0x7E94#16)) &&
      agree [0b10100010#8, 0b10010100#8] (.ldx (.imm 0x94#8)) &&
      agree [0b10100110#8, 0b10010100#8] (.ldx (.zp0 0x94#8)) &&
      agree [0b10101110#8, 0b10010100#8, 0b01111110#8] (.ldx (.abs 0x7E94#16)) &&
      agree [0b10110110#8, 0b10010100#8] (.ldx (.zpy 0x94#8)) &&
      agree [0b10111110#8, 0b10010100#8, 0b01111110#8] (.ldx (.aby 0x7E94#16)) &&
      agree [0b10100000#8, 0b10010100#8] (.ldy (.imm 0x94#8)) &&
      agree [0b10100100#8, 0b10010100#8] (.ldy (.zp0 0x94#8)) &&
      agree [0b10101100#8, 0b10010100#8, 0b01111110#8] (.ldy (.abs 0x7E94#16)) &&
      agree [0b10110100#8, 0b10010100#8] (.ldy (.zpx 0x94#8)) &&
      agree [0b10111100#8, 0b10010100#8, 0b01111110#8] (.ldy (.abx 0x7E94#16))) = true := by decide

theorem test_decode_stores :
    (agree [0b10000001#8, 0b10010100#8] (.sta (.izx 0x94#8)) &&
      agree [0b10000101#8, 0b10010100#8] (.sta (.zp0 0x94#8)) &&
      agree [0b10001101#8, 0b10010100#8, 0b01111110#8] (.sta (.abs 0x7E94#16)) &&
      agree [0b10010001#8, 0b10010100#8] (.sta (.izy 0x94#8)) &&
      agree [0b10010101#8, 0b10010100#8] (.sta (.zpx 0x94#8)) &&
      agree [0b10011001#8, 0b10010100#8, 0b01111110#8] (.sta (.aby 0x7E94#16)) &&
      agree [0b10011101#8, 0b10010100#8, 0b01111110#8] (.sta (.abx 0x7E94#16)) &&
      agree [0b10000110#8, 0b10010100#8] (.stx (.zp0 0x94#8)) &&
      agree [0b10001110#8, 0b10010100#8, 0b01111110#8] (.stx (.abs 0x7E94#16)) &&
      agree [0b10010110#8, 0b10010100#8] (.stx (.zpy 0x94#8)) &&
      agree [0b10000100#8, 0b10010100#8] (.sty (.zp0 0x94#8)) &&
      agree [0b10001100#8, 0b10010100#8, 0b01111110#8] (.sty (.abs 0x7E94#16)) &&
      agree [0b10010100#8, 0b10010100#8] (.sty (.zpx 0x94#8))) = true := by decide

theorem test_decode_transfers :
    (agree [0b10101010#8] (.tax) &&
      agree [0b10101000#8] (.tay) &&
      agree [0b10001010#8] (.txa) &&
      agree [0b10011000#8] (.tya) &&
      agree [0b10111010#8] (.tsx) &&
      agree [0b10011010#8] (.txs)) = true := by decide

theorem test_decode_adc_sbc :
    (agree [0b01100001#8, 0b10010100#8] (.adc (.izx 0x94#8)) &&
      agree [0b01100101#8, 0b10010100#8] (.adc (.zp0 0x94#8)) &&
      agree [0b01101001#8, 0b10010100#8] (.adc (.imm 0x94#8)) &&
      agree [0b01101101#8, 0b10010100#8, 0b01111110#8] (.adc (.abs 0x7E94#16)) &&
      agree [0b01110001#8, 0b10010100#8] (.adc (.izy 0x94#8)) &&
      agree [0b01110101#8, 0b10010100#8] (.adc (.zpx 0x94#8)) &&
      agree [0b01111001#8, 0b10010100#8, 0b01111110#8] (.adc (.aby 0x7E94#16)) &&
      agree [0b01111101#8, 0b10010100#8, 0b01111110#8] (.adc (.abx 0x7E94#16)) &&
      agree [0b11100001#8, 0b10010100#8] (.sbc (.izx 0x94#8)) &&
      agree [0b11100101#8, 0b10010100#8] (.sbc (.zp0 0x94#8)) &&
      agree [0b11101001#8, 0b10010100#8] (.sbc (.imm 0x94#8)) &&
      agree [0b11101101#8, 0b10010100#8, 0b01111110#8] (.sbc (.abs 0x7E94#16)) &&
      agree [0b11110001#8, 0b10010100#8] (.sbc (.izy 0x94#8)) &&
      agree [0b11110101#8, 0b10010100#8] (.sbc (.zpx 0x94#8)) &&
      agree [0b11111001#8, 0b10010100#8, 0b01111110#8] (.sbc (.aby 0x7E94#16)) &&
      agree [0b11111101#8, 0b10010100#8, 0b01111110#8] (.sbc (.abx 0x7E94#16))) = true := by decide

theorem test_decode_logic :
    (agree [0b00100001#8, 0b10010100#8] (.and (.izx 0x94#8)) &&
      agree [0b00100101#8, 0b10010100#8] (.and (.zp0 0x94#8)) &&
      agree [0b00101001#8, 0b10010100#8] (.and (.imm 0x94#8)) &&
      agree [0b00101101#8, 0b10010100#8, 0b01111110#8] (.and (.abs 0x7E94#16)) &&
      agree [0b00110001#8, 0b10010100#8] (.and (.izy 0x94#8)) &&
      agree [0b00110101#8, 0b10010100#8] (.and (.zpx 0x94#8)) &&
      agree [0b00111001#8, 0b10010100#8, 0b01111110#8] (.and (.aby 0x7E94#16)) &&
      agree [0b00111101#8, 0b10010100#8, 0b01111110#8] (.and (.abx 0x7E94#16)) &&
      agree [0b00000001#8, 0b10010100#8] (.ora (.izx 0x94#8)) &&
      agree [0b00000101#8, 0b10010100#8] (.ora (.zp0 0x94#8)) &&
      agree [0b00001001#8, 0b10010100#8] (.ora (.imm 0x94#8)) &&
      agree [0b00001101#8, 0b10010100#8, 0b01111110#8] (.ora (.abs 0x7E94#16)) &&
      agree [0b00010001#8, 0b10010100#8] (.ora (.izy 0x94#8)) &&
      agree [0b00010101#8, 0b10010100#8] (.ora (.zpx 0x94#8)) &&
      agree [0b00011001#8, 0b10010100#8, 0b01111110#8] (.ora (.aby 0x7E94#16)) &&
      agree [0b00011101#8, 0b10010100#8, 0b01111110#8] (.ora (.abx 0x7E94#16)) &&
      agree [0b01000001#8, 0b10010100#8] (.eor (.izx 0x94#8)) &&
      agree [0b01000101#8, 0b10010100#8] (.eor (.zp0 0x94#8)) &&
      agree [0b01001001#8, 0b10010100#8] (.eor (.imm 0x94#8)) &&
      agree [0b01001101#8, 0b10010100#8, 0b01111110#8] (.eor (.abs 0x7E94#16)) &&
      agree [0b01010001#8, 0b10010100#8] (.eor (.izy 0x94#8)) &&
      agree [0b01010101#8, 0b10010100#8] (.eor (.zpx 0x94#8)) &&
      agree [0b01011001#8, 0b10010100#8, 0b01111110#8] (.eor (.aby 0x7E94#16)) &&
      agree [0b01011101#8, 0b10010100#8, 0b01111110#8] (.eor (.abx 0x7E94#16)) &&
      agree [0b00100100#8, 0b10010100#8] (.bit (.zp0 0x94#8)) &&
      agree [0b00101100#8, 0b10010100#8, 0b01111110#8] (.bit (.abs 0x7E94#16))) = true := by decide

theorem test_decode_compares :
    (agree [0b11000001#8, 0b10010100#8] (.cmp (.izx 0x94#8)) &&
      agree [0b11000101#8, 0b10010100#8] (.cmp (.zp0 0x94#8)) &&
      agree [0b11001001#8, 0b10010100#8] (.cmp (.imm 0x94#8)) &&
      agree [0b11001101#8, 0b10010100#8, 0b01111110#8] (.cmp (.abs 0x7E94#16)) &&
      agree [0b11010001#8, 0b10010100#8] (.cmp (.izy 0x94#8)) &&
      agree [0b11010101#8, 0b10010100#8] (.cmp (.zpx 0x94#8)) &&
      agree [0b11011001#8, 0b10010100#8, 0b01111110#8] (.cmp (.aby 0x7E94#16)) &&
      agree [0b11011101#8, 0b10010100#8, 0b01111110#8] (.cmp (.abx 0x7E94#16)) &&
      agree [0b11100000#8, 0b10010100#8] (.cpx (.imm 0x94#8)) &&
      agree [0b11100100#8, 0b10010100#8] (.cpx (.zp0 0x94#8)) &&
      agree [0b11101100#8, 0b10010100#8, 0b01111110#8] (.cpx (.abs 0x7E94#16)) &&
      agree [0b11000000#8, 0b10010100#8] (.cpy (.imm 0x94#8)) &&
      agree [0b11000100#8, 0b10010100#8] (.cpy (.zp0 0x94#8)) &&
      agree [0b11001100#8, 0b10010100#8, 0b01111110#8] (.cpy (.abs 0x7E94#16))) = true := by decide

theorem test_decode_steps :
    (agree [0b11100110#8, 0b10010100#8] (.inc (.zp0 0x94#8)) &&
      agree [0b11101110#8, 0b10010100#8, 0b01111110#8] (.inc (.abs 0x7E94#16)) &&
      agree [0b11110110#8, 0b10010100#8] (.inc (.zpx 0x94#8)) &&
      agree [0b11111110#8, 0b10010100#8, 0b01111110#8] (.inc (.abx 0x7E94#16)) &&
      agree [0b11000110#8, 0b10010100#8] (.dec (.zp0 0x94#8)) &&
      agree [0b11001110#8, 0b10010100#8, 0b01111110#8] (.dec (.abs 0x7E94#16)) &&
      agree [0b11010110#8, 0b10010100#8] (.dec (.zpx 0x94#8)) &&
      agree [0b11011110#8, 0b10010100#8, 0b01111110#8] (.dec (.abx 0x7E94#16)) &&
      agree [0b11101000#8] (.inx) &&
      agree [0b11001000#8] (.iny) &&
      agree [0b11001010#8] (.dex) &&
      agree [0b10001000#8] (.dey)) = true := by decide

theorem test_decode_shifts :
    (agree [0b00000110#8, 0b10010100#8] (.asl (.zp0 0x94#8)) &&
      agree [0b00001010#8] (.asl .acc) &&
      agree [0b00001110#8, 0b10010100#8, 0b01111110#8] (.asl (.abs 0x7E94#16)) &&
      agree [0b00010110#8, 0b10010100#8] (.asl (.zpx 0x94#8)) &&
      agree [0b00011110#8, 0b10010100#8, 0b01111110#8] (.asl (.abx 0x7E94#16)) &&
      agree [0b01000110#8, 0b10010100#8] (.lsr (.zp0 0x94#8)) &&
      agree [0b01001010#8] (.lsr .acc) &&
      agree [0b01001110#8, 0b10010100#8, 0b01111110#8] (.lsr (.abs 0x7E94#16)) &&
      agree [0b01010110#8, 0b10010100#8] (.lsr (.zpx 0x94#8)) &&
      agree [0b01011110#8, 0b10010100#8, 0b01111110#8] (.lsr (.abx 0x7E94#16))) = true := by decide

theorem test_decode_rotates :
    (agree [0b00100110#8, 0b10010100#8] (.rol (.zp0 0x94#8)) &&
      agree [0b00101010#8] (.rol .acc) &&
      agree [0b00101110#8, 0b10010100#8, 0b01111110#8] (.rol (.abs 0x7E94#16)) &&
      agree [0b00110110#8, 0b10010100#8] (.rol (.zpx 0x94#8)) &&
      agree [0b00111110#8, 0b10010100#8, 0b01111110#8] (.rol (.abx 0x7E94#16)) &&
      agree [0b01100110#8, 0b10010100#8] (.ror (.zp0 0x94#8)) &&
      agree [0b01101010#8] (.ror .acc) &&
      agree [0b01101110#8, 0b10010100#8, 0b01111110#8] (.ror (.abs 0x7E94#16)) &&
      agree [0b01110110#8, 0b10010100#8] (.ror (.zpx 0x94#8)) &&
      agree [0b01111110#8, 0b10010100#8, 0b01111110#8] (.ror (.abx 0x7E94#16))) = true := by decide

theorem test_decode_branches :
    (agree [0b10010000#8, 0b10010100#8] (.bcc 0x94#8) &&
      agree [0b10110000#8, 0b10010100#8] (.bcs 0x94#8) &&
      agree [0b11110000#8, 0b10010100#8] (.beq 0x94#8) &&
      agree [0b00110000#8, 0b10010100#8] (.bmi 0x94#8) &&
      agree [0b11010000#8, 0b10010100#8] (.bne 0x94#8) &&
      agree [0b00010000#8, 0b10010100#8] (.bpl 0x94#8) &&
      agree [0b01010000#8, 0b10010100#8] (.bvc 0x94#8) &&
      agree [0b01110000#8, 0b10010100#8] (.bvs 0x94#8)) = true := by decide

theorem test_decode_jumps :
    (agree [0b01001100#8, 0b10010100#8, 0b01111110#8] (.jmp (.abs 0x7E94#16)) &&
      agree [0b01101100#8, 0b10010100#8, 0b01111110#8] (.jmp (.ind 0x7E94#16)) &&
      agree [0b00100000#8, 0b10010100#8, 0b01111110#8] (.jsr 0x7E94#16) &&
      agree [0b01100000#8] (.rts)) = true := by decide

theorem test_decode_stack :
    (agree [0b01001000#8] (.pha) &&
      agree [0b00001000#8] (.php) &&
      agree [0b01101000#8] (.pla) &&
      agree [0b00101000#8] (.plp)) = true := by decide

theorem test_decode_flags :
    (agree [0b00011000#8] (.clc) &&
      agree [0b11011000#8] (.cld) &&
      agree [0b01011000#8] (.cli) &&
      agree [0b10111000#8] (.clv) &&
      agree [0b00111000#8] (.sec) &&
      agree [0b11111000#8] (.sed) &&
      agree [0b01111000#8] (.sei)) = true := by decide

theorem test_decode_system :
    (agree [0b00000000#8] (.brk) &&
      agree [0b01000000#8] (.rti) &&
      agree [0b11101010#8] (.nop) &&
      agree [0b00000010#8] (.ill 0x02#8) &&
      agree [0b10000000#8] (.ill 0x80#8) &&
      agree [0b11111111#8] (.ill 0xFF#8)) = true := by decide

/-- The spec's first row: BRK leaves its padding byte to the stream (30_encoding.md R91). -/
theorem test_decode_leaves_the_rest : decode [0x00#8, 0xEA#8, 0x60#8] = .ok (.brk, [0xEA#8, 0x60#8]) := by rfl

theorem test_decode_no_byte : decode [] = .error .noOpcode := by rfl

theorem test_decode_missing_byte : decode [0xAD#8, 0x94#8] = .error (.missingOperand 0xAD#8) := by rfl

/-! The opcode table's words: 8 bits, the operand bytes zero. -/

theorem test_decodeTableWord_lda : decodeTableWord 8 0xBD = some (.lda (.abx 0x0000#16)) := by decide

theorem test_decodeTableWord_ill : decodeTableWord 8 0x9C = some (.ill 0x9C#8) := by decide

theorem test_decodeTableWord_high_bits : decodeTableWord 8 0xFFEA = some .nop := by decide

/-! Ill-formed terms, one for each check of `Instr.wellFormed`. -/

/-- A store has no immediate mode (R184). -/
theorem smoke_mode_sta_imm : (Instr.sta (.imm 0x12#8)).wellFormed = false := by decide

/-- INC has no accumulator mode (R220). -/
theorem smoke_mode_inc_acc : (Instr.inc .acc).wellFormed = false := by decide

/-- LDX is indexed by Y only (R182). -/
theorem smoke_mode_ldx_zpx : (Instr.ldx (.zpx 0x12#8)).wellFormed = false := by decide

/-- 0xEA is documented: NOP (R98, R314). -/
theorem smoke_byte_documented : (Instr.ill 0xEA#8).wellFormed = false := by decide

/-- Such terms have no bytes. -/
theorem smoke_no_encoding : encode (.sta (.imm 0x12#8)) = [] := by decide

/-- The start state of the L2 vectors (spec/95_test_vectors.md): A = X = Y = 0, SP = 0xFD, P = 0x20, PC = 0x8000,
memory zero, at an instruction boundary. -/
def start : State := { State.reset with pc := 0x8000#16, cycles := 0, busLog := [] }

/-- Bytes stored one after another. -/
def stored (m : List Host.Cell) (cells : List (Addr × Byte)) : List Host.Cell :=
  cells.foldl (fun m c => Memory.write m c.1.toNat c.2) m

/-- A state with bytes placed on the bus. -/
def placed (s : State) (cells : List (Addr × Byte)) : State := { s with mem := stored s.mem cells }

/-- The end of a vector: registers and ticks. -/
structure End where
  a : Byte
  x : Byte
  y : Byte
  sp : Byte
  p : Byte
  pc : Addr
  ticks : Nat
deriving DecidableEq, Repr

/-- One step ends as a vector says, with exactly the vector's writes in memory. -/
def runs (s : State) (e : End) (writes : List (Addr × Byte)) : Bool :=
  match step s with
  | .next t => decide (End.mk t.a t.x t.y t.sp t.p t.pc (t.cycles + 1) = e) && decide (t.mem = stored s.mem writes)
  | .fault _ | .refused _ => false


/-- L2.2: LDA $FFFF,X address wrap, cross (R181, R159). -/
theorem test_LDA_FFFF_X_address_wrap_cross :
    runs (placed { start with x := 0x02#8 }
        [(0x0001#16, 0x07#8), (0x8000#16, 0xBD#8), (0x8001#16, 0xFF#8), (0x8002#16, 0xFF#8)])
      ⟨0x07#8, 0x02#8, 0x00#8, 0xFD#8, 0x20#8, 0x8003#16, 5⟩ [] = true := by decide

/-- L2.2: LDA ($40),Y page cross (R181, R163). -/
theorem test_LDA_40_Y_page_cross :
    runs (placed { start with y := 0x20#8 }
        [(0x0040#16, 0xF0#8), (0x0041#16, 0x12#8), (0x1310#16, 0x99#8), (0x8000#16, 0xB1#8), (0x8001#16, 0x40#8)])
      ⟨0x99#8, 0x00#8, 0x20#8, 0xFD#8, 0xA0#8, 0x8002#16, 6⟩ [] = true := by decide

/-- L2.2: LDX $FF,Y wraps (R182, R156). -/
theorem test_LDX_FF_Y_wraps :
    runs (placed { start with y := 0x02#8 }
        [(0x0001#16, 0x90#8), (0x8000#16, 0xB6#8), (0x8001#16, 0xFF#8)])
      ⟨0x00#8, 0x90#8, 0x02#8, 0xFD#8, 0xA0#8, 0x8002#16, 4⟩ [] = true := by decide

/-- L2.1: LDX $12FF,Y cross (R160, R182). -/
theorem test_LDX_12FF_Y_cross :
    runs (placed { start with y := 0x01#8 }
        [(0x1300#16, 0x01#8), (0x8000#16, 0xBE#8), (0x8001#16, 0xFF#8), (0x8002#16, 0x12#8)])
      ⟨0x00#8, 0x01#8, 0x01#8, 0xFD#8, 0x20#8, 0x8003#16, 5⟩ [] = true := by decide

/-- L2.1: LDY $1200,X (R159, R183). -/
theorem test_LDY_1200_X :
    runs (placed { start with x := 0x01#8, y := 0x05#8 }
        [(0x8000#16, 0xBC#8), (0x8001#16, 0x00#8), (0x8002#16, 0x12#8)])
      ⟨0x00#8, 0x01#8, 0x00#8, 0xFD#8, 0x22#8, 0x8003#16, 4⟩ [] = true := by decide

/-- L2.2: LDY #$FF (R183). -/
theorem test_LDY_FF :
    runs (placed start
        [(0x8000#16, 0xA0#8), (0x8001#16, 0xFF#8)])
      ⟨0x00#8, 0x00#8, 0xFF#8, 0xFD#8, 0xA0#8, 0x8002#16, 2⟩ [] = true := by decide

/-- L2.2: STA ($FF,X) pointer wraps (R184, R162). -/
theorem test_STA_FF_X_pointer_wraps :
    runs (placed { start with a := 0x11#8 }
        [(0x00FF#16, 0x34#8), (0x0000#16, 0x12#8), (0x8000#16, 0x81#8), (0x8001#16, 0xFF#8)])
      ⟨0x11#8, 0x00#8, 0x00#8, 0xFD#8, 0x20#8, 0x8002#16, 6⟩ [(0x1234#16, 0x11#8)] = true := by decide

/-- L2.2: STA $12FF,Y cross, fixed cost (R184). -/
theorem test_STA_12FF_Y_cross_fixed_cost :
    runs (placed { start with a := 0x22#8, y := 0x01#8 }
        [(0x8000#16, 0x99#8), (0x8001#16, 0xFF#8), (0x8002#16, 0x12#8)])
      ⟨0x22#8, 0x00#8, 0x01#8, 0xFD#8, 0x20#8, 0x8003#16, 5⟩ [(0x1300#16, 0x22#8)] = true := by decide

/-- L2.1: BIT $0200 (ABS), all clear (R158, R216). -/
theorem test_BIT_0200_ABS_all_clear :
    runs (placed { start with a := 0xFF#8 }
        [(0x0200#16, 0x3F#8), (0x8000#16, 0x2C#8), (0x8001#16, 0x00#8), (0x8002#16, 0x02#8)])
      ⟨0xFF#8, 0x00#8, 0x00#8, 0xFD#8, 0x20#8, 0x8003#16, 4⟩ [] = true := by decide

/-- L2.3: BIT $10: N, V from memory, Z from A AND M (R216). -/
theorem test_BIT_10_N_V_from_memory_Z_from_A_AND_M :
    runs (placed { start with a := 0x01#8 }
        [(0x0010#16, 0xC0#8), (0x8000#16, 0x24#8), (0x8001#16, 0x10#8)])
      ⟨0x01#8, 0x00#8, 0x00#8, 0xFD#8, 0xE2#8, 0x8002#16, 3⟩ [] = true := by decide

/-- L2.3: ADC 0x80+0x80 (R211). -/
theorem test_ADC_0x80_plus_0x80 :
    runs (placed { start with a := 0x80#8 }
        [(0x8000#16, 0x69#8), (0x8001#16, 0x80#8)])
      ⟨0x00#8, 0x00#8, 0x00#8, 0xFD#8, 0x63#8, 0x8002#16, 2⟩ [] = true := by decide

/-- L2.1: ADC $12FF,X cross (R159, R211). -/
theorem test_ADC_12FF_X_cross :
    runs (placed { start with a := 0x10#8, x := 0x01#8, p := 0x21#8 }
        [(0x1300#16, 0x20#8), (0x8000#16, 0x7D#8), (0x8001#16, 0xFF#8), (0x8002#16, 0x12#8)])
      ⟨0x31#8, 0x01#8, 0x00#8, 0xFD#8, 0x20#8, 0x8003#16, 5⟩ [] = true := by decide

/-- L2.3: SBC 0x80-0x01, C=1, V (R212). -/
theorem test_SBC_0x80_minus_0x01_C_1_V :
    runs (placed { start with a := 0x80#8, p := 0x21#8 }
        [(0x8000#16, 0xE9#8), (0x8001#16, 0x01#8)])
      ⟨0x7F#8, 0x00#8, 0x00#8, 0xFD#8, 0x61#8, 0x8002#16, 2⟩ [] = true := by decide

/-- L2.1: SBC ($40),Y no cross (R163, R212). -/
theorem test_SBC_40_Y_no_cross :
    runs (placed { start with a := 0x10#8, y := 0x01#8, p := 0x21#8 }
        [(0x0040#16, 0x00#8), (0x0041#16, 0x12#8), (0x1201#16, 0x10#8), (0x8000#16, 0xF1#8), (0x8001#16, 0x40#8)])
      ⟨0x00#8, 0x00#8, 0x01#8, 0xFD#8, 0x23#8, 0x8002#16, 5⟩ [] = true := by decide

/-- L2.3: CMP less (R217). -/
theorem test_CMP_less :
    runs (placed { start with a := 0x40#8 }
        [(0x8000#16, 0xC9#8), (0x8001#16, 0x41#8)])
      ⟨0x40#8, 0x00#8, 0x00#8, 0xFD#8, 0xA0#8, 0x8002#16, 2⟩ [] = true := by decide

/-- L2.1: CMP $10,X (ZPX) (R155, R217). -/
theorem test_CMP_10_X_ZPX :
    runs (placed { start with a := 0x10#8, x := 0x01#8 }
        [(0x0011#16, 0x10#8), (0x8000#16, 0xD5#8), (0x8001#16, 0x10#8)])
      ⟨0x10#8, 0x01#8, 0x00#8, 0xFD#8, 0x23#8, 0x8002#16, 4⟩ [] = true := by decide

/-- L2.3: INC $10 wraps (R220). -/
theorem test_INC_10_wraps :
    runs (placed start
        [(0x0010#16, 0xFF#8), (0x8000#16, 0xE6#8), (0x8001#16, 0x10#8)])
      ⟨0x00#8, 0x00#8, 0x00#8, 0xFD#8, 0x22#8, 0x8002#16, 5⟩ [(0x0010#16, 0x00#8)] = true := by decide

/-- L2.1: INC $0200 (ABS) (R158, R220). -/
theorem test_INC_0200_ABS :
    runs (placed start
        [(0x0200#16, 0x7F#8), (0x8000#16, 0xEE#8), (0x8001#16, 0x00#8), (0x8002#16, 0x02#8)])
      ⟨0x00#8, 0x00#8, 0x00#8, 0xFD#8, 0xA0#8, 0x8003#16, 6⟩ [(0x0200#16, 0x80#8)] = true := by decide

/-- L2.4: ASL A 0x80 (R251). -/
theorem test_ASL_A_0x80 :
    runs (placed { start with a := 0x80#8 }
        [(0x8000#16, 0x0A#8)])
      ⟨0x00#8, 0x00#8, 0x00#8, 0xFD#8, 0x23#8, 0x8001#16, 2⟩ [] = true := by decide

/-- L2.1: ASL $12FF,X cross, still 7 (R159, R251). -/
theorem test_ASL_12FF_X_cross_still_7 :
    runs (placed { start with x := 0x01#8 }
        [(0x1300#16, 0x01#8), (0x8000#16, 0x1E#8), (0x8001#16, 0xFF#8), (0x8002#16, 0x12#8)])
      ⟨0x00#8, 0x01#8, 0x00#8, 0xFD#8, 0x20#8, 0x8003#16, 7⟩ [(0x1300#16, 0x02#8)] = true := by decide

/-- L2.4: ROL A 0x80, C=1 (R253). -/
theorem test_ROL_A_0x80_C_1 :
    runs (placed { start with a := 0x80#8, p := 0x21#8 }
        [(0x8000#16, 0x2A#8)])
      ⟨0x01#8, 0x00#8, 0x00#8, 0xFD#8, 0x21#8, 0x8001#16, 2⟩ [] = true := by decide

/-- L2.4: ROL $10 0x80, C=0 (R253). -/
theorem test_ROL_10_0x80_C_0 :
    runs (placed start
        [(0x0010#16, 0x80#8), (0x8000#16, 0x26#8), (0x8001#16, 0x10#8)])
      ⟨0x00#8, 0x00#8, 0x00#8, 0xFD#8, 0x23#8, 0x8002#16, 5⟩ [(0x0010#16, 0x00#8)] = true := by decide

/-- L2.2: STX $FF,Y wraps (R185). -/
theorem test_STX_FF_Y_wraps :
    runs (placed { start with x := 0x33#8, y := 0x01#8 }
        [(0x8000#16, 0x96#8), (0x8001#16, 0xFF#8)])
      ⟨0x00#8, 0x33#8, 0x01#8, 0xFD#8, 0x20#8, 0x8002#16, 4⟩ [(0x0000#16, 0x33#8)] = true := by decide

/-- L2.2: STY $FF,X wraps (R186). -/
theorem test_STY_FF_X_wraps :
    runs (placed { start with y := 0x07#8, x := 0x01#8 }
        [(0x8000#16, 0x94#8), (0x8001#16, 0xFF#8)])
      ⟨0x00#8, 0x01#8, 0x07#8, 0xFD#8, 0x20#8, 0x8002#16, 4⟩ [(0x0000#16, 0x07#8)] = true := by decide

/-- L2.2: TAX zero (R187). -/
theorem test_TAX_zero :
    runs (placed { start with x := 0x12#8 }
        [(0x8000#16, 0xAA#8)])
      ⟨0x00#8, 0x00#8, 0x00#8, 0xFD#8, 0x22#8, 0x8001#16, 2⟩ [] = true := by decide

/-- L2.2: TAY negative (R188). -/
theorem test_TAY_negative :
    runs (placed { start with a := 0x90#8 }
        [(0x8000#16, 0xA8#8)])
      ⟨0x90#8, 0x00#8, 0x90#8, 0xFD#8, 0xA0#8, 0x8001#16, 2⟩ [] = true := by decide

/-- L2.2: TXA (R189). -/
theorem test_TXA :
    runs (placed { start with x := 0x01#8, a := 0xFF#8 }
        [(0x8000#16, 0x8A#8)])
      ⟨0x01#8, 0x01#8, 0x00#8, 0xFD#8, 0x20#8, 0x8001#16, 2⟩ [] = true := by decide

/-- L2.2: TYA (R190). -/
theorem test_TYA :
    runs (placed { start with y := 0xFF#8 }
        [(0x8000#16, 0x98#8)])
      ⟨0xFF#8, 0x00#8, 0xFF#8, 0xFD#8, 0xA0#8, 0x8001#16, 2⟩ [] = true := by decide

/-- L2.2: TSX after reset (R191). -/
theorem test_TSX_after_reset :
    runs (placed start
        [(0x8000#16, 0xBA#8)])
      ⟨0x00#8, 0xFD#8, 0x00#8, 0xFD#8, 0xA0#8, 0x8001#16, 2⟩ [] = true := by decide

/-- L2.2: TXS writes no flag (R192). -/
theorem test_TXS_writes_no_flag :
    runs (placed start
        [(0x8000#16, 0x9A#8)])
      ⟨0x00#8, 0x00#8, 0x00#8, 0x00#8, 0x20#8, 0x8001#16, 2⟩ [] = true := by decide

/-- L2.3: AND to zero (R213). -/
theorem test_AND_to_zero :
    runs (placed { start with a := 0xF0#8 }
        [(0x8000#16, 0x29#8), (0x8001#16, 0x0F#8)])
      ⟨0x00#8, 0x00#8, 0x00#8, 0xFD#8, 0x22#8, 0x8002#16, 2⟩ [] = true := by decide

/-- L2.3: ORA (R214). -/
theorem test_ORA :
    runs (placed { start with a := 0x01#8 }
        [(0x8000#16, 0x09#8), (0x8001#16, 0x80#8)])
      ⟨0x81#8, 0x00#8, 0x00#8, 0xFD#8, 0xA0#8, 0x8002#16, 2⟩ [] = true := by decide

/-- L2.3: EOR with itself (R215). -/
theorem test_EOR_with_itself :
    runs (placed { start with a := 0xFF#8 }
        [(0x8000#16, 0x49#8), (0x8001#16, 0xFF#8)])
      ⟨0x00#8, 0x00#8, 0x00#8, 0xFD#8, 0x22#8, 0x8002#16, 2⟩ [] = true := by decide

/-- L2.3: CPX greater (R218). -/
theorem test_CPX_greater :
    runs (placed { start with x := 0x20#8 }
        [(0x8000#16, 0xE0#8), (0x8001#16, 0x10#8)])
      ⟨0x00#8, 0x20#8, 0x00#8, 0xFD#8, 0x21#8, 0x8002#16, 2⟩ [] = true := by decide

/-- L2.3: CPY less (R219). -/
theorem test_CPY_less :
    runs (placed { start with y := 0x20#8 }
        [(0x8000#16, 0xC0#8), (0x8001#16, 0x30#8)])
      ⟨0x00#8, 0x00#8, 0x20#8, 0xFD#8, 0xA0#8, 0x8002#16, 2⟩ [] = true := by decide

/-- L2.3: DEC $10 to zero (R221). -/
theorem test_DEC_10_to_zero :
    runs (placed start
        [(0x0010#16, 0x01#8), (0x8000#16, 0xC6#8), (0x8001#16, 0x10#8)])
      ⟨0x00#8, 0x00#8, 0x00#8, 0xFD#8, 0x22#8, 0x8002#16, 5⟩ [(0x0010#16, 0x00#8)] = true := by decide

/-- L2.3: DEC $1000,X wraps, fixed cost 7 (R221). -/
theorem test_DEC_1000_X_wraps_fixed_cost_7 :
    runs (placed { start with x := 0xFF#8 }
        [(0x8000#16, 0xDE#8), (0x8001#16, 0x00#8), (0x8002#16, 0x10#8)])
      ⟨0x00#8, 0xFF#8, 0x00#8, 0xFD#8, 0xA0#8, 0x8003#16, 7⟩ [(0x10FF#16, 0xFF#8)] = true := by decide

/-- L2.3: INX wraps (R222). -/
theorem test_INX_wraps :
    runs (placed { start with x := 0xFF#8 }
        [(0x8000#16, 0xE8#8)])
      ⟨0x00#8, 0x00#8, 0x00#8, 0xFD#8, 0x22#8, 0x8001#16, 2⟩ [] = true := by decide

/-- L2.3: INY to 0x80 (R223). -/
theorem test_INY_to_0x80 :
    runs (placed { start with y := 0x7F#8 }
        [(0x8000#16, 0xC8#8)])
      ⟨0x00#8, 0x00#8, 0x80#8, 0xFD#8, 0xA0#8, 0x8001#16, 2⟩ [] = true := by decide

/-- L2.3: DEX wraps (R224). -/
theorem test_DEX_wraps :
    runs (placed start
        [(0x8000#16, 0xCA#8)])
      ⟨0x00#8, 0xFF#8, 0x00#8, 0xFD#8, 0xA0#8, 0x8001#16, 2⟩ [] = true := by decide

/-- L2.3: DEY to zero (R225). -/
theorem test_DEY_to_zero :
    runs (placed { start with y := 0x01#8 }
        [(0x8000#16, 0x88#8)])
      ⟨0x00#8, 0x00#8, 0x00#8, 0xFD#8, 0x22#8, 0x8001#16, 2⟩ [] = true := by decide

/-- L2.4: LSR A 0x01 (R252). -/
theorem test_LSR_A_0x01 :
    runs (placed { start with a := 0x01#8 }
        [(0x8000#16, 0x4A#8)])
      ⟨0x00#8, 0x00#8, 0x00#8, 0xFD#8, 0x23#8, 0x8001#16, 2⟩ [] = true := by decide

/-- L2.4: LSR $1000,X (R252). -/
theorem test_LSR_1000_X :
    runs (placed { start with x := 0x05#8 }
        [(0x1005#16, 0xFF#8), (0x8000#16, 0x5E#8), (0x8001#16, 0x00#8), (0x8002#16, 0x10#8)])
      ⟨0x00#8, 0x05#8, 0x00#8, 0xFD#8, 0x21#8, 0x8003#16, 7⟩ [(0x1005#16, 0x7F#8)] = true := by decide

/-- L2.4: ROR A 0x01, C=1 (R254). -/
theorem test_ROR_A_0x01_C_1 :
    runs (placed { start with a := 0x01#8, p := 0x21#8 }
        [(0x8000#16, 0x6A#8)])
      ⟨0x80#8, 0x00#8, 0x00#8, 0xFD#8, 0xA1#8, 0x8001#16, 2⟩ [] = true := by decide

/-- L2.4: ROR $10 0x01, C=0 (R254). -/
theorem test_ROR_10_0x01_C_0 :
    runs (placed start
        [(0x0010#16, 0x01#8), (0x8000#16, 0x66#8), (0x8001#16, 0x10#8)])
      ⟨0x00#8, 0x00#8, 0x00#8, 0xFD#8, 0x23#8, 0x8002#16, 5⟩ [(0x0010#16, 0x00#8)] = true := by decide

/-- L2.5: BEQ taken, page cross (R273). -/
theorem test_BEQ_taken_page_cross :
    runs (placed { start with p := 0x22#8, pc := 0x80F0#16 }
        [(0x80F0#16, 0xF0#8), (0x80F1#16, 0x7F#8)])
      ⟨0x00#8, 0x00#8, 0x00#8, 0xFD#8, 0x22#8, 0x8171#16, 4⟩ [] = true := by decide

/-- L2.5: BEQ not taken (R273). -/
theorem test_BEQ_not_taken :
    runs (placed start
        [(0x8000#16, 0xF0#8), (0x8001#16, 0x10#8)])
      ⟨0x00#8, 0x00#8, 0x00#8, 0xFD#8, 0x20#8, 0x8002#16, 2⟩ [] = true := by decide

/-- L2.5: BNE backward (R275). -/
theorem test_BNE_backward :
    runs (placed { start with pc := 0x8010#16 }
        [(0x8010#16, 0xD0#8), (0x8011#16, 0xFB#8)])
      ⟨0x00#8, 0x00#8, 0x00#8, 0xFD#8, 0x20#8, 0x800D#16, 3⟩ [] = true := by decide

/-- L2.5: BMI displacement -128 (R274). -/
theorem test_BMI_displacement_minus_128 :
    runs (placed { start with p := 0xA0#8, pc := 0x8080#16 }
        [(0x8080#16, 0x30#8), (0x8081#16, 0x80#8)])
      ⟨0x00#8, 0x00#8, 0x00#8, 0xFD#8, 0xA0#8, 0x8002#16, 3⟩ [] = true := by decide

/-- L2.5: BPL at 0xFFFD wraps, cross (R276). -/
theorem test_BPL_at_0xFFFD_wraps_cross :
    runs (placed { start with pc := 0xFFFD#16 }
        [(0xFFFD#16, 0x10#8), (0xFFFE#16, 0x01#8)])
      ⟨0x00#8, 0x00#8, 0x00#8, 0xFD#8, 0x20#8, 0x0000#16, 4⟩ [] = true := by decide

/-- L2.5: BPL at 0xFFFE, no cross (R276). -/
theorem test_BPL_at_0xFFFE_no_cross :
    runs (placed { start with pc := 0xFFFE#16 }
        [(0xFFFE#16, 0x10#8), (0xFFFF#16, 0x00#8)])
      ⟨0x00#8, 0x00#8, 0x00#8, 0xFD#8, 0x20#8, 0x0000#16, 3⟩ [] = true := by decide

/-- L2.5: BCC taken (R271). -/
theorem test_BCC_taken :
    runs (placed start
        [(0x8000#16, 0x90#8), (0x8001#16, 0x02#8)])
      ⟨0x00#8, 0x00#8, 0x00#8, 0xFD#8, 0x20#8, 0x8004#16, 3⟩ [] = true := by decide

/-- L2.5: BCS not taken (R272). -/
theorem test_BCS_not_taken :
    runs (placed start
        [(0x8000#16, 0xB0#8), (0x8001#16, 0x10#8)])
      ⟨0x00#8, 0x00#8, 0x00#8, 0xFD#8, 0x20#8, 0x8002#16, 2⟩ [] = true := by decide

/-- L2.5: BVC not taken (R277). -/
theorem test_BVC_not_taken :
    runs (placed { start with p := 0x60#8 }
        [(0x8000#16, 0x50#8), (0x8001#16, 0x05#8)])
      ⟨0x00#8, 0x00#8, 0x00#8, 0xFD#8, 0x60#8, 0x8002#16, 2⟩ [] = true := by decide

/-- L2.5: BVS taken (R278). -/
theorem test_BVS_taken :
    runs (placed { start with p := 0x60#8 }
        [(0x8000#16, 0x70#8), (0x8001#16, 0x05#8)])
      ⟨0x00#8, 0x00#8, 0x00#8, 0xFD#8, 0x60#8, 0x8007#16, 3⟩ [] = true := by decide

/-- L2.5: JMP ($01FF) page-wrap bug (R279, R161). -/
theorem test_JMP_01FF_page_minus_wrap_bug :
    runs (placed start
        [(0x01FF#16, 0x00#8), (0x0100#16, 0x80#8), (0x0200#16, 0x02#8), (0x8000#16, 0x6C#8), (0x8001#16, 0xFF#8), (0x8002#16, 0x01#8)])
      ⟨0x00#8, 0x00#8, 0x00#8, 0xFD#8, 0x20#8, 0x8000#16, 5⟩ [] = true := by decide

/-- L2.5: JMP absolute (R279). -/
theorem test_JMP_absolute :
    runs (placed start
        [(0x8000#16, 0x4C#8), (0x8001#16, 0x34#8), (0x8002#16, 0x12#8)])
      ⟨0x00#8, 0x00#8, 0x00#8, 0xFD#8, 0x20#8, 0x1234#16, 3⟩ [] = true := by decide

/-- L2.5: JSR (R280). -/
theorem test_JSR :
    runs (placed { start with pc := 0x8002#16 }
        [(0x8002#16, 0x20#8), (0x8003#16, 0x10#8), (0x8004#16, 0x80#8)])
      ⟨0x00#8, 0x00#8, 0x00#8, 0xFB#8, 0x20#8, 0x8010#16, 6⟩ [(0x01FC#16, 0x04#8), (0x01FD#16, 0x80#8)] = true := by decide

/-- L2.5: JSR with SP=0x00 (R280). -/
theorem test_JSR_with_SP_0x00 :
    runs (placed { start with pc := 0x8002#16, sp := 0x00#8 }
        [(0x8002#16, 0x20#8), (0x8003#16, 0x10#8), (0x8004#16, 0x80#8)])
      ⟨0x00#8, 0x00#8, 0x00#8, 0xFE#8, 0x20#8, 0x8010#16, 6⟩ [(0x0100#16, 0x80#8), (0x01FF#16, 0x04#8)] = true := by decide

/-- L2.5: RTS (R281). -/
theorem test_RTS :
    runs (placed { start with sp := 0xFB#8 }
        [(0x01FC#16, 0x04#8), (0x01FD#16, 0x80#8), (0x8000#16, 0x60#8)])
      ⟨0x00#8, 0x00#8, 0x00#8, 0xFD#8, 0x20#8, 0x8005#16, 6⟩ [] = true := by decide

/-- L2.5: RTS of 0xFFFF wraps (R281). -/
theorem test_RTS_of_0xFFFF_wraps :
    runs (placed { start with sp := 0xFB#8 }
        [(0x01FC#16, 0xFF#8), (0x01FD#16, 0xFF#8), (0x8000#16, 0x60#8)])
      ⟨0x00#8, 0x00#8, 0x00#8, 0xFD#8, 0x20#8, 0x0000#16, 6⟩ [] = true := by decide

/-- L2.6: PHA (R301). -/
theorem test_PHA :
    runs (placed { start with a := 0x34#8 }
        [(0x8000#16, 0x48#8)])
      ⟨0x34#8, 0x00#8, 0x00#8, 0xFC#8, 0x20#8, 0x8001#16, 3⟩ [(0x01FD#16, 0x34#8)] = true := by decide

/-- L2.6: PHA with SP=0x00 (R301). -/
theorem test_PHA_with_SP_0x00 :
    runs (placed { start with a := 0x34#8, sp := 0x00#8 }
        [(0x8000#16, 0x48#8)])
      ⟨0x34#8, 0x00#8, 0x00#8, 0xFF#8, 0x20#8, 0x8001#16, 3⟩ [(0x0100#16, 0x34#8)] = true := by decide

/-- L2.6: PHP after reset (R302). -/
theorem test_PHP_after_reset :
    runs (placed start
        [(0x8000#16, 0x08#8)])
      ⟨0x00#8, 0x00#8, 0x00#8, 0xFC#8, 0x20#8, 0x8001#16, 3⟩ [(0x01FD#16, 0x30#8)] = true := by decide

/-- L2.6: PHP all flags (R302). -/
theorem test_PHP_all_flags :
    runs (placed { start with p := 0xEF#8 }
        [(0x8000#16, 0x08#8)])
      ⟨0x00#8, 0x00#8, 0x00#8, 0xFC#8, 0xEF#8, 0x8001#16, 3⟩ [(0x01FD#16, 0xFF#8)] = true := by decide

/-- L2.6: PLA zero (R303). -/
theorem test_PLA_zero :
    runs (placed { start with a := 0x12#8, sp := 0xFC#8 }
        [(0x8000#16, 0x68#8)])
      ⟨0x00#8, 0x00#8, 0x00#8, 0xFD#8, 0x22#8, 0x8001#16, 4⟩ [] = true := by decide

/-- L2.6: PLA with SP=0xFF (R303). -/
theorem test_PLA_with_SP_0xFF :
    runs (placed { start with sp := 0xFF#8 }
        [(0x0100#16, 0x80#8), (0x8000#16, 0x68#8)])
      ⟨0x80#8, 0x00#8, 0x00#8, 0x00#8, 0xA0#8, 0x8001#16, 4⟩ [] = true := by decide

/-- L2.6: PLP 0xFF (R304). -/
theorem test_PLP_0xFF :
    runs (placed { start with sp := 0xFC#8 }
        [(0x01FD#16, 0xFF#8), (0x8000#16, 0x28#8)])
      ⟨0x00#8, 0x00#8, 0x00#8, 0xFD#8, 0xEF#8, 0x8001#16, 4⟩ [] = true := by decide

/-- L2.6: PLP 0x00 (R304). -/
theorem test_PLP_0x00 :
    runs (placed { start with sp := 0xFC#8, p := 0xE7#8 }
        [(0x8000#16, 0x28#8)])
      ⟨0x00#8, 0x00#8, 0x00#8, 0xFD#8, 0x20#8, 0x8001#16, 4⟩ [] = true := by decide

/-- L2.6: CLC (R305). -/
theorem test_CLC :
    runs (placed { start with p := 0x21#8 }
        [(0x8000#16, 0x18#8)])
      ⟨0x00#8, 0x00#8, 0x00#8, 0xFD#8, 0x20#8, 0x8001#16, 2⟩ [] = true := by decide

/-- L2.6: CLD (R306). -/
theorem test_CLD :
    runs (placed { start with p := 0x28#8 }
        [(0x8000#16, 0xD8#8)])
      ⟨0x00#8, 0x00#8, 0x00#8, 0xFD#8, 0x20#8, 0x8001#16, 2⟩ [] = true := by decide

/-- L2.6: CLI (R307). -/
theorem test_CLI :
    runs (placed { start with p := 0x24#8 }
        [(0x8000#16, 0x58#8)])
      ⟨0x00#8, 0x00#8, 0x00#8, 0xFD#8, 0x20#8, 0x8001#16, 2⟩ [] = true := by decide

/-- L2.6: CLV (R308). -/
theorem test_CLV :
    runs (placed { start with p := 0x60#8 }
        [(0x8000#16, 0xB8#8)])
      ⟨0x00#8, 0x00#8, 0x00#8, 0xFD#8, 0x20#8, 0x8001#16, 2⟩ [] = true := by decide

/-- L2.6: SEC (R309). -/
theorem test_SEC :
    runs (placed start
        [(0x8000#16, 0x38#8)])
      ⟨0x00#8, 0x00#8, 0x00#8, 0xFD#8, 0x21#8, 0x8001#16, 2⟩ [] = true := by decide

/-- L2.6: SED (R310). -/
theorem test_SED :
    runs (placed start
        [(0x8000#16, 0xF8#8)])
      ⟨0x00#8, 0x00#8, 0x00#8, 0xFD#8, 0x28#8, 0x8001#16, 2⟩ [] = true := by decide

/-- L2.6: SEI (R311). -/
theorem test_SEI :
    runs (placed start
        [(0x8000#16, 0x78#8)])
      ⟨0x00#8, 0x00#8, 0x00#8, 0xFD#8, 0x24#8, 0x8001#16, 2⟩ [] = true := by decide

/-- L2.6: BRK (R312). -/
theorem test_BRK :
    runs (placed start
        [(0xFFFE#16, 0x00#8), (0xFFFF#16, 0x90#8), (0x8000#16, 0x00#8), (0x8001#16, 0xFF#8)])
      ⟨0x00#8, 0x00#8, 0x00#8, 0xFA#8, 0x24#8, 0x9000#16, 7⟩ [(0x01FB#16, 0x30#8), (0x01FC#16, 0x02#8), (0x01FD#16, 0x80#8)] = true := by decide

/-- L2.6: BRK with I=1, D=1 (R312). -/
theorem test_BRK_with_I_1_D_1 :
    runs (placed { start with p := 0x2C#8 }
        [(0xFFFE#16, 0x00#8), (0xFFFF#16, 0x90#8), (0x8000#16, 0x00#8), (0x8001#16, 0xFF#8)])
      ⟨0x00#8, 0x00#8, 0x00#8, 0xFA#8, 0x2C#8, 0x9000#16, 7⟩ [(0x01FB#16, 0x3C#8), (0x01FC#16, 0x02#8), (0x01FD#16, 0x80#8)] = true := by decide

/-- L2.6: RTI (R313). -/
theorem test_RTI :
    runs (placed { start with sp := 0xFA#8, p := 0x24#8 }
        [(0x01FB#16, 0x30#8), (0x01FC#16, 0x02#8), (0x01FD#16, 0x80#8), (0x8000#16, 0x40#8)])
      ⟨0x00#8, 0x00#8, 0x00#8, 0xFD#8, 0x20#8, 0x8002#16, 6⟩ [] = true := by decide

/-- L2.6: RTI of 0xFF status (R313). -/
theorem test_RTI_of_0xFF_status :
    runs (placed { start with sp := 0xFA#8 }
        [(0x01FB#16, 0xFF#8), (0x01FC#16, 0x00#8), (0x01FD#16, 0x90#8), (0x8000#16, 0x40#8)])
      ⟨0x00#8, 0x00#8, 0x00#8, 0xFD#8, 0xEF#8, 0x9000#16, 6⟩ [] = true := by decide

/-- L2.6: NOP (R314). -/
theorem test_NOP :
    runs (placed { start with a := 0x12#8 }
        [(0x8000#16, 0xEA#8)])
      ⟨0x12#8, 0x00#8, 0x00#8, 0xFD#8, 0x20#8, 0x8001#16, 2⟩ [] = true := by decide

/-- L2.6: undocumented 0x02 (R315). -/
theorem test_undocumented_0x02 :
    runs (placed { start with a := 0x12#8 }
        [(0x8000#16, 0x02#8)])
      ⟨0x12#8, 0x00#8, 0x00#8, 0xFD#8, 0x20#8, 0x8001#16, 2⟩ [] = true := by decide

/-- L2.6: undocumented 0xFF (R315). -/
theorem test_undocumented_0xFF :
    runs (placed start
        [(0x8000#16, 0xFF#8)])
      ⟨0x00#8, 0x00#8, 0x00#8, 0xFD#8, 0x20#8, 0x8001#16, 2⟩ [] = true := by decide

/-! Reset, interrupts and the fetch word. -/

/-- The registers and the countdown of a next state; nothing of a stop. -/
def ends (o : Host.Outcome State Fault Refusal) : Option End :=
  match o with
  | .next t => some ⟨t.a, t.x, t.y, t.sp, t.p, t.pc, t.cycles⟩
  | .fault _ | .refused _ => none

/-- One step completes. -/
def completes (o : Host.Outcome State Fault Refusal) : Bool :=
  match o with
  | .next _ => true
  | .fault _ | .refused _ => false

/-- The bytes a next state holds at some addresses. -/
def held (o : Host.Outcome State Fault Refusal) (at_ : List Addr) : List Byte :=
  match o with
  | .next t => at_.map fun a => Memory.read t.mem a.toNat
  | .fault _ | .refused _ => []

/-- The three vectors at 0x9000 (NMI), 0x8000 (reset) and 0xA000 (IRQ/BRK), PC at 0x1234. -/
def vectored : State :=
  placed { start with pc := 0x1234#16 } [(0xFFFB#16, 0x90#8), (0xFFFD#16, 0x80#8), (0xFFFF#16, 0xA0#8)]

/-- R380: PC from the reset vector, SP 0xFD, P 0x20, eight cycles. -/
theorem test_reset : ends (.next (reset { vectored with a := 0x55#8, sp := 0x12#8, p := 0xFF#8 })) =
    some ⟨0x00#8, 0x00#8, 0x00#8, 0xFD#8, 0x20#8, 0x8000#16, 8⟩ := by decide

/-- R341: at a boundary with I clear the entry pushes PC and `(P & 0xEF) | 0x20`. -/
theorem test_irq_pushes : held (irq { vectored with p := 0x33#8 }) [0x01FD#16, 0x01FC#16, 0x01FB#16] =
    [0x12#8, 0x34#8, 0x23#8] := by decide

/-- R342: an NMI is taken whatever I is, through 0xFFFA. -/
theorem test_nmi_unmasked :
    (match nmi { vectored with p := 0x24#8 } with
      | .next t => decide (t.pc = 0x9000#16 ∧ t.sp = 0xFA#8 ∧ t.p = 0x24#8)
      | .fault _ | .refused _ => false) = true := by decide

/-- R344: both pending, the NMI goes first and the IRQ stays latched. -/
theorem test_pending_nmi_first :
    (match step { vectored with nmiPending := true, irqPending := true } with
      | .next t => decide (t.pc = 0x9000#16 ∧ t.nmiPending = false ∧ t.irqPending = true)
      | .fault _ | .refused _ => false) = true := by decide

/-- The fetch word runs as the first instruction after reset: LDX #0 sets Z (R182). -/
theorem test_withFetchWord : ends (step (State.reset.withFetchWord 8 0xA2)) =
    some ⟨0x00#8, 0x00#8, 0x00#8, 0xFD#8, 0x22#8, 0x0002#16, 1⟩ := by decide

/-! Witnesses: a concrete state and operands meeting the hypotheses of each statement, and of each of its
clauses. A statement named here that has several clauses has one witness a clause. -/

/-- A bus with a read-only region from 0x8000 to the top and a device from 0x2000 to 0x3FFF. -/
def mapped : State := { start with regions := [⟨0x8000, 0x8000, .rom⟩, ⟨0x2000, 0x2000, .device⟩] }

theorem start_allRam : AllRam start := fun _ => rfl

theorem start_inv : start.Inv := ⟨by decide, by decide, by decide, by decide⟩

theorem witness_DecodeOfEncodeIsTheInstruction :
    (Instr.lda (.abx 0xFFFF#16)).WellFormed ∧ (Instr.ill 0xFF#8).WellFormed ∧ Instr.brk.WellFormed := by decide

theorem witness_EveryOpcodeByteDecodes_missing :
    ([] : List Byte).length < (entry 0xA9#8).mode.operandBytes ∧
    ([0xFF#8] : List Byte).length < (entry 0xFD#8).mode.operandBytes := by decide

theorem witness_UndocumentedBytesAreIll : 0x02#8 ∈ undocumented ∧ 0xFF#8 ∈ undocumented := by decide

theorem witness_FlagSetterWritesOneBit : Flag.n ∉ [Flag.c] := by decide

theorem witness_BusWriteReachesRamOnly_ram : Memory.wf mapped.mem = true ∧ mapped.kindAt 0x7FFF#16 = .ram := by decide

theorem witness_BusWriteReachesRamOnly_rom :
    mapped.kindAt 0x8000#16 = .rom ∧ mapped.kindAt 0xFFFF#16 = .rom := by decide

theorem witness_BusWriteReachesRamOnly_other :
    0x1FFF#16 ≠ 0x2000#16 ∧ mapped.kindAt 0x1FFF#16 ≠ .device := by decide

theorem witness_DevicesAnswerFromTheirState :
    mapped.kindAt 0x2000#16 = .device ∧ mapped.kindAt 0x3FFF#16 = .device ∧ mapped.kindAt 0x4000#16 ≠ .device := by
  decide

/-- The boundary all statements about a tick start from. -/
theorem witness_boundary :
    start.power = .running ∧ start.cycles = 0 ∧ start.nmiPending = false ∧ start.irqPending = false := by decide

theorem witness_BusAccessesInOrder :
    mapped.power = .running ∧ mapped.cycles = 0 ∧ mapped.nmiPending = false ∧ mapped.irqPending = false := by decide

theorem witness_OperandValuesByMode_inMemory :
    (Operand.izy 0xFF#8).mode.inMemory = true ∧ (Operand.zp0 0x00#8).mode.inMemory = true := by decide

theorem witness_StoresWriteOneByte_ram : Memory.wf mapped.mem = true ∧
    mapped.kindAt (effectiveAddress (.abs 0x7FFF#16) mapped) = .ram := by decide

theorem witness_StoresWriteOneByte_notRam :
    mapped.kindAt (effectiveAddress (.abs 0x2000#16) mapped) ≠ .ram ∧
    mapped.kindAt (effectiveAddress (.abs 0x8000#16) mapped) ≠ .ram := by decide

theorem witness_IncDecStepAByte :
    (Instr.inc (.zpx 0xFF#8)).WellFormed ∧ (Instr.dec (.abx 0xFFFF#16)).WellFormed := by decide

theorem witness_ShiftsMoveOneBit :
    (Instr.asl .acc).WellFormed ∧ (Instr.asl (.zp0 0xFF#8)).WellFormed ∧ (Instr.lsr .acc).WellFormed ∧
    (Instr.lsr (.abx 0xFFFF#16)).WellFormed := by decide

theorem witness_RotatesGoThroughCarry :
    (Instr.rol .acc).WellFormed ∧ (Instr.rol (.zp0 0xFF#8)).WellFormed ∧ (Instr.ror .acc).WellFormed ∧
    (Instr.ror (.abx 0xFFFF#16)).WellFormed := by decide

theorem witness_JsrPushesItsLastByte : Memory.wf start.mem = true ∧ start.kindAt (stackAddr start.sp) = .ram ∧
    start.kindAt (stackAddr (start.sp - 1#8)) = .ram := by decide

theorem witness_PushesStoreAOrStatus : Memory.wf start.mem = true ∧ start.kindAt (stackAddr 0x00#8) = .ram := by decide

theorem witness_BrkEntersThroughTheIrqVector : Memory.wf start.mem = true ∧
    start.kindAt (stackAddr (start.sp - 2#8)) = .ram := by decide

theorem witness_NopAndIllChangeNothing :
    let s := placed start [(0x8000#16, 0xFF#8)]
    s.power = .running ∧ s.cycles = 0 ∧ s.nmiPending = false ∧ s.irqPending = false ∧
    s.peek s.pc ∈ 0xEA#8 :: undocumented := by decide

theorem witness_OnlyTheirInstructionsWriteAFlag : completes (exec (.adc (.imm 0xFF#8)) start) = true := by decide

theorem witness_OnlyTheirInstructionsWriteARegister :
    (Instr.ror .acc).WellFormed ∧ completes (exec (.ror .acc) start) = true ∧
    Part.x ∉ registersWritten .ror .acc := by decide

theorem witness_OnlyStoredBytesChange :
    (Instr.inc (.zp0 0xFF#8)).WellFormed ∧ completes (exec (.inc (.zp0 0xFF#8)) start) = true ∧
    0x0100#16 ∉ storedAddresses (.inc (.zp0 0xFF#8)) start := by decide

/-- NOP at 0xFFFF: PC wraps. -/
theorem witness_PcAdvancesByTheLength :
    let s := placed { start with pc := 0xFFFF#16 } [(0xFFFF#16, 0xEA#8)]
    s.power = .running ∧ s.cycles = 0 ∧ s.nmiPending = false ∧ s.irqPending = false ∧
    transfersControl s.clearLog.fetchInstr.1.mnemonic = false := by decide

theorem witness_CostFollowsTheTimingTable :
    (Instr.bne 0x80#8).WellFormed ∧ (Instr.lda (.izy 0xFF#8)).WellFormed ∧ (Instr.ill 0x02#8).WellFormed := by decide

/-- LDA #0x10 at the top of the address space, and no device there. -/
theorem witness_StepRunsTheDecodedInstruction :
    let s := placed { start with pc := 0xFFFF#16 } [(0xFFFF#16, 0xA9#8), (0x0000#16, 0x10#8)]
    s.power = .running ∧ s.cycles = 0 ∧ s.nmiPending = false ∧ s.irqPending = false ∧
    decode (State.fetchBytes 2 s.clearLog).1 = .ok (.lda (.imm 0x10#8), []) ∧
    ∀ k < 2, s.kindAt (s.pc + BitVec.ofNat 16 k) ≠ .device :=
  ⟨rfl, rfl, rfl, rfl, rfl, by decide⟩

theorem witness_StepNeverFails : State.reset.power = .running := by decide

theorem witness_InstructionOccupiesItsCost : start.power = .running ∧ start.cycles = 0 ∧ 1 < 7 := by decide

theorem witness_ResetCountdownHoldsTheFirstFetch :
    completes (Host.Core.run Sys2Proof.core 0 (reset start)) = true ∧
    completes (Host.Core.run Sys2Proof.core 8 (reset start)) = true := by decide

theorem witness_ResetStateMeetsTheInvariant :
    State.reset.mem = [] ∧ State.reset.regions = [] ∧ State.reset.deviceState = 0 := by decide

theorem witness_EveryStepKeepsTheInvariant : start.Inv ∧ completes (step start) = true := ⟨start_inv, by decide⟩

theorem witness_EveryHostRunKeepsTheInvariant :
    start.Inv ∧ completes (HostOp.runAll [.step, .reset, .irq, .nmi, .store 0xFFFF#16 0x01#8, .remap [], .devicesMove 7] start) = true ∧
    Memory.wf start.mem = true ∧ completes (HostOp.runAll [.reset, .step] (construct start)) = true :=
  ⟨start_inv, by decide, by decide, by decide⟩

theorem witness_LatchesNeverReadBeforeWritten : AgreeButLatches start { start with fetched := 0xFF#8, addrAbs := 0xFFFF#16 } := rfl

theorem witness_PoweredOffRefusesAllButReset : (construct start).power = .poweredOff := by decide

theorem witness_IrqCallByBoundaryAndMask_inside : State.reset.power = .running ∧ State.reset.cycles ≠ 0 := by decide

theorem witness_IrqCallByBoundaryAndMask_masked :
    let s := { start with p := 0x24#8 }
    s.power = .running ∧ s.cycles = 0 ∧ s.flag .i = true := by decide

theorem witness_IrqCallByBoundaryAndMask_taken :
    start.power = .running ∧ start.cycles = 0 ∧ start.flag .i = false := by decide

theorem witness_NmiCallIsNeverMasked_inside : State.reset.power = .running ∧ State.reset.cycles ≠ 0 := by decide

theorem witness_NmiCallIsNeverMasked_taken : start.power = .running ∧ start.cycles = 0 := by decide

theorem witness_PendingServicedAtTheBoundary_nmi :
    let s := { start with nmiPending := true }
    s.power = .running ∧ s.cycles = 0 ∧ s.nmiPending = true := by decide

theorem witness_PendingServicedAtTheBoundary_irq :
    let s := { start with irqPending := true }
    s.power = .running ∧ s.cycles = 0 ∧ s.nmiPending = false ∧ s.irqPending = true ∧ s.flag .i = false := by decide

theorem witness_PendingServicedAtTheBoundary_masked :
    let s := { start with irqPending := true, p := 0x24#8 }
    s.power = .running ∧ s.cycles = 0 ∧ s.nmiPending = false ∧ s.irqPending = true ∧ s.flag .i = true := by decide

theorem witness_IrqLatchedWithNmiIsLost :
    let s := { start with nmiPending := true, irqPending := true }
    s.power = .running ∧ s.cycles = 0 ∧ s.nmiPending = true ∧ s.irqPending = true := by decide

theorem witness_IrqLatencyIsTheCountdown :
    State.reset.power = .running ∧ 1 ≤ 8 ∧ State.reset.cycles = 8 ∧ State.reset.flag .i = false ∧
    State.reset.nmiPending = false := by decide

theorem witness_IrqLatencyIsTheCountdown_one :
    let s := { start with cycles := 1 }
    s.power = .running ∧ 1 ≤ 1 ∧ s.cycles = 1 ∧ s.flag .i = false ∧ s.nmiPending = false := by decide

theorem witness_RtiUndoesAnEntry : start.Inv ∧ start.power = .running ∧ AllRam start :=
  ⟨start_inv, rfl, start_allRam⟩

theorem witness_StackWrapsAfter256Pushes :
    Memory.wf start.mem = true ∧ AllRam start ∧ (List.replicate 256 0x5A#8).length = 256 ∧
    page 0x0200#16 ≠ 0x01#8 ∧ page 0x00FF#16 ≠ 0x01#8 :=
  ⟨by decide, start_allRam, List.length_replicate, by decide, by decide⟩

end Sys2Proof.Machine.Tests
end

section
/-! PROOFS of the family 00_scope. Every instruction leaves the clock's own parts of the state alone, so a running
machine always steps on; the bytes a fetch reads always decode; the operand value of each mode. -/

namespace Sys2Proof.Machine

/-! The parts of the state that no instruction writes. -/

/-- The parts that only the clock, the host calls and the surrounding machine change: the tick count, the pending
latches, the power state and the bus map. -/
def State.sequencer (s : State) : BitVec 64 × Bool × Bool × Power × List Region :=
  (s.totalCycles, s.nmiPending, s.irqPending, s.power, s.regions)

theorem State.sequencer_eq_iff (s t : State) : t.sequencer = s.sequencer ↔
    t.totalCycles = s.totalCycles ∧ t.nmiPending = s.nmiPending ∧ t.irqPending = s.irqPending ∧
      t.power = s.power ∧ t.regions = s.regions := by
  simp [State.sequencer]

@[simp] theorem State.resolve_sequencer (s : State) (o : Operand) : (s.resolve o).2.sequencer = s.sequencer := by
  simp [State.sequencer]

@[simp] theorem State.fetchOperand_sequencer (s : State) (m : Mode) :
    (s.fetchOperand m).2.sequencer = s.sequencer := by
  simp [State.sequencer]

@[simp] theorem State.writeBack_sequencer (s : State) (v : Byte) (m : Mode) :
    (s.writeBack v m).sequencer = s.sequencer := by
  simp [State.sequencer]

/-! An instruction's shape keeps them if its effect does. -/

theorem State.runImplied_sequencer {effect : State → State} (h : ∀ t, (effect t).sequencer = t.sequencer)
    (s : State) (m : Mnemonic) : (s.runImplied m effect).sequencer = s.sequencer :=
  (h _).trans (s.resolve_sequencer .imp)

theorem State.runRead_sequencer {effect : Byte → State → State}
    (h : ∀ v t, (effect v t).sequencer = t.sequencer) (s : State) (m : Mnemonic) (o : Operand) :
    (s.runRead m o effect).sequencer = s.sequencer :=
  (h _ _).trans (by simp)

theorem State.runStore_sequencer (s : State) (m : Mnemonic) (o : Operand) (register : State → Byte) :
    (s.runStore m o register).sequencer = s.sequencer :=
  s.resolve_sequencer o

theorem State.runModify_sequencer (s : State) (m : Mnemonic) (o : Operand) (result status : Byte → State → Byte) :
    (s.runModify m o result status).sequencer = s.sequencer :=
  State.runRead_sequencer (fun v t => State.writeBack_sequencer (t.setP (status v t)) (result v t) o.mode) s m o

theorem State.runBranch_sequencer (s : State) (m : Mnemonic) (d : Byte) (taken : State → Bool) :
    (s.runBranch m d taken).sequencer = s.sequencer := by
  simp only [State.runBranch]
  split <;> rfl

/-- Every instruction completes, and leaves the tick count, the pending latches, the power state and the bus map
as they were. (00_scope.md R11) -/
theorem exec_keeps_sequencer (i : Instr) (s : State) : ∃ t, exec i s = .next t ∧ t.sequencer = s.sequencer := by
  cases i with
  | adc | and | bit | cmp | cpx | cpy | eor | lda | ldx | ldy | ora | sbc =>
    exact ⟨_, rfl, State.runRead_sequencer (by intro _ _; rfl) s _ _⟩
  | asl | dec | inc | lsr | rol | ror =>
    exact ⟨_, rfl, State.runModify_sequencer s _ _ _ _⟩
  | sta | stx | sty =>
    exact ⟨_, rfl, State.runStore_sequencer s _ _ _⟩
  | bcc | bcs | beq | bmi | bne | bpl | bvc | bvs =>
    exact ⟨_, rfl, State.runBranch_sequencer s _ _ _⟩
  | jmp | jsr =>
    exact ⟨_, rfl, by simp [State.sequencer, State.pushWord]⟩
  | brk | pla | plp | rti | rts =>
    exact ⟨_, rfl, State.runImplied_sequencer (by simp [State.sequencer, State.pullStatus, State.pullWord]) s _⟩
  | clc | cld | cli | clv | dex | dey | inx | iny | nop | pha | php | sec | sed | sei | tax | tay | tsx | txa | txs
  | tya | ill =>
    exact ⟨_, rfl, State.runImplied_sequencer (by intro _; rfl) s _⟩

/-! The tick. -/

/-- The fetch and the instruction in a tick complete, in the same power state and with no tick counted yet. -/
theorem executeInstruction_next (s : State) :
    ∃ t, executeInstruction s = .next t ∧ t.power = s.power ∧ t.totalCycles = s.totalCycles := by
  obtain ⟨t, ht, hseq⟩ := exec_keeps_sequencer s.fetchInstr.1 s.fetchInstr.2
  obtain ⟨hticks, -, -, hpower, -⟩ := (State.sequencer_eq_iff _ _).mp hseq
  exact ⟨t, ht, by simpa using hpower, by simpa using hticks⟩

/-- Servicing a pending interrupt completes: it enters the NMI, drops a masked IRQ and executes, or enters the IRQ.
(60_exceptions.md R344) -/
theorem servicePending_next (s : State) :
    ∃ t, servicePending s = .next t ∧ t.power = s.power ∧ t.totalCycles = s.totalCycles := by
  unfold servicePending
  split
  · exact ⟨_, rfl, by simp [State.enterNmi], by simp [State.enterNmi]⟩
  · split
    · exact executeInstruction_next (s.setIrqPending false)
    · exact ⟨_, rfl, by simp [State.enterIrq], by simp [State.enterIrq]⟩

theorem boundaryTick_next (s : State) :
    ∃ t, boundaryTick s = .next t ∧ t.power = s.power ∧ t.totalCycles = s.totalCycles := by
  unfold boundaryTick
  split
  · exact servicePending_next s
  · exact executeInstruction_next s

/-- A tick at an instruction boundary is the boundary's work, counted (40_execution_cycle.md R120). -/
theorem step_boundary {s : State} (hp : s.power = .running) (hc : s.cycles = 0) :
    step s = counted (boundaryTick s.clearLog) := by
  simp [step, tick, hp, hc]

/-- A running machine steps on to a running state, and one tick is counted. (40_execution_cycle.md R130) -/
theorem step_running {s : State} (hp : s.power = .running) :
    ∃ t, step s = .next t ∧ t.power = .running ∧ t.totalCycles = s.totalCycles + 1#64 := by
  by_cases hc : s.cycles = 0
  · obtain ⟨t, ht, hpower, hticks⟩ := boundaryTick_next s.clearLog
    refine ⟨t.countTick, ?_, ?_, ?_⟩
    · rw [step_boundary hp hc, ht, counted]
    · simpa [hp] using hpower
    · simpa using hticks
  · exact ⟨_, step_wait hp hc, by simpa using hp, by simp⟩

/-! The bytes at PC. -/

/-- An instruction has at most two operand bytes. (30_encoding.md R91) -/
theorem operandBytes_le_two (m : Mode) : m.operandBytes ≤ 2 := by cases m <;> decide

/-- The opcode byte at PC and as many bytes after it as its mode has operand bytes decode to the instruction the
fetch unit assembles, with none left over. (30_encoding.md R93, 40_execution_cycle.md R122) -/
theorem decode_fetchBytes (s : State) :
    decode (State.fetchBytes ((entry (s.peek s.pc)).mode.operandBytes + 1) s).1 = .ok (s.fetchInstr.1, []) := by
  have hle := operandBytes_le_two (entry (s.peek s.pc)).mode
  simp only [State.fetchBytes, State.fetchInstr, State.fetchByte, State.read8_fst, decode]
  generalize (entry (s.peek s.pc)).mode.operandBytes = n at hle ⊢
  match n, hle with
  | 0, _ | 1, _ | 2, _ => rfl

/-- Settles O44: a running state steps on with one tick counted, whichever tick it is, and the bytes the fetch unit
reads at PC decode. -/
theorem stepNeverFails : Obligations.StepNeverFails := by
  intro s hp
  refine ⟨step_running hp, _, _, ?_, ?_, decode_fetchBytes s.clearLog⟩
  · exact Nat.le_add_left 1 _
  · exact Nat.succ_le_succ (operandBytes_le_two _)

/-! Operand values. -/

/-- The model's `sext_16` is sign extension to 16 bits. (00_scope.md R8) -/
theorem sext16_eq_signExtend (d : Byte) : sext16 d = d.signExtend 16 := by
  revert d
  decide

/-- In a mode whose operand is in memory, M is the byte the bus answers at EA. (40_execution_cycle.md R126) -/
theorem operandValue_inMemory {o : Operand} (h : o.mode.inMemory = true) (s : State) :
    operandValue o s = (s.resolve o).2.peek (effectiveAddress o s) := by
  rw [operandValue, State.fetchOperand_inMemory h, effectiveAddress]

/-- The modes whose resolver reads no pointer report no crossing and write only latches: IMP, ACC, IMM and REL.
(41_addressing_modes.md R151, R152, R153, R157) -/
theorem resolve_noAddress (s : State) (b : Byte) :
    ∀ o ∈ [Operand.imp, .acc, .imm b, .rel b], (s.resolve o).1 = false ∧ AgreeButLatches s (s.resolve o).2 := by
  simp only [List.forall_mem_cons]
  exact ⟨⟨rfl, rfl⟩, ⟨rfl, rfl⟩, ⟨rfl, rfl⟩, ⟨rfl, rfl⟩, nofun⟩

/-- Settles O13: the latch modes by evaluation of the resolver, the memory modes by the one bus read of `Fetch()`. -/
theorem operandValuesByMode : Obligations.OperandValuesByMode :=
  ⟨fun _ => ⟨rfl, rfl⟩, fun _ _ => rfl, fun _ s h => operandValue_inMemory h s, fun d _ => sext16_eq_signExtend d,
    resolve_noAddress⟩

end Sys2Proof.Machine
end

section
/-! PROOFS of the family 10_state, the flags. The flag setter and the two pushed status bytes, flag by flag; and which
flags an instruction writes: each shape of instruction writes those its effect writes. -/

namespace Sys2Proof.Machine

/-- Settles O5: the layout by evaluation, the setter by its two laws. -/
theorem flagSetterWritesOneBit : Obligations.FlagSetterWritesOneBit := by
  refine ⟨fun p => ⟨rfl, rfl, rfl, rfl, rfl, rfl, rfl, rfl⟩, fun f cond p => ⟨getFlag_setFlag_same f cond p, ?_⟩⟩
  exact fun g hg => getFlag_setFlag_other (List.ne_of_not_mem_cons hg) cond p

/-- Settles O6: the pushed bytes flag by flag; the restored byte and the eight flag writes agree in every flag. -/
theorem pushedAndPulledStatus : Obligations.PushedAndPulledStatus := by
  refine ⟨fun p => ⟨by simp, by simp, ?_⟩, fun p => ⟨by simp, by simp, ?_⟩, fun v p => status_ext fun f => ?_⟩
  · intro f hf
    simp_all
  · intro f hf
    simp_all
  · cases f <;> simp <;> rfl

/-! An instruction's shape writes the flags its effect writes. -/

theorem FlagsUnchangedBut.refl (l : List Flag) (p : Byte) : FlagsUnchangedBut l p p := fun _ _ => rfl

theorem State.runImplied_flags {l : List Flag} {effect : State → State}
    (h : ∀ t, FlagsUnchangedBut l t.p (effect t).p) (s : State) (m : Mnemonic) :
    FlagsUnchangedBut l s.p (s.runImplied m effect).p :=
  h (s.resolve .imp).2

theorem State.runRead_flags {l : List Flag} {effect : Byte → State → State}
    (h : ∀ v t, FlagsUnchangedBut l t.p (effect v t).p) (s : State) (m : Mnemonic) (o : Operand) :
    FlagsUnchangedBut l s.p (s.runRead m o effect).p := by
  have he := h ((s.resolve o).2.fetchOperand o.mode).1 ((s.resolve o).2.fetchOperand o.mode).2
  rwa [State.fetchOperand_p, State.resolve_p] at he

theorem State.runModify_flags {l : List Flag} {status : Byte → State → Byte}
    (h : ∀ v t, FlagsUnchangedBut l t.p (status v t)) (s : State) (m : Mnemonic) (o : Operand)
    (result : Byte → State → Byte) : FlagsUnchangedBut l s.p (s.runModify m o result status).p := by
  refine State.runRead_flags (fun v t => ?_) s m o
  rw [State.writeBack_p]
  exact h v t

theorem State.runStore_p (s : State) (m : Mnemonic) (o : Operand) (register : State → Byte) :
    (s.runStore m o register).p = s.p := s.resolve_p o

theorem State.runBranch_p (s : State) (m : Mnemonic) (d : Byte) (taken : State → Bool) :
    (s.runBranch m d taken).p = s.p := by
  simp only [State.runBranch]
  split <;> rfl

/-- An instruction writes no flag but those the flag rules list for its mnemonic. -/
theorem exec_flags (i : Instr) (s : State) :
    ∃ t, exec i s = .next t ∧ FlagsUnchangedBut (flagsWritten i.mnemonic) s.p t.p := by
  cases i with
  | adc | and | bit | cmp | cpx | cpy | eor | lda | ldx | ldy | ora | sbc =>
    refine ⟨_, rfl, State.runRead_flags (fun v t f hf => ?_) s _ _⟩
    simp_all [flagsWritten, Instr.mnemonic, State.addToA, State.setAZN, State.compare, State.setZN]
  | asl | dec | inc | lsr | rol | ror =>
    refine ⟨_, rfl, State.runModify_flags (fun v t f hf => ?_) s _ _ _⟩
    simp_all [flagsWritten, Instr.mnemonic]
  | sta | stx | sty =>
    exact ⟨_, rfl, by rw [State.runStore_p]; exact .refl _ _⟩
  | bcc | bcs | beq | bmi | bne | bpl | bvc | bvs =>
    exact ⟨_, rfl, by rw [State.runBranch_p]; exact .refl _ _⟩
  | jmp | jsr =>
    exact ⟨_, rfl, by simp [FlagsUnchangedBut, State.pushWord]⟩
  | plp | rti =>
    exact ⟨_, rfl, fun f hf => by cases f <;> simp [flagsWritten, Instr.mnemonic] at hf⟩
  | brk | clc | cld | cli | clv | dex | dey | inx | iny | nop | pha | php | pla | rts | sec | sed | sei | tax | tay
  | tsx | txa | txs | tya | ill =>
    refine ⟨_, rfl, State.runImplied_flags (fun t f hf => ?_) s _⟩
    simp_all [flagsWritten, Instr.mnemonic, State.setFlagTo, State.setZN, State.pullWord]

/-- Settles O36, by the flags each shape of instruction writes. -/
theorem onlyTheirInstructionsWriteAFlag : Obligations.OnlyTheirInstructionsWriteAFlag := by
  intro i s t h
  obtain ⟨u, hu, hflags⟩ := exec_flags i s
  cases hu.symm.trans h
  exact hflags

end Sys2Proof.Machine
end

section
/-! PROOFS of the family 10_state, the registers. Each shape of instruction writes those of A, X, Y and SP that its
effect writes; a read-modify-write writes A in mode ACC only. -/

namespace Sys2Proof.Machine

/-- Of A, X, Y and SP no register changed from `s` to `t` but those listed. -/
def RegistersUnchangedBut (written : List Part) (s t : State) : Prop :=
  ∀ q ∈ [Part.a, .x, .y, .sp], q ∉ written → q.Same s t

theorem registersUnchangedBut_iff (l : List Part) (s t : State) : RegistersUnchangedBut l s t ↔
    (Part.a ∉ l → t.a = s.a) ∧ (Part.x ∉ l → t.x = s.x) ∧ (Part.y ∉ l → t.y = s.y) ∧
      (Part.sp ∉ l → t.sp = s.sp) := by
  simp [RegistersUnchangedBut, Part.Same]

theorem State.runImplied_registers {l : List Part} {effect : State → State}
    (h : ∀ t, RegistersUnchangedBut l t (effect t)) (s : State) (m : Mnemonic) :
    RegistersUnchangedBut l s (s.runImplied m effect) := by
  have he := h (s.resolve .imp).2
  rw [registersUnchangedBut_iff] at he ⊢
  exact he

theorem State.runRead_registers {l : List Part} {effect : Byte → State → State}
    (h : ∀ v t, RegistersUnchangedBut l t (effect v t)) (s : State) (m : Mnemonic) (o : Operand) :
    RegistersUnchangedBut l s (s.runRead m o effect) := by
  have he := h ((s.resolve o).2.fetchOperand o.mode).1 ((s.resolve o).2.fetchOperand o.mode).2
  simpa [registersUnchangedBut_iff, State.runRead] using he

theorem State.writeBack_registers {l : List Part} {m : Mode} (hl : m = .acc → Part.a ∈ l) (s : State) (v : Byte) :
    RegistersUnchangedBut l s (s.writeBack v m) := by
  rw [registersUnchangedBut_iff]
  refine ⟨fun ha => ?_, by simp, by simp, by simp⟩
  rw [State.writeBack_notAcc (fun e => ha (hl e)), State.write8_a]

theorem State.runModify_registers {l : List Part} {o : Operand} (hl : o.mode = .acc → Part.a ∈ l) (s : State)
    (m : Mnemonic) (result status : Byte → State → Byte) :
    RegistersUnchangedBut l s (s.runModify m o result status) := by
  refine State.runRead_registers (fun v t => ?_) s m o
  have hw := State.writeBack_registers hl (t.setP (status v t)) (result v t)
  rw [registersUnchangedBut_iff] at hw ⊢
  exact hw

theorem State.runStore_registers (l : List Part) (s : State) (m : Mnemonic) (o : Operand)
    (register : State → Byte) : RegistersUnchangedBut l s (s.runStore m o register) := by
  simp [registersUnchangedBut_iff, State.runStore]

theorem State.runBranch_registers (l : List Part) (s : State) (m : Mnemonic) (d : Byte) (taken : State → Bool) :
    RegistersUnchangedBut l s (s.runBranch m d taken) := by
  simp only [State.runBranch]
  split <;> simp [registersUnchangedBut_iff]

/-- A well-formed INC or DEC is one on memory. (43_arithmetic_logic.md R220, R221) -/
theorem incDec_mode_ne_acc : ∀ m ∈ [Mnemonic.inc, .dec], Mode.acc ∉ m.modes := by decide

/-- A well-formed instruction writes none of A, X, Y and SP but those the register rules list for its mnemonic and
mode. -/
theorem exec_registers {i : Instr} (hi : i.operand.mode ∈ i.mnemonic.modes) (s : State) :
    ∃ t, exec i s = .next t ∧ RegistersUnchangedBut (registersWritten i.mnemonic i.operand.mode) s t := by
  cases i with
  | adc | and | bit | cmp | cpx | cpy | eor | lda | ldx | ldy | ora | sbc =>
    refine ⟨_, rfl, State.runRead_registers (fun v t => ?_) s _ _⟩
    simp [registersUnchangedBut_iff, registersWritten, Instr.mnemonic, State.addToA, State.setAZN, State.compare]
  | asl | lsr | rol | ror =>
    refine ⟨_, rfl, State.runModify_registers (fun hacc => ?_) s _ _ _⟩
    simp [registersWritten, Instr.mnemonic, Instr.operand, hacc]
  | inc | dec =>
    refine ⟨_, rfl, State.runModify_registers (fun hacc => ?_) s _ _ _⟩
    exact absurd (hacc ▸ hi) (incDec_mode_ne_acc _ (by simp [Instr.mnemonic]))
  | sta | stx | sty =>
    exact ⟨_, rfl, State.runStore_registers _ s _ _ _⟩
  | bcc | bcs | beq | bmi | bne | bpl | bvc | bvs =>
    exact ⟨_, rfl, State.runBranch_registers _ s _ _ _⟩
  | jmp | jsr =>
    refine ⟨_, rfl, ?_⟩
    simp [registersUnchangedBut_iff, registersWritten, Instr.mnemonic, State.pushWord]
  | brk | clc | cld | cli | clv | dex | dey | inx | iny | nop | pha | php | pla | plp | rti | rts | sec | sed | sei
  | tax | tay | tsx | txa | txs | tya | ill =>
    refine ⟨_, rfl, State.runImplied_registers (fun t => ?_) s _⟩
    simp [registersUnchangedBut_iff, registersWritten, Instr.mnemonic, State.pullStatus, State.pullWord]

/-- Settles O37: the registers by the shapes of instruction, the sequencer by `exec_keeps_sequencer`. -/
theorem onlyTheirInstructionsWriteARegister : Obligations.OnlyTheirInstructionsWriteARegister := by
  intro i s t hwf h
  obtain ⟨u, hu, hregs⟩ := exec_registers (Laws.EncodedLength.mode_of_wellFormed hwf) s
  obtain ⟨u', hu', hseq⟩ := exec_keeps_sequencer i s
  cases hu.symm.trans h
  cases hu'.symm.trans h
  refine ⟨hregs, ?_⟩
  simpa [Part.Same] using (State.sequencer_eq_iff _ _).mp hseq

end Sys2Proof.Machine
end

section
/-! PROOFS of the family 10_state, the invariant. What every instruction and every interrupt entry keeps of it, the
bound of their cost, and from these the step and every other host operation. -/

namespace Sys2Proof.Machine

/-- What the invariant says of a running state, but for the countdown, which an instruction or an entry sets anew:
the canonical memory (20_memory.md R60), live B is 0 and live U is 1 (10_state.md R42, R43). -/
structure State.Steady (s : State) : Prop where
  memory : Memory.wf s.mem = true
  breakClear : getFlag .b s.p = false
  unusedSet : getFlag .u s.p = true

theorem State.Steady.inv {s : State} (h : s.Steady) (hc : s.cycles ≤ resetCycles) : s.Inv :=
  ⟨h.memory, fun _ => h.breakClear, fun _ => h.unusedSet, fun _ => hc⟩

theorem State.Inv.steady {s : State} (h : s.Inv) (hp : s.power = .running) : s.Steady :=
  ⟨h.memory, h.breakClear hp, h.unusedSet hp⟩

/-! Memory keeps its canonical form in every shape of instruction. -/

theorem State.runImplied_wf {effect : State → State}
    (h : ∀ t, Memory.wf t.mem = true → Memory.wf (effect t).mem = true) {s : State} (hs : Memory.wf s.mem = true)
    (m : Mnemonic) : Memory.wf (s.runImplied m effect).mem = true :=
  h (s.resolve .imp).2 hs

theorem State.runRead_wf {effect : Byte → State → State}
    (h : ∀ v t, Memory.wf t.mem = true → Memory.wf (effect v t).mem = true) {s : State}
    (hs : Memory.wf s.mem = true) (m : Mnemonic) (o : Operand) : Memory.wf (s.runRead m o effect).mem = true :=
  h _ _ (by simpa using hs)

theorem State.runModify_wf {s : State} (hs : Memory.wf s.mem = true) (m : Mnemonic) (o : Operand)
    (result status : Byte → State → Byte) : Memory.wf (s.runModify m o result status).mem = true :=
  State.runRead_wf (fun v t ht => State.wf_writeBack (s := t.setP (status v t)) ht (result v t) o.mode) hs m o

theorem State.runStore_wf {s : State} (hs : Memory.wf s.mem = true) (m : Mnemonic) (o : Operand)
    (register : State → Byte) : Memory.wf (s.runStore m o register).mem = true :=
  State.wf_write8 (s := (s.resolve o).2) (by simpa using hs) _ _

theorem State.runBranch_mem (s : State) (m : Mnemonic) (d : Byte) (taken : State → Bool) :
    (s.runBranch m d taken).mem = s.mem := by
  simp only [State.runBranch]
  split <;> rfl

/-- Every instruction keeps the canonical form of memory. -/
theorem exec_wf (i : Instr) {s : State} (hs : Memory.wf s.mem = true) :
    ∃ t, exec i s = .next t ∧ Memory.wf t.mem = true := by
  cases i with
  | adc | and | bit | cmp | cpx | cpy | eor | lda | ldx | ldy | ora | sbc =>
    refine ⟨_, rfl, State.runRead_wf (fun _ _ ht => ?_) hs _ _⟩
    exact ht
  | asl | dec | inc | lsr | rol | ror =>
    exact ⟨_, rfl, State.runModify_wf hs _ _ _ _⟩
  | sta | stx | sty =>
    exact ⟨_, rfl, State.runStore_wf hs _ _ _⟩
  | bcc | bcs | beq | bmi | bne | bpl | bvc | bvs =>
    exact ⟨_, rfl, by rwa [State.runBranch_mem]⟩
  | jmp o =>
    exact ⟨_, rfl, by simpa using hs⟩
  | jsr =>
    exact ⟨_, rfl, State.wf_push (State.wf_push (by simpa using hs) _) _⟩
  | pha | php =>
    exact ⟨_, rfl, State.runImplied_wf (fun _ ht => State.wf_push ht _) hs _⟩
  | brk =>
    refine ⟨_, exec_brk s, State.runImplied_wf (fun t ht => ?_) hs _⟩
    exact State.wf_interruptEntry (s := t.setPc (t.pc + 1#16)) ht irqVector true
  | pla | plp | rti | rts =>
    refine ⟨_, rfl, State.runImplied_wf (fun _ ht => ?_) hs _⟩
    simpa [State.pullStatus, State.pullWord] using ht
  | clc | cld | cli | clv | dex | dey | inx | iny | nop | sec | sed | sei | tax | tay | tsx | txa | txs | tya | ill =>
    refine ⟨_, rfl, State.runImplied_wf (fun _ ht => ?_) hs _⟩
    exact ht

/-! Live B and U. -/

/-- An instruction other than PLP and RTI writes neither B nor U. (10_state.md R42, R43) -/
theorem break_unused_not_written : ∀ m : Mnemonic, m ≠ .plp → m ≠ .rti →
    Flag.b ∉ flagsWritten m ∧ Flag.u ∉ flagsWritten m := by
  intro m
  cases m <;> decide

/-- PLP and RTI leave the status byte they pull as R47 restores it. -/
theorem exec_pulled_status (i : Instr) (h : i.mnemonic = .plp ∨ i.mnemonic = .rti) (s : State) :
    ∃ t, exec i s = .next t ∧ t.p = statusRestored (s.peek (stackAddr (s.sp + 1#8))) := by
  cases i with
  | plp | rti => exact ⟨_, rfl, rfl⟩
  | _ => simp [Instr.mnemonic] at h

/-- Every instruction keeps live B clear and live U set. -/
theorem exec_break_unused (i : Instr) {s : State} (hb : getFlag .b s.p = false) (hu : getFlag .u s.p = true) :
    ∃ t, exec i s = .next t ∧ getFlag .b t.p = false ∧ getFlag .u t.p = true := by
  by_cases hpull : i.mnemonic = .plp ∨ i.mnemonic = .rti
  · obtain ⟨t, ht, hp⟩ := exec_pulled_status i hpull s
    exact ⟨t, ht, by simp [hp], by simp [hp]⟩
  · obtain ⟨hplp, hrti⟩ := not_or.mp hpull
    obtain ⟨hnb, hnu⟩ := break_unused_not_written i.mnemonic hplp hrti
    obtain ⟨t, ht, hflags⟩ := exec_flags i s
    exact ⟨t, ht, (hflags .b hnb).trans hb, (hflags .u hnu).trans hu⟩

/-! The countdown. -/

theorem opcodeTable_length : opcodeTable.length = 256 := by
  simp only [opcodeTable, List.length_append]
  rfl

theorem entry_mem_opcodeTable (op : Byte) : entry op ∈ opcodeTable := by
  have hlt : op.toNat < opcodeTable.length := opcodeTable_length ▸ op.isLt
  rw [entry, List.getD_eq_getElem _ _ hlt]
  exact List.getElem_mem hlt

/-- The base costs of the opcode table, with the page penalty where a row has one, are at most 7. -/
theorem opcodeTable_cost_le : ∀ e ∈ opcodeTable, e.base + (if e.penalty then 1 else 0) ≤ 7 := by
  simp only [opcodeTable, List.forall_mem_append]
  and_intros <;> decide

/-- An instruction that is no branch costs at most 7 cycles. (40_execution_cycle.md R129) -/
theorem cost_le (m : Mnemonic) (mode : Mode) (cross : Bool) : cost m mode cross 0 ≤ 7 := by
  have hrow : rowEntry m mode ∈ opcodeTable := by
    unfold rowEntry
    split
    · exact entry_mem_opcodeTable _
    · decide
  have hle := opcodeTable_cost_le _ hrow
  simp only [cost]
  cases cross <;> simp at hle ⊢ <;> omega

/-- A branch takes 2, 3 or 4 cycles. (45_control_transfer.md R270) -/
theorem State.runBranch_cycles_le {m : Mnemonic} (hm : rowEntry m .rel = ⟨m, .rel, 2, false⟩) (s : State) (d : Byte)
    {taken : State → Bool} (hk : taken (s.setAddrRel (sext16 d)) = taken s) :
    (s.runBranch m d taken).cycles ≤ 4 := by
  obtain ⟨-, hcycles, -⟩ := State.runBranch_branchesIf hm d hk
  rw [hcycles]
  split
  · split <;> omega
  · omega

/-- Every instruction sets the countdown to a value of at most `RESET_CYCLES`. -/
theorem exec_cycles_le (i : Instr) (s : State) : ∃ t, exec i s = .next t ∧ t.cycles ≤ resetCycles := by
  cases i with
  | bcc | bcs | beq | bmi | bne | bpl | bvc | bvs =>
    exact ⟨_, rfl, (State.runBranch_cycles_le (by decide) s _ rfl).trans (by decide)⟩
  | _ => exact ⟨_, rfl, (cost_le _ _ _).trans (by decide)⟩

/-! The steady part of the invariant, from the fetch to the end of the boundary's work. -/

theorem exec_keeps_steady (i : Instr) {s : State} (h : s.Steady) : ∃ t, exec i s = .next t ∧ t.Steady := by
  obtain ⟨t, ht, hmem⟩ := exec_wf i h.memory
  obtain ⟨t', ht', hb, hu⟩ := exec_break_unused i h.breakClear h.unusedSet
  cases ht.symm.trans ht'
  exact ⟨t, ht, hmem, hb, hu⟩

theorem State.Steady.fetchInstr {s : State} (h : s.Steady) : s.fetchInstr.2.Steady :=
  ⟨by simpa using h.memory, by simpa using h.breakClear, by simpa using h.unusedSet⟩

theorem State.Steady.interruptEntry {s : State} (h : s.Steady) (v : Addr) (brk : Bool) :
    (s.interruptEntry v brk).Steady :=
  ⟨State.wf_interruptEntry h.memory v brk, by simpa using h.breakClear, by simpa using h.unusedSet⟩

theorem irqCycles_le : irqCycles ≤ resetCycles := by
  unfold irqCycles
  split <;> decide

theorem nmiCycles_le : nmiCycles ≤ resetCycles := by
  unfold nmiCycles
  split <;> decide

/-- An IRQ entry leaves the invariant. (60_exceptions.md R347) -/
theorem State.Steady.enterIrq {s : State} (h : s.Steady) : s.enterIrq.Inv :=
  have he := h.interruptEntry irqVector false
  State.Steady.inv ⟨he.memory, he.breakClear, he.unusedSet⟩ irqCycles_le

/-- An NMI entry leaves the invariant. (R348) -/
theorem State.Steady.enterNmi {s : State} (h : s.Steady) : s.enterNmi.Inv :=
  have he := h.interruptEntry nmiVector false
  State.Steady.inv ⟨he.memory, he.breakClear, he.unusedSet⟩ nmiCycles_le

/-- The fetch and the instruction leave the invariant. -/
theorem State.Steady.executeInstruction {s : State} (h : s.Steady) :
    ∃ t, executeInstruction s = .next t ∧ t.Inv := by
  obtain ⟨t, ht, hsteady⟩ := exec_keeps_steady s.fetchInstr.1 h.fetchInstr
  obtain ⟨t', ht', hcycles⟩ := exec_cycles_le s.fetchInstr.1 s.fetchInstr.2
  cases ht.symm.trans ht'
  exact ⟨t, ht, hsteady.inv hcycles⟩

theorem State.Steady.servicePending {s : State} (h : s.Steady) : ∃ t, servicePending s = .next t ∧ t.Inv := by
  unfold Machine.servicePending
  split
  · exact ⟨_, rfl, State.Steady.enterNmi ⟨h.memory, h.breakClear, h.unusedSet⟩⟩
  · split
    · exact State.Steady.executeInstruction ⟨h.memory, h.breakClear, h.unusedSet⟩
    · exact ⟨_, rfl, State.Steady.enterIrq ⟨h.memory, h.breakClear, h.unusedSet⟩⟩

theorem State.Steady.boundaryTick {s : State} (h : s.Steady) : ∃ t, boundaryTick s = .next t ∧ t.Inv := by
  unfold Machine.boundaryTick
  split
  · exact h.servicePending
  · exact h.executeInstruction

/-! The host operations. -/

/-- The count at the end of a tick only lowers the countdown. -/
theorem State.Inv.countTick {s : State} (h : s.Inv) : s.countTick.Inv :=
  ⟨h.memory, h.breakClear, h.unusedSet, fun hp => (Nat.sub_le _ _).trans (h.countdown hp)⟩

theorem State.Inv.clearLog {s : State} (h : s.Inv) : s.clearLog.Inv :=
  ⟨h.memory, h.breakClear, h.unusedSet, h.countdown⟩

/-- A running machine that meets the invariant steps on to a state that does. -/
theorem State.Inv.step {s : State} (h : s.Inv) (hp : s.power = .running) : ∃ t, step s = .next t ∧ t.Inv := by
  by_cases hc : s.cycles = 0
  · obtain ⟨t, ht, hinv⟩ := (h.clearLog.steady hp).boundaryTick
    exact ⟨t.countTick, by rw [step_boundary hp hc, ht, counted], hinv.countTick⟩
  · exact ⟨_, step_wait hp hc, h.clearLog.countTick⟩

/-- Before the first reset a step is refused. (60_exceptions.md R360) -/
theorem step_poweredOff {s : State} (hp : s.power = .poweredOff) : step s = .refused .poweredOff := by
  simp [step, tick, hp]

/-- Settles O49: a step that is not refused starts from a running state. -/
theorem everyStepKeepsTheInvariant : Obligations.EveryStepKeepsTheInvariant := by
  intro s t h ht
  cases hp : s.power with
  | poweredOff => cases (step_poweredOff hp).symm.trans ht
  | running =>
    obtain ⟨u, hu, hinv⟩ := h.step hp
    cases hu.symm.trans ht
    exact hinv

/-- The status byte of a reset has B clear and U set. (10_state.md R57) -/
theorem resetStatus_break_unused : getFlag .b 0x20#8 = false ∧ getFlag .u 0x20#8 = true := by decide

/-- `reset()` leaves the invariant whatever the registers held. (70_reset_and_hazards.md R380) -/
theorem reset_inv {s : State} (h : Memory.wf s.mem = true) : (reset s).Inv :=
  ⟨h, fun _ => resetStatus_break_unused.1, fun _ => resetStatus_break_unused.2, fun _ => Nat.le_refl resetCycles⟩

/-- `irq()` latches, drops or takes the request. (60_exceptions.md R341) -/
theorem State.Inv.irq {s t : State} (h : s.Inv) (ht : irq s = .next t) : t.Inv := by
  unfold Machine.irq at ht
  split at ht
  · cases ht
  next hp =>
    split at ht
    · cases ht
      exact ⟨h.memory, h.breakClear, h.unusedSet, h.countdown⟩
    · split at ht
      · cases ht
        exact h.clearLog
      · cases ht
        exact (h.clearLog.steady hp).enterIrq

/-- `nmi()` latches or takes the request. (60_exceptions.md R342) -/
theorem State.Inv.nmi {s t : State} (h : s.Inv) (ht : nmi s = .next t) : t.Inv := by
  unfold Machine.nmi at ht
  split at ht
  · cases ht
  next hp =>
    split at ht
    · cases ht
      exact ⟨h.memory, h.breakClear, h.unusedSet, h.countdown⟩
    · cases ht
      exact (h.clearLog.steady hp).enterNmi

/-- Every host operation keeps the invariant. -/
theorem HostOp.run_keeps_inv (op : HostOp) {s t : State} (h : s.Inv) (ht : op.run s = .next t) : t.Inv := by
  cases op with
  | step => exact everyStepKeepsTheInvariant s t h ht
  | reset =>
    cases ht
    exact reset_inv h.memory
  | irq => exact h.irq ht
  | nmi => exact h.nmi ht
  | store address value =>
    cases ht
    exact ⟨Memory.wf_write h.memory address value, h.breakClear, h.unusedSet, h.countdown⟩
  | remap | devicesMove =>
    cases ht
    exact ⟨h.memory, h.breakClear, h.unusedSet, h.countdown⟩

theorem HostOp.runAll_keeps_inv (ops : List HostOp) {s t : State} (h : s.Inv)
    (ht : HostOp.runAll ops s = .next t) : t.Inv := by
  induction ops generalizing s with
  | nil =>
    cases ht
    exact h
  | cons op rest ih =>
    unfold HostOp.runAll at ht
    split at ht
    next u hu => exact ih (op.run_keeps_inv h hu) ht
    · cases ht
    · cases ht

/-- Right after `new(bus)` the core is off, and the invariant asks for the canonical memory alone. -/
theorem construct_inv {u : State} (h : Memory.wf u.mem = true) : (construct u).Inv := ⟨h, nofun, nofun, nofun⟩

/-- Settles O50, by induction over the operations; after `new()` it is the invariant's two flags. -/
theorem everyHostRunKeepsTheInvariant : Obligations.EveryHostRunKeepsTheInvariant := by
  refine ⟨fun ops s t h ht => HostOp.runAll_keeps_inv ops h ht, fun ops u t hu ht hp => ?_⟩
  have hinv := HostOp.runAll_keeps_inv ops (construct_inv hu) ht
  exact ⟨hinv.breakClear hp, hinv.unusedSet hp⟩

/-- Settles O48: on an empty bus both bytes of the reset vector read 0, and every other field is written. -/
theorem resetStateMeetsTheInvariant : Obligations.ResetStateMeetsTheInvariant := by
  refine ⟨fun u hmem hregions hdevices => ?_, ?_⟩
  · cases u
    subst hmem hregions hdevices
    exact congrArg State.reset.setPc (by decide : word unlistedByte unlistedByte = 0x0000#16)
  · exact ⟨State.wf_reset, fun _ => resetStatus_break_unused.1, fun _ => resetStatus_break_unused.2,
      fun _ => Nat.le_refl resetCycles⟩

end Sys2Proof.Machine
end

section
/-! PROOFS of the family 10_state, the scratch latches. An operation that reads no latch gives, from a state with the
latches forgotten, what it gives from the state itself; a resolver writes the latch that its mode's instructions
then read, so an instruction that the decoder can answer depends on none it finds. -/

namespace Sys2Proof.Machine

theorem AgreeButLatches.symm {s t : State} (h : AgreeButLatches s t) : AgreeButLatches t s := Eq.symm h

theorem AgreeButLatches.trans {s t u : State} (h : AgreeButLatches s t) (h' : AgreeButLatches t u) :
    AgreeButLatches s u := Eq.trans h h'

/-- What no latch enters into is the same in two states that agree but for the latches. -/
theorem AgreeButLatches.value {α : Type} {s t : State} (h : AgreeButLatches s t) (g : State → α)
    (hg : ∀ u, g u.withoutLatches = g u) : g s = g t := by
  rw [← hg s, ← hg t, show s.withoutLatches = t.withoutLatches from h]

/-- An operation that takes from a state only what is left of it without the latches. -/
def ReadsNoLatch (f : State → State) : Prop := ∀ s, AgreeButLatches (f s.withoutLatches) (f s)

theorem ReadsNoLatch.agree {f : State → State} (hf : ReadsNoLatch f) {s t : State} (h : AgreeButLatches s t) :
    AgreeButLatches (f s) (f t) := by
  have hs := hf s
  rw [show s.withoutLatches = t.withoutLatches from h] at hs
  exact hs.symm.trans (hf t)

/-! The resolver and the operand read. -/

/-- The modes whose resolver writes `addr_abs` (41_addressing_modes.md R153 to R163). -/
def writesAddrAbs : Mode → Bool
  | .imp | .acc | .rel => false
  | .imm | .zp0 | .zpx | .zpy | .abs | .abx | .aby | .ind | .izx | .izy => true

theorem resolve_readsNoLatch (o : Operand) : ReadsNoLatch fun s => (s.resolve o).2 := by
  intro s
  cases o <;> rfl

theorem resolve_cross_agree {s t : State} (h : AgreeButLatches s t) (o : Operand) :
    (s.resolve o).1 = (t.resolve o).1 :=
  h.value (fun u => (u.resolve o).1) fun u => by cases o <;> rfl

theorem resolve_addrAbs_agree {s t : State} (h : AgreeButLatches s t) {o : Operand}
    (ho : writesAddrAbs o.mode = true) : (s.resolve o).2.addrAbs = (t.resolve o).2.addrAbs := by
  refine h.value (fun u => (u.resolve o).2.addrAbs) fun u => ?_
  cases o with
  | imp | acc | rel => cases ho
  | _ => rfl

/-- The operand value depends on no latch the resolver found, in any mode but REL, where there is none. -/
theorem operandValue_agree {s t : State} (h : AgreeButLatches s t) {o : Operand} (ho : o.mode ≠ .rel) :
    operandValue o s = operandValue o t := by
  refine h.value (operandValue o) fun u => ?_
  cases o with
  | rel => exact absurd rfl ho
  | _ => rfl

/-- The operand read, from the EA the resolver wrote or the latch it filled, leaves states that agree. -/
theorem fetchOperand_agree {s t : State} (h : AgreeButLatches s t) {o : Operand} (ho : o.mode ≠ .rel) :
    AgreeButLatches ((s.resolve o).2.fetchOperand o.mode).2 ((t.resolve o).2.fetchOperand o.mode).2 := by
  refine ReadsNoLatch.agree (f := fun u => ((u.resolve o).2.fetchOperand o.mode).2) (fun u => ?_) h
  cases o with
  | rel => exact absurd rfl ho
  | _ => rfl

/-! The shapes of instruction. -/

theorem runImplied_agree {effect : State → State} (he : ReadsNoLatch effect) {s t : State} (h : AgreeButLatches s t)
    (m : Mnemonic) : AgreeButLatches (s.runImplied m effect) (t.runImplied m effect) := by
  have hcharge : ReadsNoLatch fun u => u.charge m .imp false 0 := fun _ => rfl
  exact hcharge.agree (he.agree ((resolve_readsNoLatch .imp).agree h))

/-- An instruction that reads its operand value agrees if its effect does after the operand read. -/
theorem runRead_agree {effect : Byte → State → State} {s t : State} (h : AgreeButLatches s t) {o : Operand}
    (m : Mnemonic) (he : AgreeButLatches (effect (operandValue o s) ((s.resolve o).2.fetchOperand o.mode).2)
      (effect (operandValue o t) ((t.resolve o).2.fetchOperand o.mode).2)) :
    AgreeButLatches (s.runRead m o effect) (t.runRead m o effect) := by
  have hcharge : ReadsNoLatch fun u => u.charge m o.mode (t.resolve o).1 0 := fun _ => rfl
  simp only [State.runRead]
  rw [resolve_cross_agree h o]
  exact hcharge.agree he

/-- An instruction whose effect reads its operand value and no latch. -/
theorem runRead_agree_of_readsNoLatch {effect : Byte → State → State} (he : ∀ v, ReadsNoLatch (effect v))
    {s t : State} (h : AgreeButLatches s t) {o : Operand} (ho : o.mode ≠ .rel) (m : Mnemonic) :
    AgreeButLatches (s.runRead m o effect) (t.runRead m o effect) := by
  refine runRead_agree h m ?_
  rw [operandValue_agree h ho]
  exact (he _).agree (fetchOperand_agree h ho)

theorem write8_readsNoLatch (a : Addr) (v : Byte) : ReadsNoLatch fun u => u.write8 a v := fun _ => rfl

theorem writeBack_agree {s t : State} (h : AgreeButLatches s t) {m : Mode}
    (hm : m = .acc ∨ s.addrAbs = t.addrAbs) (v : Byte) : AgreeButLatches (s.writeBack v m) (t.writeBack v m) := by
  by_cases hacc : m = .acc
  · subst hacc
    have hset : ReadsNoLatch fun u => u.setA v := fun _ => rfl
    exact hset.agree h
  · rw [State.writeBack_notAcc hacc, State.writeBack_notAcc hacc, hm.resolve_left hacc]
    exact (write8_readsNoLatch _ _).agree h

/-- A read-modify-write, on A or on a byte at an EA that its resolver writes. -/
theorem runModify_agree {result status : Byte → State → Byte}
    (hr : ∀ v u, result v u.withoutLatches = result v u) (hs : ∀ v u, status v u.withoutLatches = status v u)
    {s t : State} (h : AgreeButLatches s t) {o : Operand} (ho : o.mode = .acc ∨ writesAddrAbs o.mode = true)
    (m : Mnemonic) : AgreeButLatches (s.runModify m o result status) (t.runModify m o result status) := by
  have hrel : o.mode ≠ .rel := by
    intro e
    simp [e, writesAddrAbs] at ho
  have hf := fetchOperand_agree h hrel
  have hset : ∀ p, ReadsNoLatch fun u => u.setP p := fun _ _ => rfl
  refine runRead_agree h m ?_
  rw [operandValue_agree h hrel, hf.value _ (hr _), hf.value _ (hs _)]
  refine writeBack_agree ((hset _).agree hf) (ho.imp_right fun ho => ?_) _
  simpa using resolve_addrAbs_agree h ho

theorem runStore_agree {register : State → Byte} (hr : ∀ u, register u.withoutLatches = register u) {s t : State}
    (h : AgreeButLatches s t) {o : Operand} (ho : writesAddrAbs o.mode = true) (m : Mnemonic) :
    AgreeButLatches (s.runStore m o register) (t.runStore m o register) := by
  have hres := (resolve_readsNoLatch o).agree h
  have hwrite : ∀ a v c, ReadsNoLatch fun u => (u.write8 a v).charge m o.mode c 0 := fun _ _ _ _ => rfl
  simp only [State.runStore]
  rw [resolve_cross_agree h o, resolve_addrAbs_agree h ho, hres.value register hr]
  exact (hwrite _ _ _).agree hres

theorem runBranch_readsNoLatch {taken : State → Bool} (hk : ∀ u, taken u.withoutLatches = taken u) (m : Mnemonic)
    (d : Byte) : ReadsNoLatch fun u => u.runBranch m d taken := by
  intro u
  have hrel : AgreeButLatches (u.withoutLatches.resolve (.rel d)).2 (u.resolve (.rel d)).2 := rfl
  simp only [State.runBranch, hrel.value taken hk]
  split <;> rfl

theorem execJmp_agree {s t : State} (h : AgreeButLatches s t) {o : Operand} (ho : writesAddrAbs o.mode = true) :
    OutcomesAgreeButLatches (exec (.jmp o) s) (exec (.jmp o) t) := by
  have hjump : ∀ a, ReadsNoLatch fun u => (u.setPc a).charge .jmp o.mode false 0 := fun _ _ => rfl
  simp only [exec_jmp, OutcomesAgreeButLatches]
  rw [resolve_addrAbs_agree h ho]
  exact (hjump _).agree ((resolve_readsNoLatch o).agree h)

/-! The modes of the opcode table. -/

theorem read_mode_ne_rel : ∀ m, timingClass m = .read → Mode.rel ∉ m.modes := by
  intro m
  cases m <;> decide

theorem modify_mode : ∀ m, timingClass m = .modify → ∀ q ∈ m.modes, q = .acc ∨ writesAddrAbs q = true := by
  intro m
  cases m <;> decide

theorem store_mode : ∀ m, timingClass m = .store ∨ timingClass m = .jmp → ∀ q ∈ m.modes, writesAddrAbs q = true := by
  intro m
  cases m <;> decide

/-- An instruction in a mode its mnemonic has depends on no latch it finds. -/
theorem exec_agree {i : Instr} (hi : i.operand.mode ∈ i.mnemonic.modes) {s t : State} (h : AgreeButLatches s t) :
    OutcomesAgreeButLatches (exec i s) (exec i t) := by
  cases i with
  | adc | and | bit | cmp | cpx | cpy | eor | lda | ldx | ldy | ora | sbc =>
    refine runRead_agree_of_readsNoLatch (fun _ _ => ?_) h (fun e => read_mode_ne_rel _ rfl (e ▸ hi)) _
    rfl
  | asl | dec | inc | lsr | rol | ror =>
    exact runModify_agree (fun _ _ => rfl) (fun _ _ => rfl) h (modify_mode _ rfl _ hi) _
  | sta | stx | sty =>
    exact runStore_agree (fun _ => rfl) h (store_mode _ (.inl rfl) _ hi) _
  | bcc | bcs | beq | bmi | bne | bpl | bvc | bvs =>
    exact (runBranch_readsNoLatch (fun _ => rfl) _ _).agree h
  | jmp =>
    exact execJmp_agree h (store_mode _ (.inr rfl) _ hi)
  | jsr a =>
    have hjsr : ReadsNoLatch fun u => (((u.setAddrAbs a).pushWord (u.pc - 1#16)).setPc a).charge .jsr .abs false 0 :=
      fun _ => rfl
    exact hjsr.agree h
  | brk | clc | cld | cli | clv | dex | dey | inx | iny | nop | pha | php | pla | plp | rti | rts | sec | sed | sei
  | tax | tay | tsx | txa | txs | tya | ill =>
    refine runImplied_agree (fun _ => ?_) h _
    rfl

/-! The fetch. -/

theorem instrOf_mnemonic (op b1 b2 : Byte) (o : Operand) (m : Mnemonic) : (instrOf op b1 b2 o m).mnemonic = m := by
  cases m <;> rfl

theorem operandOf_mode (b1 b2 : Byte) (q : Mode) : (operandOf b1 b2 q).mode = q := by cases q <;> rfl

/-- An instruction built for a mode of its mnemonic is in that mode: one that carries no operand has one mode only. -/
theorem instrOf_mode (op b1 b2 : Byte) {m : Mnemonic} {q : Mode} (h : q ∈ m.modes) :
    (instrOf op b1 b2 (operandOf b1 b2 q) m).operand.mode = q := by
  cases m with
  | adc | and | asl | bit | cmp | cpx | cpy | dec | eor | inc | jmp | lda | ldx | ldy | lsr | ora | rol | ror | sbc
  | sta | stx | sty => exact operandOf_mode b1 b2 q
  | _ => exact (List.mem_singleton.mp h).symm

/-- Every row of the opcode table is in a mode of its mnemonic. (30_encoding.md R95) -/
theorem opcodeTable_mode_mem : ∀ e ∈ opcodeTable, e.mode ∈ e.mnemonic.modes := by
  simp only [opcodeTable, List.forall_mem_append]
  and_intros <;> decide

theorem assemble_mode_mem (op b1 b2 : Byte) :
    (assemble op b1 b2).operand.mode ∈ (assemble op b1 b2).mnemonic.modes := by
  have hrow := opcodeTable_mode_mem _ (entry_mem_opcodeTable op)
  rw [assemble, instrOf_mnemonic, instrOf_mode op b1 b2 hrow]
  exact hrow

theorem fetchBytes_withoutLatches (n : Nat) (s : State) :
    State.fetchBytes n s.withoutLatches = ((State.fetchBytes n s).1, (State.fetchBytes n s).2.withoutLatches) := by
  induction n generalizing s with
  | zero => rfl
  | succ n ih =>
    have hbyte : s.withoutLatches.fetchByte = (s.fetchByte.1, s.fetchByte.2.withoutLatches) := rfl
    simp only [State.fetchBytes, hbyte, ih]

theorem fetchInstr_withoutLatches (s : State) :
    s.withoutLatches.fetchInstr = (s.fetchInstr.1, s.fetchInstr.2.withoutLatches) := by
  have hbyte : s.withoutLatches.fetchByte = (s.fetchByte.1, s.fetchByte.2.withoutLatches) := rfl
  simp only [State.fetchInstr, hbyte, fetchBytes_withoutLatches]

/-- The fetch unit reads the same instruction and leaves states that agree. -/
theorem fetchInstr_agree {s t : State} (h : AgreeButLatches s t) :
    s.fetchInstr.1 = t.fetchInstr.1 ∧ AgreeButLatches s.fetchInstr.2 t.fetchInstr.2 := by
  have hinstr : ∀ u : State, u.withoutLatches.fetchInstr.1 = u.fetchInstr.1 := fun u => by
    rw [fetchInstr_withoutLatches]
  have hstate : ReadsNoLatch fun u => u.fetchInstr.2 := fun u => by
    simp only [fetchInstr_withoutLatches]
    rfl
  exact ⟨h.value (fun u => u.fetchInstr.1) hinstr, hstate.agree h⟩

/-! The tick and the host operations. -/

theorem executeInstruction_agree {s t : State} (h : AgreeButLatches s t) :
    OutcomesAgreeButLatches (executeInstruction s) (executeInstruction t) := by
  obtain ⟨hinstr, hstate⟩ := fetchInstr_agree h
  simp only [executeInstruction]
  rw [hinstr]
  exact exec_agree (assemble_mode_mem _ _ _) hstate

theorem servicePending_agree {s t : State} (h : AgreeButLatches s t) :
    OutcomesAgreeButLatches (servicePending s) (servicePending t) := by
  have hnmi : ReadsNoLatch fun u => (u.setNmiPending false).enterNmi := fun _ => rfl
  have hirq : ReadsNoLatch fun u => (u.setIrqPending false).enterIrq := fun _ => rfl
  have hdrop : ReadsNoLatch fun u => u.setIrqPending false := fun _ => rfl
  simp only [servicePending]
  rw [h.value State.nmiPending fun _ => rfl, h.value (State.flag · .i) fun _ => rfl]
  split
  · exact hnmi.agree h
  · split
    · exact executeInstruction_agree (hdrop.agree h)
    · exact hirq.agree h

theorem boundaryTick_agree {s t : State} (h : AgreeButLatches s t) :
    OutcomesAgreeButLatches (boundaryTick s) (boundaryTick t) := by
  simp only [boundaryTick]
  rw [h.value State.nmiPending fun _ => rfl, h.value State.irqPending fun _ => rfl]
  split
  · exact servicePending_agree h
  · exact executeInstruction_agree h

theorem counted_agree {o o' : Host.Outcome State Fault Refusal} (h : OutcomesAgreeButLatches o o') :
    OutcomesAgreeButLatches (counted o) (counted o') := by
  have hcount : ReadsNoLatch State.countTick := fun _ => rfl
  match o, o', h with
  | .next _, .next _, h => exact hcount.agree h
  | .refused _, .refused _, h => exact h

theorem step_agree {s t : State} (h : AgreeButLatches s t) : OutcomesAgreeButLatches (step s) (step t) := by
  have hclear : ReadsNoLatch State.clearLog := fun _ => rfl
  have hwait : ReadsNoLatch fun u => u.clearLog.countTick := fun _ => rfl
  simp only [step, tick]
  rw [h.value State.power fun _ => rfl, h.value State.cycles fun _ => rfl]
  split
  · rfl
  · split
    · exact counted_agree (boundaryTick_agree (hclear.agree h))
    · exact hwait.agree h

theorem irq_agree {s t : State} (h : AgreeButLatches s t) : OutcomesAgreeButLatches (irq s) (irq t) := by
  have hlatch : ReadsNoLatch fun u => u.clearLog.setIrqPending true := fun _ => rfl
  have hdrop : ReadsNoLatch State.clearLog := fun _ => rfl
  have henter : ReadsNoLatch fun u => u.clearLog.enterIrq := fun _ => rfl
  simp only [irq]
  rw [h.value State.power fun _ => rfl, h.value State.cycles fun _ => rfl, h.value (State.flag · .i) fun _ => rfl]
  split
  · rfl
  · split
    · exact hlatch.agree h
    · split
      · exact hdrop.agree h
      · exact henter.agree h

theorem nmi_agree {s t : State} (h : AgreeButLatches s t) : OutcomesAgreeButLatches (nmi s) (nmi t) := by
  have hlatch : ReadsNoLatch fun u => u.clearLog.setNmiPending true := fun _ => rfl
  have henter : ReadsNoLatch fun u => u.clearLog.enterNmi := fun _ => rfl
  simp only [nmi]
  rw [h.value State.power fun _ => rfl, h.value State.cycles fun _ => rfl]
  split
  · rfl
  · split
    · exact hlatch.agree h
    · exact henter.agree h

/-- `reset()` writes the latches itself. (70_reset_and_hazards.md R380) -/
theorem reset_readsNoLatch : ReadsNoLatch reset := fun _ => rfl

/-- Settles O51, operation by operation: the bus moves and `reset()` read no latch, the other three by their own
lemmas. -/
theorem latchesNeverReadBeforeWritten : Obligations.LatchesNeverReadBeforeWritten := by
  intro op s t h
  cases op with
  | step => exact step_agree h
  | reset => exact reset_readsNoLatch.agree h
  | irq => exact irq_agree h
  | nmi => exact nmi_agree h
  | store address value =>
    have hstore : ReadsNoLatch fun u => { u with mem := Memory.write u.mem address.toNat value } := fun _ => rfl
    exact hstore.agree h
  | remap regions =>
    have hremap : ReadsNoLatch fun u => { u with regions := regions } := fun _ => rfl
    exact hremap.agree h
  | devicesMove state =>
    have hmove : ReadsNoLatch fun u => { u with deviceState := state } := fun _ => rfl
    exact hmove.agree h

end Sys2Proof.Machine
end

section
/-! PROOFS of the family 20_memory, the bus. What a bus write leaves at the address written and at every other
address that is no device; what a call to a device changes. -/

namespace Sys2Proof.Machine

/-! The bus write, read back. -/

/-- RAM and ROM answer the byte held there. (20_memory.md R61) -/
theorem State.peek_plain {s : State} {a : Addr} (h : s.kindAt a ≠ .device) :
    s.peek a = Memory.read s.mem a.toNat := by
  unfold State.peek
  split
  · rfl
  · rfl
  · contradiction

/-- RAM answers the byte written to it. (20_memory.md R63) -/
theorem State.write8_peek_ram {s : State} {a : Addr} (hmem : Memory.wf s.mem = true) (hk : s.kindAt a = .ram)
    (v : Byte) : (s.write8 a v).peek a = v := by
  rw [State.peek_plain (by simp [hk])]
  exact State.read_memAfterWrite_eq hmem hk v

/-- A read-only address ignores a write to it. (20_memory.md R62) -/
theorem State.write8_peek_rom {s : State} {a : Addr} (hk : s.kindAt a = .rom) (v : Byte) :
    (s.write8 a v).peek a = s.peek a := by
  rw [State.peek_plain (by simp [hk]), State.peek_plain (by simp [hk]), State.write8_mem,
    State.memAfterWrite_notRam (by simp [hk])]

/-- An address that is no device answers as before a write to another address. -/
theorem State.write8_peek_other (s : State) {a b : Addr} (v : Byte) (hne : b ≠ a) (hk : s.kindAt b ≠ .device) :
    (s.write8 a v).peek b = s.peek b := by
  rw [State.peek_plain (by simpa using hk), State.peek_plain hk]
  exact State.read_memAfterWrite_ne s v hne

/-- Settles O7, by what the bus answers after a write at the address written and at the others. -/
theorem busWriteReachesRamOnly : Obligations.BusWriteReachesRamOnly := fun s _ v =>
  ⟨fun hmem hk => State.write8_peek_ram hmem hk v, fun hk => State.write8_peek_rom hk v,
    fun _ hne hk => State.write8_peek_other s v hne hk, rfl⟩

/-! Calls to devices. -/

/-- A bus read changes the devices and the record of bus calls, nothing else. (20_memory.md R68) -/
theorem State.afterRead_unchanged (s : State) (a : Addr) :
    UnchangedBut [.deviceState, .busLog] s (s.afterRead a) := by
  intro q hq
  cases q with
  | deviceState | busLog => simp at hq
  | mem => exact fun _ => rfl
  | _ => rfl

/-- A bus write to anything but RAM changes no byte held. -/
theorem State.write8_unchanged_notRam {s : State} {a : Addr} (hk : s.kindAt a ≠ .ram) (v : Byte) :
    UnchangedBut [.deviceState, .busLog] s (s.write8 a v) := by
  intro q hq
  cases q with
  | deviceState | busLog => simp at hq
  | mem =>
    intro b
    rw [State.write8_mem, State.memAfterWrite_notRam hk]
  | _ => rfl

/-- STA in mode ABS is one bus write of A to its address. (42_load_store_transfer.md R184) -/
theorem exec_sta_abs (a : Addr) (s : State) : ∃ t, exec (.sta (.abs a)) s = .next t ∧
    t.deviceState = s.deviceAfterWrite a s.a ∧ t.regions = s.regions :=
  ⟨_, rfl, rfl, rfl⟩

/-- LDA in mode ABS is one bus read of its address into A. (42_load_store_transfer.md R181) -/
theorem exec_lda_abs (b : Addr) (t : State) : ∃ u, exec (.lda (.abs b)) t = .next u ∧
    u.a = t.peek b ∧ u.deviceState = t.deviceAfterRead b :=
  ⟨_, rfl, rfl, rfl⟩

/-- A store to a device, then a load from a device: A is the answer of the devices after the write. -/
theorem store_then_load_devices {s : State} {a b : Addr} (ha : s.kindAt a = .device) (hb : s.kindAt b = .device) :
    let written := Config.deviceAfterWrite s.deviceState a s.a
    ∃ t u : State, exec (.sta (.abs a)) s = .next t ∧ exec (.lda (.abs b)) t = .next u ∧
      t.deviceState = written ∧ u.a = Config.deviceByte written b ∧
      u.deviceState = Config.deviceAfterRead written b := by
  obtain ⟨t, ht, hwrite, hregions⟩ := exec_sta_abs a s
  obtain ⟨u, hu, hanswer, hread⟩ := exec_lda_abs b t
  have hbt : t.kindAt b = .device := by rw [State.kindAt, hregions]; exact hb
  rw [State.deviceAfterWrite_device ha] at hwrite
  refine ⟨t, u, ht, hu, hwrite, ?_, ?_⟩
  · rw [hanswer, State.peek_device hbt, hwrite]
  · rw [hread, State.deviceAfterRead_device hbt, hwrite]

/-- Settles O8: one call to a device, one call elsewhere, and a store followed by a load. -/
theorem devicesAnswerFromTheirState : Obligations.DevicesAnswerFromTheirState := by
  refine ⟨fun s a v hk => ?_, fun s a v hk => ?_, fun s a b ha hb => store_then_load_devices ha hb⟩
  · exact ⟨State.peek_device hk, State.deviceAfterRead_device hk, State.afterRead_unchanged s a,
      State.deviceAfterWrite_device hk v, State.write8_unchanged_notRam (by simp [hk]) v⟩
  · exact ⟨State.deviceAfterRead_plain hk, State.deviceAfterWrite_plain hk v⟩

end Sys2Proof.Machine
end

section
/-! PROOFS of the family 20_memory, the frame of memory. Each shape of instruction changes the bytes its effect
changes: a read-modify-write the byte at EA unless in mode ACC, a push and an entry the stack bytes. -/

namespace Sys2Proof.Machine

theorem BytesUnchangedBut.of_mem_eq {s t : State} (h : t.mem = s.mem) (l : List Addr) : BytesUnchangedBut l s t := by
  intro b _
  rw [h]

theorem BytesUnchangedBut.trans {l l' : List Addr} {s t u : State} (h : BytesUnchangedBut l s t)
    (h' : BytesUnchangedBut l' t u) : BytesUnchangedBut (l ++ l') s u := by
  intro b hb
  obtain ⟨hl, hl'⟩ := not_or.mp (mt List.mem_append.mpr hb)
  exact (h' b hl').trans (h b hl)

theorem State.pushWord_bytes (s : State) (v : Addr) :
    BytesUnchangedBut [stackAddr s.sp, stackAddr (s.sp - 1#8)] s (s.pushWord v) :=
  (s.push_bytes (page v)).trans ((s.push (page v)).push_bytes (lowByte v))

/-- An interrupt entry changes the three stack bytes it pushes. (60_exceptions.md R346) -/
theorem State.interruptEntry_bytes (s : State) (v : Addr) (brk : Bool) :
    BytesUnchangedBut [stackAddr s.sp, stackAddr (s.sp - 1#8), stackAddr (s.sp - 2#8)] s
      (s.interruptEntry v brk) := by
  obtain ⟨-, -, -, hbytes, -⟩ := s.interruptEntry_entersWith v brk
  exact hbytes

/-- The write-back changes no byte in mode ACC, and the byte at `addr_abs` in any other. (44_shift_rotate.md R250) -/
theorem State.writeBack_bytes (s : State) (v : Byte) (m : Mode) :
    BytesUnchangedBut (if m = .acc then [] else [s.addrAbs]) s (s.writeBack v m) := by
  split
  next hacc =>
    rw [hacc]
    exact .of_mem_eq rfl _
  next hacc =>
    rw [State.writeBack_notAcc hacc]
    exact s.write8_bytes s.addrAbs v

/-! The shapes of instruction. -/

theorem State.runImplied_bytes {l : List Addr} {effect : State → State} {s : State}
    (h : BytesUnchangedBut l (s.setFetched s.a) (effect (s.setFetched s.a))) (m : Mnemonic) :
    BytesUnchangedBut l s (s.runImplied m effect) := h

theorem State.runRead_bytes {l : List Addr} {effect : Byte → State → State} {s : State} {o : Operand}
    (h : ∀ v t, t.addrAbs = effectiveAddress o s → BytesUnchangedBut l t (effect v t)) (m : Mnemonic) :
    BytesUnchangedBut l s (s.runRead m o effect) := by
  have he := h ((s.resolve o).2.fetchOperand o.mode).1 ((s.resolve o).2.fetchOperand o.mode).2
    (State.fetchOperand_addrAbs _ _)
  rwa [BytesUnchangedBut, State.fetchOperand_mem, State.resolve_mem] at he

theorem State.runModify_bytes (s : State) (m : Mnemonic) (o : Operand) (result status : Byte → State → Byte) :
    BytesUnchangedBut (if o.mode = .acc then [] else [effectiveAddress o s]) s (s.runModify m o result status) := by
  refine State.runRead_bytes (fun v t hea => ?_) m
  rw [← hea]
  exact (t.setP (status v t)).writeBack_bytes (result v t) o.mode

/-- Every instruction completes, and changes no byte but those it stores to. -/
theorem exec_bytes (i : Instr) (s : State) :
    ∃ t, exec i s = .next t ∧ BytesUnchangedBut (storedAddresses i s) s t := by
  cases i with
  | adc | and | bit | cmp | cpx | cpy | eor | lda | ldx | ldy | ora | sbc =>
    refine ⟨_, rfl, State.runRead_bytes (fun _ _ _ => ?_) _⟩
    exact .of_mem_eq rfl _
  | asl | dec | inc | lsr | rol | ror =>
    exact ⟨_, rfl, State.runModify_bytes s _ _ _ _⟩
  | sta | stx | sty =>
    exact ⟨_, rfl, State.runStore_bytes s _ _ _⟩
  | bcc | bcs | beq | bmi | bne | bpl | bvc | bvs =>
    exact ⟨_, rfl, .of_mem_eq (State.runBranch_mem s _ _ _) _⟩
  | jmp o =>
    exact ⟨_, rfl, .of_mem_eq (s.resolve_mem o) _⟩
  | jsr a =>
    exact ⟨_, rfl, (s.setAddrAbs a).pushWord_bytes (s.pc - 1#16)⟩
  | pha | php =>
    refine ⟨_, rfl, State.runImplied_bytes ?_ _⟩
    exact State.push_bytes _ _
  | brk =>
    refine ⟨_, exec_brk s, State.runImplied_bytes ?_ _⟩
    exact State.interruptEntry_bytes ((s.setFetched s.a).setPc (s.pc + 1#16)) irqVector true
  | pla | plp | rti | rts =>
    refine ⟨_, rfl, State.runImplied_bytes (.of_mem_eq ?_ _) _⟩
    simp [State.pullStatus, State.pullWord]
  | clc | cld | cli | clv | dex | dey | inx | iny | nop | sec | sed | sei | tax | tay | tsx | txa | txs | tya | ill =>
    refine ⟨_, rfl, State.runImplied_bytes ?_ _⟩
    exact .of_mem_eq rfl _

/-- Settles O38, by the bytes each shape of instruction changes. -/
theorem onlyStoredBytesChange : Obligations.OnlyStoredBytesChange := by
  intro i s t _ h
  obtain ⟨u, hu, hbytes⟩ := exec_bytes i s
  cases hu.symm.trans h
  exact hbytes

end Sys2Proof.Machine
end

section
/-! PROOFS of the family 30_encoding. The opcode map the decoder reads and the opcode list the encoder reads agree in
both directions; the decoder takes as many operand bytes as its row's mode has and leaves the rest; an instruction and
its operand bytes determine each other. -/

namespace Sys2Proof.Machine

/-! The opcode map (30_encoding.md R95) and the undocumented bytes (R98). -/

theorem opcodeTable_getElem?_toNat (op : Byte) : opcodeTable[op.toNat]? = some (entry op) := by
  have hlt : op.toNat < opcodeTable.length := opcodeTable_length ▸ op.isLt
  rw [entry, List.getD_eq_getElem _ _ hlt, List.getElem?_eq_getElem hlt]

/-- The list of R98 is that of the places of ILL in the opcode map. -/
theorem undocumented_toNat_eq_findIdxs :
    undocumented.map BitVec.toNat = opcodeTable.findIdxs (·.mnemonic == .ill) := by decide

theorem undocumented_nodup : undocumented.Nodup := by
  refine List.Nodup.of_map BitVec.toNat ?_
  rw [undocumented_toNat_eq_findIdxs]
  exact List.nodup_findIdxs

theorem entry_mnemonic_eq_ill_iff (op : Byte) : (entry op).mnemonic = .ill ↔ op ∈ undocumented := by
  rw [← List.mem_map_of_injective fun _ _ => BitVec.eq_of_toNat_eq, undocumented_toNat_eq_findIdxs,
    List.mem_findIdxs_iff_exists_getElem_pos]
  obtain ⟨hlt, hentry⟩ := List.getElem?_eq_some_iff.mp (opcodeTable_getElem?_toNat op)
  simp [hentry, hlt]

/-- ILL has one row only. -/
theorem opcodeTable_ill : ∀ e ∈ opcodeTable, e.mnemonic = .ill → e = illEntry := by
  simp only [opcodeTable, List.forall_mem_append]
  and_intros <;> decide

theorem entry_eq_illEntry_iff (op : Byte) : entry op = illEntry ↔ op ∈ undocumented := by
  rw [← entry_mnemonic_eq_ill_iff]
  exact ⟨fun h => h ▸ rfl, opcodeTable_ill _ (entry_mem_opcodeTable op)⟩

/-- Settles O3: the undocumented bytes are the places of ILL in the opcode map, and ILL has one row only. -/
theorem undocumentedBytesAreIll : Obligations.UndocumentedBytesAreIll :=
  ⟨by decide, undocumented_nodup, entry_eq_illEntry_iff, entry_mnemonic_eq_ill_iff, fun _ => rfl⟩

/-! The opcode map against the opcode list (R96). -/

/-- A byte that the list gives to a mnemonic in a mode has that mnemonic and that mode in the map. -/
theorem entry_of_mem_opcodes (m : Mnemonic) :
    ∀ row ∈ m.opcodes, (entry row.2).mnemonic = m ∧ (entry row.2).mode = row.1 := by
  cases m <;> decide

theorem entry_of_opcodeOf {m : Mnemonic} {q : Mode} {op : Byte} (h : opcodeOf m q = some op) :
    (entry op).mnemonic = m ∧ (entry op).mode = q := by
  obtain ⟨l₁, l₂, hsplit, -⟩ := List.lookup_eq_some_iff.mp h
  exact entry_of_mem_opcodes m (q, op) (by simp [hsplit])

/-- Row by row of the map, with its number: the list gives a documented row that number as its opcode byte. -/
theorem opcodeTable_rows_in_list :
    (opcodeTable.zipIdx.filter fun row => row.1.mnemonic ≠ .ill).all fun row =>
      opcodeOf row.1.mnemonic row.1.mode = some (BitVec.ofNat 8 row.2) := by decide

theorem opcodeOf_entry {op : Byte} (h : (entry op).mnemonic ≠ .ill) :
    opcodeOf (entry op).mnemonic (entry op).mode = some op := by
  have hrow : (entry op, op.toNat) ∈ opcodeTable.zipIdx.filter fun row => row.1.mnemonic ≠ .ill :=
    List.mem_filter.mpr ⟨List.mk_mem_zipIdx_iff_getElem?.mpr (opcodeTable_getElem?_toNat op), by simpa using h⟩
  simpa using List.all_eq_true.mp opcodeTable_rows_in_list _ hrow

/-! Well-formed instructions and their opcode bytes. -/

theorem wellFormed_iff (i : Instr) : i.WellFormed ↔
    i.operand.mode ∈ i.mnemonic.modes ∧ ∀ op, i.undocumentedByte = some op → op ∈ undocumented := by
  simp only [Instr.WellFormed, Instr.wellFormed, Bool.and_eq_true, List.contains_iff_mem]
  cases i.undocumentedByte <;> simp

theorem undocumentedByte_eq_none_iff (i : Instr) : i.undocumentedByte = none ↔ i.mnemonic ≠ .ill := by
  cases i <;> simp [Instr.undocumentedByte, Instr.mnemonic]

/-- A well-formed instruction has an opcode byte, whose row of the opcode map is the instruction's. -/
theorem exists_opcode_of_wellFormed {i : Instr} (h : i.WellFormed) :
    ∃ op, i.opcode = some op ∧ (entry op).mnemonic = i.mnemonic ∧ (entry op).mode = i.operand.mode := by
  obtain ⟨hmode, hundoc⟩ := (wellFormed_iff i).mp h
  by_cases hill : i.mnemonic = .ill
  · cases i with
    | ill op =>
      have hentry := (entry_eq_illEntry_iff op).mpr (hundoc op rfl)
      exact ⟨op, rfl, congrArg Entry.mnemonic hentry, congrArg Entry.mode hentry⟩
    | _ => cases hill
  · obtain ⟨op, hop⟩ := Option.isSome_iff_exists.mp (Laws.EncodedLength.opcode_exists _ hill _ hmode)
    refine ⟨op, ?_, entry_of_opcodeOf hop⟩
    rw [Instr.opcode, (undocumentedByte_eq_none_iff i).mpr hill]
    exact hop

/-! Operands and their bytes (R91). -/

@[simp] theorem lowByte_word (hi lo : Byte) : lowByte (word hi lo) = lo := BitVec.extractLsb'_append_eq_right

@[simp] theorem page_word (hi lo : Byte) : page (word hi lo) = hi := BitVec.extractLsb'_append_eq_left

@[simp] theorem word_page_lowByte (a : Addr) : word (page a) (lowByte a) = a := BitVec.extractLsb'_append_extractLsb'

theorem operand_bytes_length (o : Operand) : o.bytes.length = o.mode.operandBytes := by cases o <;> rfl

/-- The operand read from two bytes has for bytes as many of them as its mode has operand bytes. -/
theorem operandOf_bytes (b1 b2 : Byte) (q : Mode) : (operandOf b1 b2 q).bytes = [b1, b2].take q.operandBytes := by
  cases q <;> simp [operandOf, Operand.bytes, Mode.operandBytes]

/-- An operand is read again from its bytes. -/
theorem operandOf_of_bytes (o : Operand) :
    operandOf (o.bytes.getD 0 0x00#8) (o.bytes.getD 1 0x00#8) o.mode = o := by
  cases o <;> simp [operandOf, Operand.bytes, Operand.mode]

/-- An instruction built for a mode of its mnemonic has the operand it was built with. -/
theorem instrOf_operand (op b1 b2 : Byte) {m : Mnemonic} {q : Mode} (h : q ∈ m.modes) :
    (instrOf op b1 b2 (operandOf b1 b2 q) m).operand = operandOf b1 b2 q := by
  cases m with
  | adc | and | asl | bit | cmp | cpx | cpy | dec | eor | inc | jmp | lda | ldx | ldy | lsr | ora | rol | ror | sbc
  | sta | stx | sty => rfl
  | _ => rw [List.mem_singleton.mp h]; rfl

theorem instrOf_undocumentedByte (op b1 b2 : Byte) (o : Operand) (m : Mnemonic) :
    (instrOf op b1 b2 o m).undocumentedByte = if m = .ill then some op else none := by
  cases m <;> rfl

/-! The instruction of an opcode byte and its operand bytes. -/

/-- The instruction assembled from an opcode byte and its operand bytes, a byte that is not there taken for 0. -/
def assembleFrom (op : Byte) (bs : List Byte) : Instr := assemble op (bs.getD 0 0x00#8) (bs.getD 1 0x00#8)

theorem assembleFrom_mnemonic (op : Byte) (bs : List Byte) : (assembleFrom op bs).mnemonic = (entry op).mnemonic :=
  instrOf_mnemonic _ _ _ _ _

theorem assembleFrom_operand (op : Byte) (bs : List Byte) : (assembleFrom op bs).operand =
    operandOf (bs.getD 0 0x00#8) (bs.getD 1 0x00#8) (entry op).mode :=
  instrOf_operand _ _ _ (opcodeTable_mode_mem _ (entry_mem_opcodeTable op))

theorem assembleFrom_mode (op : Byte) (bs : List Byte) : (assembleFrom op bs).operand.mode = (entry op).mode := by
  rw [assembleFrom_operand, operandOf_mode]

theorem assembleFrom_length (op : Byte) (bs : List Byte) :
    (assembleFrom op bs).length = (entry op).mode.operandBytes + 1 := by
  rw [Instr.length, assembleFrom_mode, Nat.add_comm]

theorem assembleFrom_undocumentedByte (op : Byte) (bs : List Byte) :
    (assembleFrom op bs).undocumentedByte = if (entry op).mnemonic = .ill then some op else none :=
  instrOf_undocumentedByte _ _ _ _ _

theorem assembleFrom_opcode (op : Byte) (bs : List Byte) : (assembleFrom op bs).opcode = some op := by
  rw [Instr.opcode, assembleFrom_undocumentedByte, assembleFrom_mnemonic, assembleFrom_mode]
  by_cases hill : (entry op).mnemonic = .ill
  · rw [if_pos hill]
  · rw [if_neg hill]
    exact opcodeOf_entry hill

theorem assembleFrom_wellFormed (op : Byte) (bs : List Byte) : (assembleFrom op bs).WellFormed := by
  refine (wellFormed_iff _).mpr ⟨assemble_mode_mem _ _ _, fun b hb => ?_⟩
  rw [assembleFrom_undocumentedByte] at hb
  obtain ⟨hill, hop⟩ := Option.ite_none_right_eq_some.mp hb
  exact Option.some.inj hop ▸ (entry_mnemonic_eq_ill_iff op).mp hill

theorem assembleFrom_bytes {op : Byte} {bs : List Byte} (h : bs.length = (entry op).mode.operandBytes) :
    (assembleFrom op bs).operand.bytes = bs := by
  have hle := h ▸ operandBytes_le_two (entry op).mode
  rw [assembleFrom_operand, operandOf_bytes, ← h]
  match bs, hle with
  | [], _ | [_], _ | [_, _], _ => rfl

/-- Encoding gives the opcode byte and the operand bytes back. -/
theorem encode_assembleFrom {op : Byte} {bs : List Byte} (h : bs.length = (entry op).mode.operandBytes) :
    encode (assembleFrom op bs) = op :: bs := by
  rw [encode, assembleFrom_opcode]
  exact congrArg (op :: ·) (assembleFrom_bytes h)

/-- An instruction is assembled again from its opcode byte, if that is its row's, and its operand bytes. -/
theorem assembleFrom_opcode_bytes {i : Instr} {op : Byte} (hop : i.opcode = some op)
    (hm : (entry op).mnemonic = i.mnemonic) (hq : (entry op).mode = i.operand.mode) :
    assembleFrom op i.operand.bytes = i := by
  rw [assembleFrom, assemble, hm, hq, operandOf_of_bytes]
  cases i with
  | jsr a => exact congrArg Instr.jsr (word_page_lowByte a)
  | ill b => exact congrArg Instr.ill (Option.some.inj hop).symm
  | _ => rfl

/-! The decoder. -/

/-- The decoder takes the operand bytes of its row's mode and leaves the bytes after them. (R101) -/
theorem decode_operand_bytes {op : Byte} {bs : List Byte} (h : bs.length = (entry op).mode.operandBytes)
    (rest : List Byte) : decode (op :: (bs ++ rest)) = .ok (assembleFrom op bs, rest) := by
  have hle := h ▸ operandBytes_le_two (entry op).mode
  simp only [decode, ← h]
  match bs, hle with
  | [], _ | [_], _ | [_, _], _ => rfl

/-- Too few operand bytes are rejected. -/
theorem decode_missing_operand {op : Byte} {bs : List Byte} (h : bs.length < (entry op).mode.operandBytes) :
    decode (op :: bs) = .error (.missingOperand op) := by
  have hle := operandBytes_le_two (entry op).mode
  simp only [decode]
  generalize (entry op).mode.operandBytes = n at h hle
  match bs, n, h, hle with
  | [], 1, _, _ | [], 2, _, _ | [_], 2, _, _ => rfl
  | _ :: _ :: bs, n, h, hle =>
    rw [List.length_cons, List.length_cons] at h
    omega

/-- Of three bytes or more the decoder takes the opcode byte and the operand bytes of its row's mode. -/
theorem decode_three_bytes (op b1 b2 : Byte) (rest : List Byte) : decode (op :: b1 :: b2 :: rest) =
    .ok (assembleFrom op ([b1, b2].take (entry op).mode.operandBytes),
      (b1 :: b2 :: rest).drop (entry op).mode.operandBytes) := by
  have hle := operandBytes_le_two (entry op).mode
  have hsplit : [b1, b2].take (entry op).mode.operandBytes ++ (b1 :: b2 :: rest).drop (entry op).mode.operandBytes =
      b1 :: b2 :: rest := by
    rw [← List.take_append_of_le_length (l₂ := rest) hle]
    exact List.take_append_drop _ (b1 :: b2 :: rest)
  rw [← decode_operand_bytes (List.length_take_of_le hle), hsplit]

/-- Settles O1: the encoding is the opcode byte of the instruction's row with its operand bytes, of which the decoder
assembles it again. -/
theorem decodeOfEncodeIsTheInstruction : Obligations.DecodeOfEncodeIsTheInstruction := by
  intro i rest h
  obtain ⟨op, hop, hm, hq⟩ := exists_opcode_of_wellFormed h
  have hencode : encode i = op :: i.operand.bytes := by rw [encode, hop]
  rw [hencode, List.cons_append, decode_operand_bytes (hq ▸ operand_bytes_length i.operand),
    assembleFrom_opcode_bytes hop hm hq]

/-- Settles O2: the instruction is the one assembled from the opcode byte and the operand bytes of its row's mode. -/
theorem everyOpcodeByteDecodes : Obligations.EveryOpcodeByteDecodes := by
  refine ⟨rfl, fun op bs h => decode_missing_operand h, fun op b1 b2 rest => ?_⟩
  have hle := operandBytes_le_two (entry op).mode
  refine ⟨assembleFrom op ([b1, b2].take (entry op).mode.operandBytes), ?_, assembleFrom_wellFormed _ _, ?_, ?_,
    assembleFrom_mnemonic _ _, assembleFrom_mode _ _, ?_⟩ <;> rw [assembleFrom_length]
  · exact decode_three_bytes op b1 b2 rest
  · exact Nat.le_add_left 1 _
  · exact Nat.succ_le_succ hle
  · exact encode_assembleFrom (List.length_take_of_le hle)

/-- Settles O4, each by evaluation of the decoder. -/
theorem sampleBytesDecode : Obligations.SampleBytesDecode :=
  ⟨rfl, rfl, rfl, rfl, rfl, rfl, rfl, rfl, rfl, rfl, rfl, rfl⟩

end Sys2Proof.Machine
end

section
/-! PROOFS of the family 40_execution_cycle, the tick of an instruction. The fetch unit reads the bytes from PC on,
which decode to the instruction it assembles; PC stays past them unless the instruction transfers control. -/

namespace Sys2Proof.Machine

/-! The bytes from PC on. -/

theorem addr_succ_offset (a : Addr) (k : Nat) : a + 1#16 + BitVec.ofNat 16 k = a + BitVec.ofNat 16 (k + 1) := by
  bv_omega

/-- A map over the addresses from `a` on is its value at `a` and the map over those from `a + 1` on. -/
theorem map_range_succ_offsets {α : Type} (g : Addr → α) (a : Addr) (n : Nat) :
    ((List.range (n + 1)).map fun k => g (a + BitVec.ofNat 16 k)) =
      g a :: (List.range n).map fun k => g (a + 1#16 + BitVec.ofNat 16 k) := by
  rw [List.range_succ_eq_map, List.map_cons, List.map_map]
  exact congrArg₂ List.cons (by simp) (List.map_congr_left fun k _ => congrArg g (addr_succ_offset a k).symm)

/-- The fetch changes PC and the bus's own fields, nothing else. (40_execution_cycle.md R122) -/
theorem fetchBytes_unchanged (n : Nat) (s : State) :
    UnchangedBut [.pc, .deviceState, .busLog] s (State.fetchBytes n s.clearLog).2 := by
  intro q hq
  cases q with
  | pc | deviceState | busLog => simp at hq
  | _ => simp [Part.Same]

/-- Off the devices the bytes fetched are the bytes held from PC on. (R122) -/
theorem fetchBytes_plain (n : Nat) (s : State)
    (h : ∀ k < n, s.kindAt (s.pc + BitVec.ofNat 16 k) ≠ .device) :
    (State.fetchBytes n s).1 = (List.range n).map fun k => Memory.read s.mem (s.pc + BitVec.ofNat 16 k).toNat := by
  induction n generalizing s with
  | zero => rfl
  | succ n ih =>
    have hrest := ih s.fetchByte.2 fun k hk => addr_succ_offset s.pc k ▸ h (k + 1) (by omega)
    have hfirst : s.peek s.pc = Memory.read s.mem s.pc.toNat := State.peek_plain (by simpa using h 0 (by omega))
    rw [map_range_succ_offsets fun a => Memory.read s.mem a.toNat, ← hfirst]
    exact congrArg (s.peek s.pc :: ·) hrest

/-- The fetch unit reads the opcode byte and the operand bytes of its row's mode, and assembles the instruction. -/
theorem fetchInstr_eq (s : State) : s.fetchInstr =
    (assembleFrom (s.peek s.pc) (State.fetchBytes (entry (s.peek s.pc)).mode.operandBytes s.fetchByte.2).1,
      (State.fetchBytes ((entry (s.peek s.pc)).mode.operandBytes + 1) s).2) := rfl

theorem fetchInstr_length (s : State) : s.fetchInstr.1.length = (entry (s.peek s.pc)).mode.operandBytes + 1 := by
  rw [fetchInstr_eq, assembleFrom_length]

theorem fetchInstr_wellFormed (s : State) : s.fetchInstr.1.WellFormed := assembleFrom_wellFormed _ _

theorem fetchInstr_mode_mem (s : State) : s.fetchInstr.1.operand.mode ∈ s.fetchInstr.1.mnemonic.modes :=
  assemble_mode_mem _ _ _

/-- The fetch unit reads as many bytes as the instruction is long. -/
theorem fetchInstr_snd (s : State) : s.fetchInstr.2 = (State.fetchBytes s.fetchInstr.1.length s).2 := by
  rw [fetchInstr_length]
  rfl

/-- PC is past the instruction's bytes after the fetch. (40_execution_cycle.md R122) -/
theorem fetchInstr_pc (s : State) : s.fetchInstr.2.pc = s.pc + BitVec.ofNat 16 s.fetchInstr.1.length := by
  rw [fetchInstr_snd, State.fetchBytes_pc]

/-- Bytes that decode with none left over are an opcode byte and the operand bytes of its row's mode. -/
theorem decode_eq_ok_nil {op : Byte} {bs : List Byte} {i : Instr} (h : decode (op :: bs) = .ok (i, [])) :
    bs.length = (entry op).mode.operandBytes ∧ assembleFrom op bs = i := by
  rcases Nat.lt_or_ge bs.length (entry op).mode.operandBytes with hlt | hge
  · cases (decode_missing_operand hlt).symm.trans h
  · rw [← List.take_append_drop (entry op).mode.operandBytes bs,
      decode_operand_bytes (List.length_take_of_le hge)] at h
    obtain ⟨hinstr, hle⟩ : assembleFrom op (bs.take (entry op).mode.operandBytes) = i ∧
      bs.length ≤ (entry op).mode.operandBytes := by simpa using h
    rw [List.take_of_length_le hle] at hinstr
    exact ⟨Nat.le_antisymm hle hge, hinstr⟩

/-- If the `n` bytes from PC on decode with none left over, the instruction is `n` bytes long, and the fetch unit reads
those bytes and answers it. -/
theorem fetchInstr_of_decode {n : Nat} {s : State} {i : Instr} (h : decode (State.fetchBytes n s).1 = .ok (i, [])) :
    i.length = n ∧ s.fetchInstr = (i, (State.fetchBytes n s).2) := by
  cases n with
  | zero => cases h
  | succ n =>
    obtain ⟨hlen, rfl⟩ := decode_eq_ok_nil (op := s.peek s.pc) h
    rw [State.fetchBytes_length] at hlen
    rw [assembleFrom_length, fetchInstr_eq, ← hlen]
    exact ⟨rfl, rfl⟩

/-- Settles O43: the decoded instruction is the one the fetch unit assembles, and the tick executes it. -/
theorem stepRunsTheDecodedInstruction : Obligations.StepRunsTheDecodedInstruction := by
  intro s n i hp hc hn hi hdecode
  obtain ⟨hlen, hfetch⟩ := fetchInstr_of_decode hdecode
  obtain ⟨t, ht⟩ := exec_next i (State.fetchBytes n s.clearLog).2
  refine ⟨?_, hlen, State.fetchBytes_pc n s.clearLog, fetchBytes_unchanged n s, ⟨t, ht, ?_⟩,
    fetchBytes_plain n s.clearLog⟩
  · simpa [hfetch] using fetchInstr_wellFormed s.clearLog
  · rw [step_execute hp hc hn hi, hfetch, ht]
    rfl

/-! PC. -/

theorem State.runRead_pc {effect : Byte → State → State} (h : ∀ v t, (effect v t).pc = t.pc) (s : State)
    (m : Mnemonic) (o : Operand) : (s.runRead m o effect).pc = s.pc :=
  (h _ _).trans (by simp)

theorem State.runModify_pc (s : State) (m : Mnemonic) (o : Operand) (result status : Byte → State → Byte) :
    (s.runModify m o result status).pc = s.pc :=
  State.runRead_pc (fun v t => (t.setP (status v t)).writeBack_pc (result v t) o.mode) s m o

theorem State.runImplied_pc {effect : State → State} (h : ∀ t, (effect t).pc = t.pc) (s : State) (m : Mnemonic) :
    (s.runImplied m effect).pc = s.pc :=
  h (s.resolve .imp).2

/-- An instruction that transfers no control leaves PC past its bytes. (40_execution_cycle.md R133) -/
theorem exec_pc {i : Instr} (hi : transfersControl i.mnemonic = false) (s : State) :
    ∃ t, exec i s = .next t ∧ t.pc = s.pc := by
  cases i with
  | bcc | bcs | beq | bmi | bne | bpl | bvc | bvs | jmp | jsr | brk | rti | rts =>
    cases hi
  | adc | and | bit | cmp | cpx | cpy | eor | lda | ldx | ldy | ora | sbc =>
    exact ⟨_, rfl, State.runRead_pc (fun _ _ => by rfl) s _ _⟩
  | asl | dec | inc | lsr | rol | ror =>
    exact ⟨_, rfl, State.runModify_pc s _ _ _ _⟩
  | sta | stx | sty =>
    exact ⟨_, rfl, s.resolve_pc _⟩
  | clc | cld | cli | clv | dex | dey | inx | iny | nop | pha | php | pla | plp | sec | sed | sei | tax | tay | tsx
  | txa | txs | tya | ill =>
    exact ⟨_, rfl, State.runImplied_pc (fun _ => by rfl) s _⟩

/-- Settles O39: the fetch moves PC on by the length, and the instruction leaves it there. -/
theorem pcAdvancesByTheLength : Obligations.PcAdvancesByTheLength := by
  intro s hp hc hn hi hstays
  obtain ⟨t, ht, hpc⟩ := exec_pc hstays s.clearLog.fetchInstr.2
  refine ⟨t.countTick, by rw [step_execute hp hc hn hi, ht, counted], ?_⟩
  exact hpc.trans (fetchInstr_pc s.clearLog)

end Sys2Proof.Machine
end

section
/-! PROOFS of the family 40_execution_cycle, the cost. An instruction sets the countdown to the cost of its row of the
opcode map, which is that of the timing table; the ticks after its first only count. -/

namespace Sys2Proof.Machine

/-! The opcode map against the timing table (70_reset_and_hazards.md R392). -/

theorem cost_extra (m : Mnemonic) (q : Mode) (cross : Bool) (extra : Nat) :
    cost m q cross extra = cost m q cross 0 + extra := rfl

/-- In every mode a mnemonic has, its row costs what the timing table says of its class. -/
theorem classCost_eq_cost (m : Mnemonic) :
    ∀ q ∈ m.modes, ∀ cross, classCost cross (timingClass m) q = some (cost m q cross 0) := by
  cases m <;> decide

theorem rowEntry_mem_opcodeTable (m : Mnemonic) (q : Mode) : rowEntry m q ∈ opcodeTable := by
  unfold rowEntry
  split
  · exact entry_mem_opcodeTable _
  · decide

theorem opcodeTable_base_ge : ∀ e ∈ opcodeTable, 2 ≤ e.base := by
  simp only [opcodeTable, List.forall_mem_append]
  and_intros <;> decide

/-- No instruction costs less than 2 cycles. (40_execution_cycle.md R129) -/
theorem two_le_cost (m : Mnemonic) (q : Mode) (cross : Bool) (extra : Nat) : 2 ≤ cost m q cross extra := by
  have hbase := opcodeTable_base_ge _ (rowEntry_mem_opcodeTable m q)
  simp only [cost]
  omega

theorem branchExtra_le_two (i : Instr) (s : State) : branchExtra i s ≤ 2 := by
  unfold branchExtra
  split
  · split
    · split <;> decide
    · decide
  · decide

/-- With what a taken branch adds, no instruction costs more than 7 cycles. (R129) -/
theorem cost_branchExtra_le (i : Instr) (s : State) :
    cost i.mnemonic i.operand.mode (s.resolve i.operand).1 (branchExtra i s) ≤ 7 := by
  cases i with
  | bcc | bcs | beq | bmi | bne | bpl | bvc | bvs =>
    exact (Nat.add_le_add_left (branchExtra_le_two _ s) 2).trans (by decide)
  | _ => exact cost_le _ _ _

/-! What an instruction sets the countdown to. -/

/-- A branch on a flag costs 1 more taken, 2 more across a page. (45_control_transfer.md R270) -/
theorem State.runBranch_cycles {m : Mnemonic} {d : Byte} {taken : State → Bool} {s : State} {f : Flag} {v : Bool}
    (h : taken (s.setAddrRel (sext16 d)) = decide (s.flag f = v)) : (s.runBranch m d taken).cycles =
      cost m .rel false (if s.flag f = v then (if page (s.pc + sext16 d) = page s.pc then 1 else 2) else 0) := by
  simp only [State.runBranch, State.resolve, h, decide_eq_true_eq]
  split
  · simp [crosses]
  · simp

/-- The resolvers of JMP report no crossing. (41_addressing_modes.md R158, R161) -/
theorem resolve_jmp_cross {o : Operand} (h : o.mode ∈ Mnemonic.jmp.modes) (s : State) : (s.resolve o).1 = false := by
  cases o with
  | abx | aby | izy => simp [Mnemonic.modes, Operand.mode] at h
  | _ => rfl

/-- An instruction in a mode its mnemonic has sets the countdown to the cost of its row. (40_execution_cycle.md R121,
R128) -/
theorem exec_cycles {i : Instr} (hi : i.operand.mode ∈ i.mnemonic.modes) (s : State) : ∃ t, exec i s = .next t ∧
    t.cycles = cost i.mnemonic i.operand.mode (s.resolve i.operand).1 (branchExtra i s) := by
  cases i with
  | bcc | bcs | beq | bmi | bne | bpl | bvc | bvs =>
    exact ⟨_, rfl, State.runBranch_cycles (by simp)⟩
  | jmp o =>
    exact ⟨_, rfl, congrArg (cost .jmp o.mode · 0) (resolve_jmp_cross hi s).symm⟩
  | _ => exact ⟨_, rfl, rfl⟩

/-- Settles O40: the countdown is the cost of the instruction's row, which the timing table gives too. -/
theorem costFollowsTheTimingTable : Obligations.CostFollowsTheTimingTable := by
  intro i s hwf
  have hmode := Laws.EncodedLength.mode_of_wellFormed hwf
  obtain ⟨t, ht, hcycles⟩ := exec_cycles hmode s
  refine ⟨t, _, ht, classCost_eq_cost i.mnemonic _ hmode _, ?_, ?_, ?_⟩ <;> rw [hcycles]
  · exact cost_extra _ _ _ _
  · exact two_le_cost _ _ _ _
  · exact cost_branchExtra_le i s

/-! The ticks inside an instruction. -/

theorem core_run_succ {s t : State} (h : step s = .next t) (k : Nat) :
    Host.Core.run core (k + 1) s = Host.Core.run core k t := by
  simp only [Host.Core.run]
  rw [show core.step s = .next t from h]

/-- While the countdown runs, steps only count, and their record of bus calls is empty. (40_execution_cycle.md R120,
R132) -/
theorem core_run_wait {s : State} (hp : s.power = .running) {k : Nat} (hk : k ≤ s.cycles) :
    Host.Core.run core k s = .next
      { s with
        cycles := s.cycles - k
        totalCycles := s.totalCycles + BitVec.ofNat 64 k
        busLog := if k = 0 then s.busLog else [] } := by
  induction k generalizing s with
  | zero => simp [Host.Core.run]
  | succ k ih =>
    have hcycles : s.cycles - 1 - k = s.cycles - (k + 1) := by omega
    have hticks : s.totalCycles + 1#64 + BitVec.ofNat 64 k = s.totalCycles + BitVec.ofNat 64 (k + 1) := by bv_omega
    rw [core_run_succ (step_wait hp (by omega)), ih (by simpa using hp) (by simp; omega)]
    simp [hcycles, hticks]

/-- Settles O45: the first step executes the instruction and leaves its cost less 1, the others wait. -/
theorem instructionOccupiesItsCost : Obligations.InstructionOccupiesItsCost := by
  intro s hp hc hn hi
  obtain ⟨t, _, ht, -, -, hlo, hhi⟩ :=
    costFollowsTheTimingTable s.clearLog.fetchInstr.1 s.clearLog.fetchInstr.2 (fetchInstr_wellFormed s.clearLog)
  have hstep : step s = .next t.countTick := by rw [step_execute hp hc hn hi, ht, counted]
  obtain ⟨u, hu, hrunning, -⟩ := step_running hp
  cases hstep.symm.trans hu
  refine ⟨t.cycles, t.countTick, hlo, hhi, hstep, rfl, fun k hk => ?_⟩
  rw [core_run_succ hstep, core_run_wait hrunning (by simp; omega)]
  rfl

end Sys2Proof.Machine
end

section
/-! PROOFS of the family 40_execution_cycle, the bus calls. Each shape of instruction makes the reads of its resolver,
then the calls of its effect; the fetch makes one read for each byte of the instruction. -/

namespace Sys2Proof.Machine

/-- The bus calls recorded so far, each without its byte. -/
def State.accesses (s : State) : List (Bool × Addr) := s.busLog.map accessShape

@[simp] theorem State.afterRead_accesses (s : State) (a : Addr) :
    (s.afterRead a).accesses = s.accesses ++ [(false, a)] := by
  simp [State.accesses, accessShape]

@[simp] theorem State.write8_accesses (s : State) (a : Addr) (v : Byte) :
    (s.write8 a v).accesses = s.accesses ++ [(true, a)] := by
  simp [State.accesses, accessShape]

/-! The stack and the vectors. -/

@[simp] theorem State.push_accesses (s : State) (v : Byte) :
    (s.push v).accesses = s.accesses ++ [(true, stackAddr s.sp)] :=
  s.write8_accesses _ _

theorem State.pushWord_accesses (s : State) (v : Addr) :
    (s.pushWord v).accesses = s.accesses ++ [(true, stackAddr s.sp), (true, stackAddr (s.sp - 1#8))] := by
  simp [State.pushWord]

theorem State.pull_accesses (s : State) :
    s.pull.2.accesses = s.accesses ++ [(false, stackAddr (s.sp + 1#8))] :=
  s.pullSp.afterRead_accesses _

theorem State.pullStatus_accesses (s : State) :
    s.pullStatus.accesses = s.accesses ++ [(false, stackAddr (s.sp + 1#8))] :=
  s.pull_accesses

theorem State.pullWord_accesses (s : State) : s.pullWord.2.accesses =
    s.accesses ++ [(false, stackAddr (s.sp + 1#8)), (false, stackAddr (s.sp + 2#8))] := by
  have hsp : s.pull.2.sp + 1#8 = s.sp + 2#8 := BitVec.add_assoc s.sp 1#8 1#8
  have hhigh := s.pull.2.pull_accesses
  rw [hsp, s.pull_accesses, List.append_assoc] at hhigh
  exact hhigh

/-- The return from an interrupt pulls the status, then PC. (60_exceptions.md R351) -/
theorem State.interruptReturn_accesses (s : State) : s.interruptReturn.accesses = s.accesses ++
    [(false, stackAddr (s.sp + 1#8)), (false, stackAddr (s.sp + 2#8)), (false, stackAddr (s.sp + 3#8))] := by
  have hlow : s.pullStatus.sp + 1#8 = s.sp + 2#8 := BitVec.add_assoc s.sp 1#8 1#8
  have hhigh : s.pullStatus.sp + 2#8 = s.sp + 3#8 := BitVec.add_assoc s.sp 1#8 2#8
  have hword := s.pullStatus.pullWord_accesses
  rw [hlow, hhigh, s.pullStatus_accesses, List.append_assoc] at hword
  exact hword

/-- An interrupt entry pushes three bytes, then reads its vector. (60_exceptions.md R346) -/
theorem State.interruptEntry_accesses (s : State) (v : Addr) (brk : Bool) : (s.interruptEntry v brk).accesses =
    s.accesses ++ [(true, stackAddr s.sp), (true, stackAddr (s.sp - 1#8)), (true, stackAddr (s.sp - 2#8)),
      (false, v), (false, v + 1#16)] := by
  obtain ⟨-, -, -, -, -, -, -, -, hlog⟩ := s.interruptEntry_entersWith v brk
  rw [State.accesses, hlog, List.map_append]
  rfl

/-! The operand. -/

/-- A resolver reads its pointer's bytes. (41_addressing_modes.md R164) -/
theorem State.resolve_accesses (s : State) (o : Operand) :
    (s.resolve o).2.accesses = s.accesses ++ pointerReads s o := by
  cases o with
  | ind | izx | izy => simp [State.accesses, State.resolve, State.indexInto, pointerReads, accessShape]
  | _ => exact (List.append_nil _).symm

/-- `Fetch()` reads EA in a memory mode. (40_execution_cycle.md R126) -/
theorem State.fetchOperand_accesses (s : State) (m : Mode) :
    (s.fetchOperand m).2.accesses = s.accesses ++ if m.inMemory then [(false, s.addrAbs)] else [] := by
  by_cases h : m.inMemory = true
  · rw [State.fetchOperand_inMemory h, if_pos h]
    exact s.afterRead_accesses s.addrAbs
  · rw [State.fetchOperand_latch (by simpa using h), if_neg h, List.append_nil]

/-- The write-back writes EA unless in mode ACC. (44_shift_rotate.md R250) -/
theorem State.writeBack_accesses (s : State) (v : Byte) (m : Mode) :
    (s.writeBack v m).accesses = s.accesses ++ if m = .acc then [] else [(true, s.addrAbs)] := by
  by_cases h : m = .acc
  · rw [h, if_pos rfl, List.append_nil]
    rfl
  · rw [State.writeBack_notAcc h, if_neg h, State.write8_accesses]

/-! The shapes of instruction. -/

theorem State.runImplied_accesses {l : List (Bool × Addr)} {effect : State → State} {s : State}
    (h : (effect (s.setFetched s.a)).accesses = s.accesses ++ l) (m : Mnemonic) :
    (s.runImplied m effect).accesses = s.accesses ++ pointerReads s .imp ++ l := by
  rw [pointerReads, List.append_nil]
  exact h

theorem State.runRead_accesses {effect : Byte → State → State} {o : Operand} {s : State} {l : List (Bool × Addr)}
    (h : ∀ v t, t.addrAbs = effectiveAddress o s → (effect v t).accesses = t.accesses ++ l) (m : Mnemonic) :
    (s.runRead m o effect).accesses = s.accesses ++ pointerReads s o ++
      ((if o.mode.inMemory then [(false, effectiveAddress o s)] else []) ++ l) := by
  have he := h ((s.resolve o).2.fetchOperand o.mode).1 ((s.resolve o).2.fetchOperand o.mode).2
    (State.fetchOperand_addrAbs _ _)
  rw [State.fetchOperand_accesses, State.resolve_accesses, List.append_assoc] at he
  exact he

/-- A read-modify-write on memory reads EA once, then writes it once; one on A makes no call of its own.
(70_reset_and_hazards.md R389) -/
theorem State.runModify_accesses {o : Operand} (ho : o.mode = .acc ∨ o.mode.inMemory = true) (s : State)
    (m : Mnemonic) (result status : Byte → State → Byte) :
    (s.runModify m o result status).accesses = s.accesses ++ pointerReads s o ++
      if o.mode.inMemory then [(false, effectiveAddress o s), (true, effectiveAddress o s)] else [] := by
  have hrun := State.runRead_accesses (o := o) (s := s)
    (effect := fun v t => (t.setP (status v t)).writeBack (result v t) o.mode)
    (fun v t hea => hea ▸ State.writeBack_accesses (t.setP (status v t)) (result v t) o.mode) m
  refine hrun.trans (congrArg _ ?_)
  rcases ho with hacc | hmem
  · rw [hacc]
    rfl
  · have hacc : o.mode ≠ .acc := fun e => by simp [e, Mode.inMemory] at hmem
    rw [if_pos hmem, if_pos hmem, if_neg hacc]
    rfl

theorem State.runStore_accesses (s : State) (m : Mnemonic) (o : Operand) (register : State → Byte) :
    (s.runStore m o register).accesses = s.accesses ++ pointerReads s o ++ [(true, effectiveAddress o s)] := by
  rw [← State.resolve_accesses]
  exact State.write8_accesses _ _ _

theorem State.runBranch_accesses (s : State) (m : Mnemonic) (d : Byte) (taken : State → Bool) :
    (s.runBranch m d taken).accesses = s.accesses ++ pointerReads s (.rel d) := by
  rw [← State.resolve_accesses]
  simp only [State.runBranch]
  split <;> rfl

/-- A read-modify-write works on A or on a byte of memory. -/
theorem modify_mode_inMemory : ∀ m, timingClass m = .modify → ∀ q ∈ m.modes, q = .acc ∨ q.inMemory = true := by
  intro m
  cases m <;> decide

/-- An instruction in a mode its mnemonic has makes the reads of its resolver, then its own calls, and no others.
(40_execution_cycle.md R127) -/
theorem exec_accesses {i : Instr} (hi : i.operand.mode ∈ i.mnemonic.modes) (s : State) : ∃ t, exec i s = .next t ∧
    t.accesses = s.accesses ++ pointerReads s i.operand ++ ownAccesses i s := by
  cases i with
  | adc | and | bit | cmp | cpx | cpy | eor | lda | ldx | ldy | ora | sbc =>
    refine ⟨_, rfl, (State.runRead_accesses (l := []) (fun _ _ _ => ?_) _).trans ?_⟩
    · exact (List.append_nil _).symm
    · rw [List.append_nil]
      rfl
  | asl | dec | inc | lsr | rol | ror =>
    exact ⟨_, rfl, State.runModify_accesses (modify_mode_inMemory _ rfl _ hi) s _ _ _⟩
  | sta | stx | sty =>
    exact ⟨_, rfl, State.runStore_accesses s _ _ _⟩
  | bcc | bcs | beq | bmi | bne | bpl | bvc | bvs =>
    exact ⟨_, rfl, (State.runBranch_accesses s _ _ _).trans (List.append_nil _).symm⟩
  | jmp o =>
    exact ⟨_, rfl, (s.resolve_accesses o).trans (List.append_nil _).symm⟩
  | jsr a =>
    have hpush := (s.setAddrAbs a).pushWord_accesses (s.pc - 1#16)
    have hresolve : (s.setAddrAbs a).accesses = s.accesses ++ pointerReads s (.abs a) := s.resolve_accesses (.abs a)
    rw [hresolve] at hpush
    exact ⟨_, rfl, hpush⟩
  | pha | php =>
    refine ⟨_, rfl, State.runImplied_accesses ?_ _⟩
    exact State.push_accesses _ _
  | pla | plp =>
    refine ⟨_, rfl, State.runImplied_accesses ?_ _⟩
    exact State.pull_accesses (s.setFetched s.a)
  | rts =>
    refine ⟨_, rfl, State.runImplied_accesses ?_ _⟩
    exact State.pullWord_accesses (s.setFetched s.a)
  | rti =>
    refine ⟨_, rfl, State.runImplied_accesses ?_ _⟩
    exact State.interruptReturn_accesses (s.setFetched s.a)
  | brk =>
    refine ⟨_, exec_brk s, State.runImplied_accesses ?_ _⟩
    exact State.interruptEntry_accesses ((s.setFetched s.a).setPc (s.pc + 1#16)) irqVector true
  | clc | cld | cli | clv | dex | dey | inx | iny | nop | sec | sed | sei | tax | tay | tsx | txa | txs | tya | ill =>
    refine ⟨_, rfl, State.runImplied_accesses ?_ _⟩
    exact (List.append_nil _).symm

/-- The fetch makes one read for each byte, from PC on. (R127) -/
theorem fetchBytes_accesses (n : Nat) (s : State) :
    (State.fetchBytes n s).2.accesses = s.accesses ++ fetchReads s.pc n := by
  induction n generalizing s with
  | zero => exact (List.append_nil _).symm
  | succ n ih =>
    have hrest := ih s.fetchByte.2
    have hfirst : s.fetchByte.2.accesses = s.accesses ++ [(false, s.pc)] := s.afterRead_accesses s.pc
    rw [fetchReads, map_range_succ_offsets (fun a => (false, a)), List.append_cons, ← hfirst]
    exact hrest

/-- Where a resolver reads its pointer depends on X alone. (41_addressing_modes.md R161 to R163) -/
theorem pointerReads_congr {s t : State} (hx : t.x = s.x) (o : Operand) : pointerReads t o = pointerReads s o := by
  cases o <;> simp [pointerReads, hx]

/-- Settles O9: the reads of the fetch, then those of the resolver and the instruction's own calls. -/
theorem busAccessesInOrder : Obligations.BusAccessesInOrder := by
  intro s hp hc hn hi
  obtain ⟨t, ht, haccesses⟩ := exec_accesses (fetchInstr_mode_mem s.clearLog) s.clearLog.fetchInstr.2
  refine ⟨t.countTick, by rw [step_execute hp hc hn hi, ht, counted], haccesses.trans ?_⟩
  have hx : s.clearLog.fetchInstr.2.x = s.x := s.clearLog.fetchInstr_x
  have hfetch : s.clearLog.fetchInstr.2.accesses = fetchReads s.pc s.clearLog.fetchInstr.1.length := by
    rw [fetchInstr_snd, fetchBytes_accesses]
    rfl
  rw [hfetch, pointerReads_congr hx]

end Sys2Proof.Machine
end

section
/-! PROOFS of the family 41_addressing_modes. The address arithmetic of the resolvers in numbers: the wrap within page
0, the page of a sum, the pointer page of an indirect JMP; then what each group of resolvers leaves in `addr_abs` and
reports, and which pointer bytes it reads. -/

namespace Sys2Proof.Machine

/-! Bytes and words as numbers (00_scope.md R8, R13). -/

theorem page_toNat (a : Addr) : (page a).toNat = a.toNat / 256 := by
  simp only [page, BitVec.extractLsb'_toNat, Nat.shiftRight_eq_div_pow]
  omega

theorem lowByte_toNat (a : Addr) : (lowByte a).toNat = a.toNat % 256 :=
  BitVec.extractLsb'_toNat 0 8 a

theorem word_toNat (hi lo : Byte) : (word hi lo).toNat = hi.toNat * 256 + lo.toNat := by
  rw [word, BitVec.toNat_append, ← Nat.shiftLeft_add_eq_or_of_lt lo.isLt, Nat.shiftLeft_eq]

theorem word_and_word (h l h' l' : Byte) : word h l &&& word h' l' = word (h &&& h') (l &&& l') :=
  BitVec.and_append

theorem word_or_word (h l h' l' : Byte) : word h l ||| word h' l' = word (h ||| h') (l ||| l') :=
  BitVec.or_append

theorem zext16_toNat (b : Byte) : (zext16 b).toNat = b.toNat :=
  BitVec.toNat_setWidth_of_le (by decide)

theorem zext16_eq_ofNat (b : Byte) : zext16 b = BitVec.ofNat 16 b.toNat :=
  (BitVec.ofNat_toNat 16 b).symm

theorem add_zext16_toNat (base : Addr) (index : Byte) :
    (base + zext16 index).toNat = (base.toNat + index.toNat) % 65536 := by
  rw [BitVec.toNat_add, zext16_toNat]

/-! The wrap within page 0 (41_addressing_modes.md R154 to R156, R162, R163). -/

/-- The mask of page 0 keeps an address modulo 256. -/
theorem and_pageZero_toNat (a : Addr) : (a &&& 0x00FF#16).toNat = a.toNat % 256 :=
  (BitVec.toNat_and a 0x00FF#16).trans (Nat.and_two_pow_sub_one_eq_mod a.toNat 8)

theorem and_pageZero_eq_ofNat (a : Addr) : a &&& 0x00FF#16 = BitVec.ofNat 16 (a.toNat % 256) := by
  rw [← and_pageZero_toNat, BitVec.ofNat_toNat, BitVec.setWidth_eq]

theorem zpIndexed_toNat (zp index : Byte) : (zpIndexed zp index).toNat = (zp.toNat + index.toNat) % 256 := by
  rw [zpIndexed, and_pageZero_toNat, add_zext16_toNat, zext16_toNat]
  omega

/-- The low byte's address of an IZX pointer. -/
theorem zpIndexed_eq_ofNat (zp index : Byte) :
    zpIndexed zp index = BitVec.ofNat 16 ((zp.toNat + index.toNat) % 256) := by
  rw [← zpIndexed_toNat, BitVec.ofNat_toNat, BitVec.setWidth_eq]

/-- The high byte's address of an IZX pointer. -/
theorem zpIndexed_next_eq_ofNat (zp index : Byte) :
    (zext16 zp + zext16 index + 1#16) &&& 0x00FF#16 = BitVec.ofNat 16 ((zp.toNat + index.toNat + 1) % 256) := by
  have hsum : (zext16 zp + zext16 index + 1#16).toNat = zp.toNat + index.toNat + 1 := by
    rw [BitVec.toNat_add, add_zext16_toNat, zext16_toNat]
    simp only [BitVec.toNat_ofNat]
    omega
  rw [and_pageZero_eq_ofNat, hsum]

/-- The high byte's address of an IZY pointer. -/
theorem zext16_next_eq_ofNat (zp : Byte) :
    (zext16 zp + 1#16) &&& 0x00FF#16 = BitVec.ofNat 16 ((zp.toNat + 1) % 256) := by
  have hsum : (zext16 zp + 1#16).toNat = zp.toNat + 1 := by
    rw [BitVec.toNat_add, zext16_toNat]
    simp only [BitVec.toNat_ofNat]
    omega
  rw [and_pageZero_eq_ofNat, hsum]

/-! The pointer of an indirect JMP (41_addressing_modes.md R161). -/

/-- The high byte is read in the page of the pointer, whatever carry the next address has. -/
theorem indirectHigh_eq_word (p : Addr) : indirectHigh p = word (page p) (lowByte (p + 1#16)) := by
  have hkeep (b : Byte) : b &&& 0xFF#8 = b := BitVec.and_allOnes
  calc indirectHigh p
    _ = (word (page p) (lowByte p) &&& word 0xFF#8 0x00#8) |||
        (word (page (p + 1#16)) (lowByte (p + 1#16)) &&& word 0x00#8 0xFF#8) := by
      rw [word_page_lowByte, word_page_lowByte]
      rfl
    _ = word (page p &&& 0xFF#8 ||| page (p + 1#16) &&& 0x00#8)
        (lowByte p &&& 0x00#8 ||| lowByte (p + 1#16) &&& 0xFF#8) := by
      rw [word_and_word, word_and_word, word_or_word]
    _ = word (page p) (lowByte (p + 1#16)) := by
      rw [BitVec.and_zero, BitVec.and_zero, BitVec.or_zero, BitVec.zero_or, hkeep, hkeep]

theorem indirectHigh_eq_ofNat (p : Addr) :
    indirectHigh p = BitVec.ofNat 16 (if p.toNat % 256 = 255 then p.toNat - 255 else p.toNat + 1) := by
  have hnext : (p + 1#16).toNat = (p.toNat + 1) % 65536 := BitVec.toNat_add p 1#16
  apply BitVec.eq_of_toNat_eq
  rw [indirectHigh_eq_word, word_toNat, page_toNat, lowByte_toNat, hnext, BitVec.toNat_ofNat]
  split <;> omega

/-! The resolvers. -/

theorem crosses_iff (base target : Addr) : crosses base target = true ↔ target.toNat / 256 ≠ base.toNat / 256 := by
  rw [crosses, bne_iff_ne, ne_eq, BitVec.toNat_eq, page_toNat, page_toNat]

/-- A resolver that reads no pointer writes only latches. (41_addressing_modes.md R151 to R160) -/
theorem resolve_latchesOnly {s : State} {o : Operand} (h : pointerReads s o = []) :
    AgreeButLatches s (s.resolve o).2 := by
  cases o with
  | ind | izx | izy => cases h
  | _ => rfl

/-- Settles O10: EA is a sum masked to page 0, and no zero-page resolver reads a pointer or reports a crossing. -/
theorem zeroPageModesStayInPageZero : Obligations.ZeroPageModesStayInPageZero := by
  intro zp s
  refine ⟨?_, zpIndexed_toNat zp s.x, zpIndexed_toNat zp s.y, ?_⟩
  · calc (zext16 zp &&& 0x00FF#16).toNat
      _ = zp.toNat % 256 := by rw [and_pageZero_toNat, zext16_toNat]
      _ = zp.toNat := Nat.mod_eq_of_lt zp.isLt
  · simp only [List.forall_mem_cons]
    exact ⟨⟨rfl, resolve_latchesOnly rfl⟩, ⟨rfl, resolve_latchesOnly rfl⟩, ⟨rfl, resolve_latchesOnly rfl⟩, nofun⟩

/-- Settles O11: EA is the base plus the index, and the report compares the pages of the two. -/
theorem absoluteModesIndexModulo64K : Obligations.AbsoluteModesIndexModulo64K := by
  intro base s
  refine ⟨rfl, rfl, add_zext16_toNat base s.x, crosses_iff base _, add_zext16_toNat base s.y, crosses_iff base _, ?_⟩
  simp only [List.forall_mem_cons]
  exact ⟨resolve_latchesOnly rfl, resolve_latchesOnly rfl, resolve_latchesOnly rfl, nofun⟩

/-- The two reads of a word are recorded in their order. (92_eei_decisions.md D21) -/
theorem State.readWord_busLog (s : State) (lo hi : Addr) : (s.readWord lo hi).2.busLog =
    s.busLog ++ [.read lo (s.peek lo), .read hi ((s.afterRead lo).peek hi)] := by
  simp

/-- Settles O12: with the pointer's two addresses in numbers, EA is the word read there, and the log its two reads;
IZY then indexes that word as ABY does. -/
theorem pointerModesReadTheirPointer : Obligations.PointerModesReadTheirPointer := by
  refine ⟨fun p s => ?_, fun zp s => ?_, fun zp s => ?_⟩
  · rw [← indirectHigh_eq_ofNat]
    exact ⟨rfl, rfl, s.readWord_busLog _ _⟩
  · rw [← zpIndexed_eq_ofNat, ← zpIndexed_next_eq_ofNat]
    exact ⟨rfl, rfl, s.readWord_busLog _ _⟩
  · rw [← zext16_eq_ofNat, ← zext16_next_eq_ofNat]
    exact ⟨add_zext16_toNat _ _, crosses_iff _ _, s.readWord_busLog _ _⟩

end Sys2Proof.Machine
end

section
/-! PROOFS shared by the instruction families: the rows of a mnemonic, read off the opcode map once; and the frame of
each shape of instruction, which is that of its effect with what the shape itself changes. -/

namespace Sys2Proof.Machine

/-! The rows of a mnemonic. -/

/-- The opcode map with its numbering is the lookup of every byte in order. (30_encoding.md R95) -/
theorem opcodeTable_zipIdx :
    opcodeTable.zipIdx = (List.range 256).map fun n => (entry (BitVec.ofNat 8 n), n) := by
  refine List.ext_getElem (by simp [opcodeTable_length]) fun n hn _ => ?_
  have hlt : n < 256 := by simpa [opcodeTable_length] using hn
  have hentry : opcodeTable[n]? = some (entry (BitVec.ofNat 8 n)) := by
    simpa [Nat.mod_eq_of_lt hlt] using opcodeTable_getElem?_toNat (BitVec.ofNat 8 n)
  simpa using (List.getElem?_eq_some_iff.mp hentry).2

/-- The rows of a mnemonic by one pass over the opcode map, with no lookup by byte: for a mnemonic given, `rfl`
then lists them. -/
theorem tableRows_eq (m : Mnemonic) : tableRows m =
    (opcodeTable.zipIdx.filter fun row => row.1.mnemonic == m).map fun row =>
      (row.1.mode, row.2, row.1.base, row.1.penalty) := by
  rw [opcodeTable_zipIdx, List.filter_map, List.map_map]
  rfl

/-! Frames. -/

theorem unchangedBut_iff (l : List Part) (s t : State) : UnchangedBut l s t ↔
    (Part.a ∉ l → t.a = s.a) ∧ (Part.x ∉ l → t.x = s.x) ∧ (Part.y ∉ l → t.y = s.y) ∧ (Part.sp ∉ l → t.sp = s.sp) ∧
      (Part.p ∉ l → t.p = s.p) ∧ (Part.pc ∉ l → t.pc = s.pc) ∧ (Part.cycles ∉ l → t.cycles = s.cycles) ∧
      (Part.totalCycles ∉ l → t.totalCycles = s.totalCycles) ∧ (Part.nmiPending ∉ l → t.nmiPending = s.nmiPending) ∧
      (Part.irqPending ∉ l → t.irqPending = s.irqPending) ∧ (Part.power ∉ l → t.power = s.power) ∧
      (Part.mem ∉ l → ∀ b : Addr, Memory.read t.mem b.toNat = Memory.read s.mem b.toNat) ∧
      (Part.regions ∉ l → t.regions = s.regions) ∧ (Part.deviceState ∉ l → t.deviceState = s.deviceState) ∧
      (Part.busLog ∉ l → t.busLog = s.busLog) := by
  constructor
  · intro h
    exact ⟨h .a, h .x, h .y, h .sp, h .p, h .pc, h .cycles, h .totalCycles, h .nmiPending, h .irqPending, h .power,
      h .mem, h .regions, h .deviceState, h .busLog⟩
  · intro h q
    cases q <;> simp_all [Part.Same]

theorem UnchangedBut.mono {l l' : List Part} {s t : State} (h : UnchangedBut l s t) (hl : l ⊆ l') :
    UnchangedBut l' s t := fun q hq => h q (mt (@hl q) hq)

theorem UnchangedBut.trans {l l' : List Part} {s t u : State} (h : UnchangedBut l s t) (h' : UnchangedBut l' t u) :
    UnchangedBut (l ++ l') s u := by
  intro q hq
  obtain ⟨hl, hl'⟩ := not_or.mp (mt List.mem_append.mpr hq)
  have hst := h q hl
  have htu := h' q hl'
  cases q with
  | mem => exact fun b => (htu b).trans (hst b)
  | _ => exact Eq.trans htu hst

theorem State.setA_unchanged (s : State) (v : Byte) : UnchangedBut [.a] s (s.setA v) := by simp [unchangedBut_iff]

theorem State.setX_unchanged (s : State) (v : Byte) : UnchangedBut [.x] s (s.setX v) := by simp [unchangedBut_iff]

theorem State.setY_unchanged (s : State) (v : Byte) : UnchangedBut [.y] s (s.setY v) := by simp [unchangedBut_iff]

theorem State.setSp_unchanged (s : State) (v : Byte) : UnchangedBut [.sp] s (s.setSp v) := by simp [unchangedBut_iff]

theorem State.setP_unchanged (s : State) (v : Byte) : UnchangedBut [.p] s (s.setP v) := by simp [unchangedBut_iff]

theorem State.setZN_unchanged (s : State) (v : Byte) : UnchangedBut [.p] s (s.setZN v) := s.setP_unchanged _

theorem State.write8_unchanged (s : State) (a : Addr) (v : Byte) :
    UnchangedBut [.mem, .deviceState, .busLog] s (s.write8 a v) := by simp [unchangedBut_iff]

theorem State.charge_unchanged (s : State) (m : Mnemonic) (q : Mode) (cross : Bool) (extra : Nat) :
    UnchangedBut [.cycles] s (s.charge m q cross extra) := by simp [unchangedBut_iff]

/-- A resolver changes latches, and with its pointer reads the bus's own fields. (41_addressing_modes.md R164) -/
theorem State.resolve_unchanged (s : State) (o : Operand) :
    UnchangedBut [.deviceState, .busLog] s (s.resolve o).2 := by simp [unchangedBut_iff]

/-- `Fetch()` changes its latch, and with its read the bus's own fields. (40_execution_cycle.md R126) -/
theorem State.fetchOperand_unchanged (s : State) (m : Mode) :
    UnchangedBut [.deviceState, .busLog] s (s.fetchOperand m).2 := by simp [unchangedBut_iff]

/-- An instruction without operand bytes changes what its effect changes, and the countdown. -/
theorem State.runImplied_unchanged {l : List Part} {effect : State → State}
    (h : ∀ t, UnchangedBut l t (effect t)) (s : State) (m : Mnemonic) :
    UnchangedBut (l ++ [.cycles]) s (s.runImplied m effect) := by
  have hlatch : UnchangedBut [] s (s.resolve .imp).2 := by simp [unchangedBut_iff, State.resolve]
  exact (hlatch.trans (h _)).trans (State.charge_unchanged _ m .imp false 0)

/-- An instruction that reads M changes what its effect changes, the countdown and the bus's own fields. -/
theorem State.runRead_unchanged {l : List Part} {effect : Byte → State → State}
    (h : ∀ v t, UnchangedBut l t (effect v t)) (s : State) (m : Mnemonic) (o : Operand) :
    UnchangedBut (l ++ [.cycles, .deviceState, .busLog]) s (s.runRead m o effect) := by
  have hread := (s.resolve_unchanged o).trans ((s.resolve o).2.fetchOperand_unchanged o.mode)
  refine ((hread.trans (h _ _)).trans (State.charge_unchanged _ m o.mode _ 0)).mono ?_
  simp

/-- A store changes memory, the countdown and the bus's own fields. -/
theorem State.runStore_unchanged (s : State) (m : Mnemonic) (o : Operand) (register : State → Byte) :
    UnchangedBut [.mem, .cycles, .deviceState, .busLog] s (s.runStore m o register) := by
  refine (((s.resolve_unchanged o).trans (State.write8_unchanged _ _ _)).trans
    (State.charge_unchanged _ m o.mode _ 0)).mono ?_
  simp

end Sys2Proof.Machine
end

section
/-! PROOFS of the family 42_load_store_transfer. A load and a transfer set one register and then Z and N of it; a store
is one bus write at EA. -/

namespace Sys2Proof.Machine

/-! A register set, then `SetZN` of its new value (42_load_store_transfer.md R180). -/

/-- Z and N are the only flags `SetZN` writes. -/
theorem znOf_flags (v p : Byte) : FlagsUnchangedBut [.z, .n] p (znOf v p) := by
  intro f hf
  simp_all

section
variable {part : Part} {assign : State → Byte → State} (hassign : ∀ t v, UnchangedBut [part] t (assign t v))
include hassign

theorem assign_setZN_unchanged (t : State) (v : Byte) : UnchangedBut [part, .p] t ((assign t v).setZN v) :=
  (hassign t v).trans ((assign t v).setZN_unchanged v)

theorem assign_setZN_flags (hpart : part ≠ .p) (t : State) (v : Byte) :
    FlagsUnchangedBut [.z, .n] t.p ((assign t v).setZN v).p := by
  have hp : (assign t v).p = t.p := hassign t v .p (by simpa using hpart.symm)
  rw [State.setZN_p, hp]
  exact znOf_flags v t.p

/-- A load of M into a register: Z and N are those of M, no other flag and nothing else changes. -/
theorem State.runRead_load (hpart : part ≠ .p) (s : State) (m : Mnemonic) (o : Operand) :
    ZNOf (operandValue o s) (s.runRead m o fun v t => (assign t v).setZN v).p ∧
    FlagsUnchangedBut [.z, .n] s.p (s.runRead m o fun v t => (assign t v).setZN v).p ∧
    UnchangedBut [part, .p, .cycles, .deviceState, .busLog] s (s.runRead m o fun v t => (assign t v).setZN v) :=
  ⟨znOf_ZNOf _ _, State.runRead_flags (fun v t => assign_setZN_flags hassign hpart t v) s m o,
    State.runRead_unchanged (fun v t => assign_setZN_unchanged hassign t v) s m o⟩

/-- A transfer of a register, which the IMP resolver leaves, into another: Z and N are those of the value copied, no
other flag and nothing else changes. -/
theorem State.runImplied_transfer (hpart : part ≠ .p) {source : State → Byte} {s : State}
    (hsource : source (s.resolve .imp).2 = source s) (m : Mnemonic) :
    ZNOf (source s) (s.runImplied m fun t => (assign t (source t)).setZN (source t)).p ∧
    FlagsUnchangedBut [.z, .n] s.p (s.runImplied m fun t => (assign t (source t)).setZN (source t)).p ∧
    UnchangedBut [part, .p, .cycles] s (s.runImplied m fun t => (assign t (source t)).setZN (source t)) := by
  refine ⟨?_, State.runImplied_flags (fun t => assign_setZN_flags hassign hpart t _) s m,
    State.runImplied_unchanged (fun t => assign_setZN_unchanged hassign t _) s m⟩
  rw [← hsource]
  exact znOf_ZNOf _ _

end

/-- Settles O14: the rows by one pass over the opcode map, and each load sets its register, then Z and N. -/
theorem loadsWriteTheirRegister : Obligations.LoadsWriteTheirRegister := by
  refine ⟨(tableRows_eq _).trans rfl, (tableRows_eq _).trans rfl, (tableRows_eq _).trans rfl,
    fun o s => ⟨?_, ?_, ?_⟩⟩
  · exact ⟨_, exec_lda o s, rfl, State.runRead_load State.setA_unchanged (by decide) s .lda o⟩
  · exact ⟨_, exec_ldx o s, rfl, State.runRead_load State.setX_unchanged (by decide) s .ldx o⟩
  · exact ⟨_, exec_ldy o s, rfl, State.runRead_load State.setY_unchanged (by decide) s .ldy o⟩

/-! Stores. -/

/-- A store of a register, which the resolver leaves, is one bus write at EA: its byte lands there, no other byte and
nothing else changes. -/
theorem State.runStore_store {register : State → Byte} {s : State} {o : Operand}
    (hregister : register (s.resolve o).2 = register s) (m : Mnemonic) :
    StoresByte s (s.runStore m o register) (effectiveAddress o s) (register s) ∧
    BytesUnchangedBut [effectiveAddress o s] s (s.runStore m o register) ∧
    (s.runStore m o register).busLog =
      (s.resolve o).2.busLog ++ [.write (effectiveAddress o s) (register s)] ∧
    UnchangedBut [.mem, .cycles, .deviceState, .busLog] s (s.runStore m o register) := by
  rw [← hregister]
  exact ⟨s.runStore_storesByte m o register, s.runStore_bytes m o register, rfl, s.runStore_unchanged m o register⟩

/-- Settles O15: the rows by one pass over the opcode map, and each store is one write of a register that the
resolver leaves. -/
theorem storesWriteOneByte : Obligations.StoresWriteOneByte := by
  refine ⟨(tableRows_eq _).trans rfl, (tableRows_eq _).trans rfl, (tableRows_eq _).trans rfl,
    fun o s => ⟨?_, ?_, ?_⟩⟩
  · exact ⟨_, exec_sta o s, State.runStore_store (register := State.a) (s.resolve_a o) .sta⟩
  · exact ⟨_, exec_stx o s, State.runStore_store (register := State.x) (s.resolve_x o) .stx⟩
  · exact ⟨_, exec_sty o s, State.runStore_store (register := State.y) (s.resolve_y o) .sty⟩

/-! Transfers. -/

/-- Settles O16: the rows by one pass over the opcode map; TXS sets SP alone, each other transfer its register, then
Z and N. -/
theorem transfersCopyARegister : Obligations.TransfersCopyARegister := by
  refine ⟨(tableRows_eq _).trans rfl, (tableRows_eq _).trans rfl, (tableRows_eq _).trans rfl,
    (tableRows_eq _).trans rfl, (tableRows_eq _).trans rfl, (tableRows_eq _).trans rfl,
    fun s => ⟨?_, ?_, ?_, ?_, ?_, ?_⟩⟩
  · exact ⟨_, exec_tax s, rfl, State.runImplied_transfer State.setX_unchanged (by decide) (s.resolve_a .imp) .tax⟩
  · exact ⟨_, exec_tay s, rfl, State.runImplied_transfer State.setY_unchanged (by decide) (s.resolve_a .imp) .tay⟩
  · exact ⟨_, exec_txa s, rfl, State.runImplied_transfer State.setA_unchanged (by decide) (s.resolve_x .imp) .txa⟩
  · exact ⟨_, exec_tya s, rfl, State.runImplied_transfer State.setA_unchanged (by decide) (s.resolve_y .imp) .tya⟩
  · exact ⟨_, exec_tsx s, rfl, State.runImplied_transfer State.setX_unchanged (by decide) (s.resolve_sp .imp) .tsx⟩
  · exact ⟨_, exec_txs s, rfl, State.runImplied_unchanged (fun t => t.setSp_unchanged t.x) s .txs⟩

end Sys2Proof.Machine
end

section
/-! PROOFS of the family 43_arithmetic_logic. The sum of ADC in numbers, and SBC as ADC of M inverted; an instruction
that reads M changes what its effect of M changes, and each effect of this family writes A, the status, or both. -/

namespace Sys2Proof.Machine

/-! The sum of ADC in numbers (43_arithmetic_logic.md R211). -/

theorem getLsbD_seven_eq_decide (v : Byte) : v.getLsbD 7 = decide (128 ≤ v.toNat) := BitVec.msb_eq_decide v

/-- The test with the mask 0x80 of the overflow rule reads bit 7. (90_conflicts.md C1) -/
theorem and_signBit_ne_zero (v : Byte) : decide (v &&& 0x80#8 ≠ 0x00#8) = v.getLsbD 7 := by
  revert v
  decide

theorem carryIn_not (c : Bool) : carryIn (!c) = if c then 0 else 1 := by cases c <;> rfl

theorem intCast_carryIn (c : Bool) : (carryIn c : Int) = if c then 1 else 0 := by cases c <;> rfl

theorem adcResult_toNat (a m : Byte) (c : Bool) : (adcResult a m c).toNat = adcSum a m c % 256 :=
  BitVec.toNat_ofNat _ _

theorem adcResult_eq_add (a m : Byte) (c : Bool) : adcResult a m c = a + m + BitVec.ofNat 8 (carryIn c) := by
  simp [adcResult, adcSum, BitVec.ofNat_add]

/-- V of ADC: A and M have the same bit 7 and the result another. -/
theorem adcOverflow_eq_bits (a m : Byte) (c : Bool) : adcOverflow a m c =
    ((a.getLsbD 7 == m.getLsbD 7) && ((adcResult a m c).getLsbD 7 != a.getLsbD 7)) := by
  rw [adcOverflow, and_signBit_ne_zero, BitVec.getLsbD_and, BitVec.getLsbD_not, BitVec.getLsbD_xor,
    BitVec.getLsbD_xor]
  cases a.getLsbD 7 <;> cases m.getLsbD 7 <;> simp

/-- V of ADC: the signed sum does not fit a byte. -/
theorem adcOverflow_iff (a m : Byte) (c : Bool) : adcOverflow a m c = true ↔
    (adcResult a m c).toInt ≠ a.toInt + m.toInt + carryIn c := by
  have hc : carryIn c ≤ 1 := by cases c <;> decide
  simp only [adcOverflow_eq_bits, getLsbD_seven_eq_decide, BitVec.toInt_eq_toNat_cond, adcResult_toNat, adcSum,
    Bool.and_eq_true, beq_iff_eq, bne_iff_ne, decide_eq_decide, ne_eq]
  omega

/-! ADC of M inverted subtracts M and the borrow, `1 - C` (43_arithmetic_logic.md R212). -/

/-- The operand SBC adds is M with every bit inverted. -/
theorem sbcOperand_eq_not (m : Byte) : sbcOperand m = ~~~m := BitVec.xor_allOnes

theorem sbcOperand_toNat (m : Byte) : (sbcOperand m).toNat = 255 - m.toNat := by
  rw [sbcOperand_eq_not, BitVec.toNat_not]

theorem sbcOperand_toInt (m : Byte) : (sbcOperand m).toInt = -m.toInt - 1 := by
  simp only [BitVec.toInt_eq_toNat_cond, sbcOperand_toNat]
  omega

theorem adcResult_sbcOperand (a m : Byte) (c : Bool) :
    adcResult a (sbcOperand m) c = a - m - BitVec.ofNat 8 (carryIn (!c)) := by
  rw [adcResult_eq_add, sbcOperand_eq_not]
  have hborrow : BitVec.ofNat 8 (carryIn c) = 1#8 - BitVec.ofNat 8 (carryIn (!c)) := by cases c <;> rfl
  bv_omega

/-- C of SBC: no borrow. -/
theorem adcCarry_sbcOperand (a m : Byte) (c : Bool) :
    adcCarry a (sbcOperand m) c = decide (m.toNat + carryIn (!c) ≤ a.toNat) := by
  rw [adcCarry, adcSum, sbcOperand_toNat, decide_eq_decide]
  have hborrow : carryIn c + carryIn (!c) = 1 := by cases c <;> rfl
  omega

/-- V of SBC: the signed difference does not fit a byte. -/
theorem adcOverflow_sbcOperand_iff (a m : Byte) (c : Bool) : adcOverflow a (sbcOperand m) c = true ↔
    (adcResult a (sbcOperand m) c).toInt ≠ a.toInt - m.toInt - carryIn (!c) := by
  have hborrow : (carryIn c : Int) - 1 = -carryIn (!c) := by cases c <;> rfl
  rw [adcOverflow_iff, sbcOperand_toInt]
  omega

/-- The subtraction of what ADC added gives A back. (43_arithmetic_logic.md R226, 90_conflicts.md C12) -/
theorem adcResult_sbcOperand_adcResult (a m : Byte) (c : Bool) :
    adcResult (adcResult a m c) (sbcOperand m) (!c) = a := by
  rw [adcResult_sbcOperand, adcResult_eq_add, Bool.not_not]
  bv_omega

/-! ADC and SBC. -/

theorem State.addToA_unchanged (s : State) (m : Byte) : UnchangedBut [.a, .p] s (s.addToA m) := by
  simp [unchangedBut_iff, State.addToA]

theorem adcStatus_flags (a m p : Byte) : FlagsUnchangedBut [.c, .z, .v, .n] p (adcStatus a m p) := by
  intro f hf
  simp_all

section
variable (s : State) (m : Mnemonic) (o : Operand) (addend : Byte → Byte)

/-- An instruction that adds a byte made of M to A leaves the sum's result in A. -/
theorem State.runRead_addToA_a : (s.runRead m o fun v t => t.addToA (addend v)).a =
    adcResult s.a (addend (operandValue o s)) (s.flag .c) := by
  simp [State.runRead, State.addToA, operandValue]

/-- An instruction that adds a byte made of M to A leaves the sum's status in P. -/
theorem State.runRead_addToA_p : (s.runRead m o fun v t => t.addToA (addend v)).p =
    adcStatus s.a (addend (operandValue o s)) s.p := by
  simp [State.runRead, State.addToA, operandValue]

/-- What an instruction that adds a byte made of M to A leaves in A and in each flag, and that nothing else changes. -/
theorem State.runRead_addToA :
    let t := s.runRead m o fun v t => t.addToA (addend v)
    let b := addend (operandValue o s)
    t.a = adcResult s.a b (s.flag .c) ∧ t.flag .c = adcCarry s.a b (s.flag .c) ∧ ZNOf t.a t.p ∧
      t.flag .v = adcOverflow s.a b (s.flag .c) ∧ FlagsUnchangedBut [.c, .z, .v, .n] s.p t.p ∧
      UnchangedBut [.a, .p, .cycles, .deviceState, .busLog] s t := by
  refine ⟨s.runRead_addToA_a m o addend, ?_, ?_, ?_, ?_,
    State.runRead_unchanged (fun v t => t.addToA_unchanged (addend v)) s m o⟩
  · simp [State.flag, State.runRead_addToA_p]
  · simp [ZNOf, State.flag, State.runRead_addToA_a, State.runRead_addToA_p]
  · simp [State.flag, State.runRead_addToA_p]
  · rw [State.runRead_addToA_p]
    exact adcStatus_flags _ _ _

end

/-- Settles O17: the rows by one pass over the opcode map, then the sum of A, M and C. -/
theorem adcAddsWithCarry : Obligations.AdcAddsWithCarry := by
  refine ⟨(tableRows_eq _).trans rfl, fun o s => ⟨_, exec_adc o s, ?_⟩⟩
  have hsum := s.runRead_addToA .adc o id
  simp only [id_eq] at hsum
  obtain ⟨ha, hc, hzn, hv, hflags, hframe⟩ := hsum
  refine ⟨⟨?_, hc, hzn, ?_, ?_⟩, hflags, hframe⟩
  · rw [ha]
    exact adcResult_toNat _ _ _
  · rw [ha, hv]
    exact adcOverflow_eq_bits _ _ _
  · rw [ha, hv, adcOverflow_iff, intCast_carryIn]

/-- Settles O18: the rows by one pass over the opcode map, then the sum of A, M inverted and C. -/
theorem sbcSubtractsWithBorrow : Obligations.SbcSubtractsWithBorrow := by
  refine ⟨(tableRows_eq _).trans rfl, fun o s => ⟨_, exec_sbc o s, ?_⟩⟩
  obtain ⟨ha, hc, hzn, hv, hflags, hframe⟩ := s.runRead_addToA .sbc o sbcOperand
  simp only [← carryIn_not]
  refine ⟨⟨?_, ?_, hzn, ?_⟩, hflags, hframe⟩
  · rw [ha, adcResult_sbcOperand]
  · rw [hc, adcCarry_sbcOperand]
  · rw [ha, hv, adcOverflow_sbcOperand_iff]

/-! D is no input of ADC and SBC (43_arithmetic_logic.md R210). -/

/-- The operand value does not depend on the status. -/
theorem operandValue_setFlagTo (o : Operand) (s : State) (f : Flag) (b : Bool) :
    operandValue o (s.setFlagTo f b) = operandValue o s := by
  cases o <;> rfl

/-- An instruction that adds a byte made of M to A leaves the same A and the same flags but D whatever D is. -/
theorem State.runRead_addToA_decimal (s : State) (d : Bool) (m : Mnemonic) (o : Operand) (addend : Byte → Byte) :
    let t := s.runRead m o fun v t => t.addToA (addend v)
    let u := (s.setFlagTo .d d).runRead m o fun v t => t.addToA (addend v)
    u.a = t.a ∧ FlagsUnchangedBut [.d] t.p u.p ∧ u.flag .d = d := by
  refine ⟨?_, fun f hf => ?_, ?_⟩
  · simp [State.runRead_addToA_a, operandValue_setFlagTo, State.flag]
  · have hfd : f ≠ .d := List.ne_of_not_mem_cons hf
    simp [State.runRead_addToA_p, operandValue_setFlagTo, hfd]
  · simp [State.flag, State.runRead_addToA_p]

/-- Settles O41: ADC and SBC both add a byte made of M to A. -/
theorem decimalFlagIsInert : Obligations.DecimalFlagIsInert := by
  intro o s d
  simp only [List.forall_mem_cons]
  refine ⟨?_, ?_, nofun⟩
  · exact ⟨_, _, exec_adc o s, exec_adc o _, s.runRead_addToA_decimal d .adc o id⟩
  · exact ⟨_, _, exec_sbc o s, exec_sbc o _, s.runRead_addToA_decimal d .sbc o sbcOperand⟩

/-- Settles O42, by the sum and the difference of the same byte and opposite carries. -/
theorem adcThenSbcRecoversA : Obligations.AdcThenSbcRecoversA := by
  intro b s
  refine ⟨_, _, exec_adc (.imm b) s, exec_sbc (.imm b) _, ?_⟩
  rw [State.runRead_addToA_a, State.setFlagTo_a, State.setFlagTo_flag, getFlag_setFlag_same]
  have hsum : (s.runRead .adc (.imm b) fun m t => t.addToA m).a = adcResult s.a b (s.flag .c) :=
    s.runRead_addToA_a .adc (.imm b) id
  rw [hsum]
  exact adcResult_sbcOperand_adcResult s.a b (s.flag .c)

/-! AND, ORA and EOR. -/

/-- An instruction that combines A with M leaves the combination in A, its Z and N, and nothing else changed. -/
theorem State.runRead_setAZN (combine : Byte → Byte → Byte) (s : State) (m : Mnemonic) (o : Operand) :
    let t := s.runRead m o fun v t => t.setAZN (combine t.a v)
    t.a = combine s.a (operandValue o s) ∧ ZNOf t.a t.p ∧ FlagsUnchangedBut [.z, .n] s.p t.p ∧
      UnchangedBut [.a, .p, .cycles, .deviceState, .busLog] s t := by
  refine ⟨?_, znOf_ZNOf _ _,
    State.runRead_flags (fun v t => assign_setZN_flags State.setA_unchanged (by decide) t _) s m o,
    State.runRead_unchanged (fun v t => assign_setZN_unchanged State.setA_unchanged t _) s m o⟩
  simp [State.runRead, State.setAZN, operandValue]

/-- Settles O19: the rows by one pass over the opcode map, then one combination of A and M each. -/
theorem logicCombinesIntoA : Obligations.LogicCombinesIntoA := by
  refine ⟨(tableRows_eq _).trans rfl, (tableRows_eq _).trans rfl, (tableRows_eq _).trans rfl,
    fun o s => ⟨?_, ?_, ?_⟩⟩
  · exact ⟨_, exec_and o s, State.runRead_setAZN (· &&& ·) s .and o⟩
  · exact ⟨_, exec_ora o s, State.runRead_setAZN (· ||| ·) s .ora o⟩
  · exact ⟨_, exec_eor o s, State.runRead_setAZN (· ^^^ ·) s .eor o⟩

/-! BIT. -/

theorem bitStatus_flags (a m p : Byte) : FlagsUnchangedBut [.z, .n, .v] p (bitStatus a m p) := by
  intro f hf
  simp_all

/-- BIT leaves its status of A and M in P. -/
theorem State.runRead_bit_p (s : State) (o : Operand) :
    (s.runRead .bit o fun v t => t.setP (bitStatus t.a v t.p)).p = bitStatus s.a (operandValue o s) s.p := by
  simp [State.runRead, operandValue]

/-- Settles O20: the rows by one pass over the opcode map, then the flags of `bitStatus`. -/
theorem bitTestsTheOperand : Obligations.BitTestsTheOperand := by
  refine ⟨(tableRows_eq _).trans rfl, fun o s => ⟨_, exec_bit o s, ?_, ?_, ?_, ?_,
    State.runRead_unchanged (fun v t => t.setP_unchanged _) s .bit o⟩⟩
  · simp [State.flag, State.runRead_bit_p]
  · simp [State.flag, State.runRead_bit_p]
  · simp [State.flag, State.runRead_bit_p]
  · rw [State.runRead_bit_p]
    exact bitStatus_flags _ _ _

/-! The compares. -/

/-- The low byte of the 16-bit difference is the 8-bit difference. (43_arithmetic_logic.md R217) -/
theorem lowByte_compareDifference (r m : Byte) : lowByte (compareDifference r m) = r - m := by
  apply BitVec.eq_of_toNat_eq
  rw [lowByte_toNat, compareDifference, BitVec.toNat_sub, BitVec.toNat_sub, zext16_toNat, zext16_toNat]
  omega

theorem compareDifference_bit_seven (r m : Byte) : (compareDifference r m).getLsbD 7 = (r - m).getLsbD 7 := by
  rw [← lowByte_compareDifference, lowByte, BitVec.getLsbD_extractLsb']
  rfl

theorem compareStatus_flags (r m p : Byte) : FlagsUnchangedBut [.c, .z, .n] p (compareStatus r m p) := by
  intro f hf
  simp_all

theorem State.compare_unchanged (s : State) (r m : Byte) : UnchangedBut [.p] s (s.compare r m) := by
  simp [unchangedBut_iff, State.compare]

/-- A compare of a register, which the resolver and the operand read leave, with M: C, Z and N, and nothing else. -/
theorem State.runRead_compare {register : State → Byte} {s : State} {o : Operand}
    (hregister : register ((s.resolve o).2.fetchOperand o.mode).2 = register s) (m : Mnemonic) :
    let t := s.runRead m o fun v t => t.compare (register t) v
    t.flag .c = decide ((operandValue o s).toNat ≤ (register s).toNat) ∧
      t.flag .z = decide (register s = operandValue o s) ∧
      t.flag .n = (register s - operandValue o s).getLsbD 7 ∧
      FlagsUnchangedBut [.c, .z, .n] s.p t.p ∧ UnchangedBut [.p, .cycles, .deviceState, .busLog] s t := by
  have hp : (s.runRead m o fun v t => t.compare (register t) v).p =
      compareStatus (register s) (operandValue o s) s.p := by
    simp [State.runRead, State.compare, operandValue, hregister]
  refine ⟨?_, ?_, ?_, ?_, State.runRead_unchanged (fun v t => t.compare_unchanged (register t) v) s m o⟩
  · simp [State.flag, hp]
  · have hz : register s - operandValue o s = 0x00#8 ↔ register s = operandValue o s := sub_eq_zero
    simp [State.flag, hp, lowByte_compareDifference, hz]
  · simp only [State.flag, hp, getFlag_compareStatus, if_pos, compareDifference_bit_seven]
  · rw [hp]
    exact compareStatus_flags _ _ _

/-- Settles O21: the rows by one pass over the opcode map, then one compare of a register with M each. -/
theorem comparesSetFlagsOnly : Obligations.ComparesSetFlagsOnly := by
  refine ⟨(tableRows_eq _).trans rfl, (tableRows_eq _).trans rfl, (tableRows_eq _).trans rfl,
    fun o s => ⟨?_, ?_, ?_⟩⟩
  · exact ⟨_, exec_cmp o s, State.runRead_compare (register := State.a) (by simp) .cmp⟩
  · exact ⟨_, exec_cpx o s, State.runRead_compare (register := State.x) (by simp) .cpx⟩
  · exact ⟨_, exec_cpy o s, State.runRead_compare (register := State.y) (by simp) .cpy⟩

/-! INC and DEC. -/

/-- A well-formed INC or DEC has a byte of memory as its operand. (43_arithmetic_logic.md R220, R221) -/
theorem incDec_mode_inMemory : ∀ m ∈ [Mnemonic.inc, .dec], ∀ q ∈ m.modes, q.inMemory = true := by decide

/-- A read-modify-write of M alone whose operand is a byte of memory leaves the result at EA, and its Z and N. -/
theorem State.runModify_znOf {o : Operand} (ho : o.mode.inMemory = true) (s : State) (m : Mnemonic)
    (f : Byte → Byte) :
    let t := s.runModify m o (fun v _ => f v) fun v t => znOf (f v) t.p
    ModifiesTo o (f (operandValue o s)) s t ∧ ZNOf (f (operandValue o s)) t.p ∧
      FlagsUnchangedBut [.z, .n] s.p t.p := by
  refine ⟨State.runModify_modifiesTo m _ ⟨?_, ?_⟩ rfl, ?_,
    State.runModify_flags (fun v t => znOf_flags (f v) t.p) s m o _⟩
  · rintro rfl
    cases ho
  · rintro v rfl
    cases ho
  · simp [State.runModify, State.runRead, operandValue]

/-- Settles O22: the rows by one pass over the opcode map, then one read-modify-write of a byte of memory each. -/
theorem incDecStepAByte : Obligations.IncDecStepAByte := by
  refine ⟨(tableRows_eq _).trans rfl, (tableRows_eq _).trans rfl, fun o s => ⟨fun hwf => ?_, fun hwf => ?_⟩⟩
  · have ho := incDec_mode_inMemory .inc (by simp) _ (Laws.EncodedLength.mode_of_wellFormed hwf)
    exact ⟨_, exec_inc o s, State.runModify_znOf ho s .inc (· + 1#8)⟩
  · have ho := incDec_mode_inMemory .dec (by simp) _ (Laws.EncodedLength.mode_of_wellFormed hwf)
    exact ⟨_, exec_dec o s, State.runModify_znOf ho s .dec (· - 1#8)⟩

/-! INX, INY, DEX and DEY. -/

/-- Settles O23: the rows by one pass over the opcode map; each is a transfer of a register's successor or
predecessor into the register. -/
theorem indexRegistersStepByOne : Obligations.IndexRegistersStepByOne := by
  refine ⟨(tableRows_eq _).trans rfl, (tableRows_eq _).trans rfl, (tableRows_eq _).trans rfl,
    (tableRows_eq _).trans rfl, fun s => ⟨?_, ?_, ?_, ?_⟩⟩
  · exact ⟨_, exec_inx s, rfl,
      State.runImplied_transfer (source := fun t => t.x + 1#8) State.setX_unchanged (by decide) rfl .inx⟩
  · exact ⟨_, exec_iny s, rfl,
      State.runImplied_transfer (source := fun t => t.y + 1#8) State.setY_unchanged (by decide) rfl .iny⟩
  · exact ⟨_, exec_dex s, rfl,
      State.runImplied_transfer (source := fun t => t.x - 1#8) State.setX_unchanged (by decide) rfl .dex⟩
  · exact ⟨_, exec_dey s, rfl,
      State.runImplied_transfer (source := fun t => t.y - 1#8) State.setY_unchanged (by decide) rfl .dey⟩

end Sys2Proof.Machine
end

section
/-! PROOFS of the family 44_shift_rotate. The four results in numbers; a shift or rotate is one read-modify-write
whose result is a function of M and of C before, and whose carry is a bit of M. -/

namespace Sys2Proof.Machine

/-! The results in numbers. -/

theorem carryBit_eq_ofNat (c : Bool) : carryBit c = BitVec.ofNat 8 (if c then 1 else 0) := by cases c <;> rfl

/-- ASL doubles M modulo 256. (44_shift_rotate.md R251) -/
theorem aslResult_eq_ofNat (m : Byte) : aslResult m = BitVec.ofNat 8 (2 * m.toNat) := by
  apply BitVec.eq_of_toNat_eq
  rw [aslResult, BitVec.toNat_shiftLeft, BitVec.toNat_ofNat, Nat.shiftLeft_eq, pow_one, Nat.mul_comm]

theorem lsrResult_toNat (m : Byte) : (lsrResult m).toNat = m.toNat / 2 := by
  rw [lsrResult, BitVec.toNat_ushiftRight, Nat.shiftRight_eq_div_pow, pow_one]

/-- LSR halves M. (44_shift_rotate.md R252) -/
theorem lsrResult_eq_ofNat (m : Byte) : lsrResult m = BitVec.ofNat 8 (m.toNat / 2) := by
  rw [← lsrResult_toNat, BitVec.ofNat_toNat, BitVec.setWidth_eq]

/-- The bit a left shift brings in is free. -/
theorem aslResult_and_carryBit (m : Byte) (c : Bool) : aslResult m &&& carryBit c = 0#8 := by
  revert m c
  decide

/-- The bit a right shift brings in is free. -/
theorem lsrResult_and_carryBit (m : Byte) (c : Bool) : lsrResult m &&& carryBit c <<< 7 = 0#8 := by
  revert m c
  decide

/-- ROL doubles M and adds C, modulo 256: the bit C enters at is free after the shift. (44_shift_rotate.md R253) -/
theorem rolResult_eq_ofNat (c : Bool) (m : Byte) :
    rolResult c m = BitVec.ofNat 8 (2 * m.toNat + if c then 1 else 0) := calc
  rolResult c m = aslResult m ||| carryBit c := rfl
  _ = aslResult m + carryBit c := (BitVec.add_eq_or_of_and_eq_zero _ _ (aslResult_and_carryBit m c)).symm
  _ = _ := by rw [aslResult_eq_ofNat, carryBit_eq_ofNat, BitVec.ofNat_add]

/-- ROR halves M and adds 128 C: the bit C enters at is free after the shift. (44_shift_rotate.md R254) -/
theorem rorResult_eq_ofNat (c : Bool) (m : Byte) :
    rorResult c m = BitVec.ofNat 8 (m.toNat / 2 + if c then 128 else 0) := calc
  rorResult c m = lsrResult m ||| carryBit c <<< 7 := rfl
  _ = lsrResult m + carryBit c <<< 7 := (BitVec.add_eq_or_of_and_eq_zero _ _ (lsrResult_and_carryBit m c)).symm
  _ = _ := by
    rw [lsrResult_eq_ofNat, BitVec.ofNat_add]
    cases c <;> rfl

/-! The read-modify-write. -/

theorem shiftStatus_flags (out : Bool) (r p : Byte) : FlagsUnchangedBut [.c, .z, .n] p (shiftStatus out r p) := by
  intro f hf
  simp_all

/-- An operand in A or in memory is neither the implied nor an immediate one. -/
theorem operand_ne_imp_imm {o : Operand} (ho : o.mode = .acc ∨ o.mode.inMemory = true) :
    o ≠ .imp ∧ ∀ v, o ≠ .imm v := by
  constructor
  · rintro rfl
    simp [Operand.mode, Mode.inMemory] at ho
  · rintro v rfl
    simp [Operand.mode, Mode.inMemory] at ho

/-- A read-modify-write whose result `r` is a function of C before and of M, with a bit of M as the new C: `r` lands
in A or at EA, Z and N are those of `r`, and no other flag changes. -/
theorem State.runModify_shift {m : Mnemonic} {o : Operand} (hm : timingClass m = .modify) (ho : o.mode ∈ m.modes)
    {s : State} (out : Byte → Bool) {result : Bool → Byte → Byte} {r : Byte}
    (hr : result (s.flag .c) (operandValue o s) = r) :
    let t := s.runModify m o (fun v t => result (t.flag .c) v)
      fun v t => shiftStatus (out v) (result (t.flag .c) v) t.p
    (ModifiesTo o r s t ∧ ZNOf r t.p) ∧ t.flag .c = out (operandValue o s) ∧
      FlagsUnchangedBut [.c, .z, .n] s.p t.p := by
  intro t
  have hp : t.p = shiftStatus (out (operandValue o s)) r s.p := by
    simp [t, ← hr, State.runModify, State.runRead, operandValue]
  have hoperand := operand_ne_imp_imm (modify_mode_inMemory m hm o.mode ho)
  refine ⟨⟨State.runModify_modifiesTo m _ hoperand (by simpa using hr), ?_⟩, ?_, ?_⟩
  · simp [ZNOf, hp]
  · simp [State.flag, hp]
  · rw [hp]
    exact shiftStatus_flags _ _ _

/-- Settles O24: the rows by one pass over the opcode map, then one read-modify-write each that takes in no carry. -/
theorem shiftsMoveOneBit : Obligations.ShiftsMoveOneBit := by
  refine ⟨(tableRows_eq _).trans rfl, (tableRows_eq _).trans rfl, fun o s => ⟨fun hwf => ?_, fun hwf => ?_⟩⟩
  · have ho := Laws.EncodedLength.mode_of_wellFormed hwf
    exact ⟨_, exec_asl o s, State.runModify_shift (result := fun _ => aslResult) rfl ho (·.getLsbD 7)
      (aslResult_eq_ofNat _)⟩
  · have ho := Laws.EncodedLength.mode_of_wellFormed hwf
    exact ⟨_, exec_lsr o s, State.runModify_shift (result := fun _ => lsrResult) rfl ho (·.getLsbD 0)
      (lsrResult_eq_ofNat _)⟩

/-- Settles O25: the rows by one pass over the opcode map, then one read-modify-write each that takes in C. -/
theorem rotatesGoThroughCarry : Obligations.RotatesGoThroughCarry := by
  refine ⟨(tableRows_eq _).trans rfl, (tableRows_eq _).trans rfl, fun o s => ⟨fun hwf => ?_, fun hwf => ?_⟩⟩
  · have ho := Laws.EncodedLength.mode_of_wellFormed hwf
    exact ⟨_, exec_rol o s, State.runModify_shift (result := rolResult) rfl ho (·.getLsbD 7)
      (rolResult_eq_ofNat _ _)⟩
  · have ho := Laws.EncodedLength.mode_of_wellFormed hwf
    exact ⟨_, exec_ror o s, State.runModify_shift (result := rorResult) rfl ho (·.getLsbD 0)
      (rorResult_eq_ofNat _ _)⟩

end Sys2Proof.Machine
end

section
/-! PROOFS of the family 45_control_transfer. A branch is the shared branch with its own flag as the condition; a jump
sets PC to EA; JSR and RTS push and pull one word, whose two stack bytes are different addresses. -/

namespace Sys2Proof.Machine

theorem State.setPc_unchanged (s : State) (v : Addr) : UnchangedBut [.pc] s (s.setPc v) := by simp [unchangedBut_iff]

/-! The branches. -/

/-- The row of a branch in mode REL: base cost 2, no page penalty of its own. (45_control_transfer.md R270) -/
theorem rowEntry_branch : ∀ m : Mnemonic, (branchCondition m).isSome → rowEntry m .rel = ⟨m, .rel, 2, false⟩ := by
  intro m
  cases m <;> decide

/-- Settles O26: the rows by one pass over the opcode map, then the shared branch on each one's flag, which the REL
resolver leaves. -/
theorem branchesFollowTheirFlag : Obligations.BranchesFollowTheirFlag := by
  refine ⟨(tableRows_eq _).trans rfl, (tableRows_eq _).trans rfl, (tableRows_eq _).trans rfl,
    (tableRows_eq _).trans rfl, (tableRows_eq _).trans rfl, (tableRows_eq _).trans rfl, (tableRows_eq _).trans rfl,
    (tableRows_eq _).trans rfl, fun d s => ⟨?_, ?_, ?_, ?_, ?_, ?_, ?_, ?_⟩⟩
  · exact ⟨_, exec_bcc d s, State.runBranch_branchesIf (rowEntry_branch .bcc rfl) d rfl⟩
  · exact ⟨_, exec_bcs d s, State.runBranch_branchesIf (rowEntry_branch .bcs rfl) d rfl⟩
  · exact ⟨_, exec_beq d s, State.runBranch_branchesIf (rowEntry_branch .beq rfl) d rfl⟩
  · exact ⟨_, exec_bmi d s, State.runBranch_branchesIf (rowEntry_branch .bmi rfl) d rfl⟩
  · exact ⟨_, exec_bne d s, State.runBranch_branchesIf (rowEntry_branch .bne rfl) d rfl⟩
  · exact ⟨_, exec_bpl d s, State.runBranch_branchesIf (rowEntry_branch .bpl rfl) d rfl⟩
  · exact ⟨_, exec_bvc d s, State.runBranch_branchesIf (rowEntry_branch .bvc rfl) d rfl⟩
  · exact ⟨_, exec_bvs d s, State.runBranch_branchesIf (rowEntry_branch .bvs rfl) d rfl⟩

/-! JMP. -/

/-- A pointer at the end of its page takes its high byte from the start of that page. (41_addressing_modes.md R161) -/
theorem indirectHigh_word_pageEnd (hi : Byte) : indirectHigh (word hi 0xFF#8) = word hi 0x00#8 := by
  have hwrap : lowByte (word hi 0xFF#8 + 1#16) = 0x00#8 := by
    apply BitVec.eq_of_toNat_eq
    rw [lowByte_toNat, BitVec.toNat_add, word_toNat]
    simp only [BitVec.toNat_ofNat]
    omega
  rw [indirectHigh_eq_word, page_word, hwrap]

/-- Settles O27: the rows by one pass over the opcode map, PC from the resolver's latch, and the pointer's high byte at
the start of its page. -/
theorem jumpGoesToItsAddress : Obligations.JumpGoesToItsAddress := by
  refine ⟨(tableRows_eq _).trans rfl, fun o s => ⟨_, exec_jmp o s, rfl, ?_⟩, fun hi s => ⟨_, exec_jmp _ s, ?_⟩⟩
  · refine (((s.resolve_unchanged o).trans (State.setPc_unchanged _ _)).trans
      (State.charge_unchanged _ .jmp o.mode false 0)).mono ?_
    simp
  · rw [← indirectHigh_word_pageEnd]
    rfl

/-! A word pushed: two stores at different stack addresses. -/

/-- A byte stored stays stored while other bytes change. -/
theorem StoresByte.then_bytes {s t u : State} {a : Addr} {v : Byte} {l : List Addr} (h : StoresByte s t a v)
    (hbytes : BytesUnchangedBut l t u) (ha : a ∉ l) : StoresByte s u a v :=
  ⟨fun hwf hram => (hbytes a ha).trans (h.1 hwf hram), fun hram => (hbytes a ha).trans (h.2 hram)⟩

/-- A byte is stored as it would have been before a push at another address. -/
theorem StoresByte.after_push {s u : State} {a : Addr} {v w : Byte} (h : StoresByte (s.push w) u a v)
    (ha : a ≠ stackAddr s.sp) : StoresByte s u a v := by
  obtain ⟨hstored, hkept⟩ := h
  refine ⟨fun hwf => hstored (State.wf_push hwf w), fun hram => (hkept hram).trans ?_⟩
  exact s.push_bytes w a (by simpa using ha)

theorem stackAddr_ne_next (sp : Byte) : stackAddr sp ≠ stackAddr (sp - 1#8) := stackAddr_ne (by bv_omega)

theorem State.pushWord_storesHigh (s : State) (v : Addr) :
    StoresByte s (s.pushWord v) (stackAddr s.sp) (page v) :=
  (s.push_storesByte (page v)).then_bytes ((s.push (page v)).push_bytes (lowByte v))
    (by simpa using stackAddr_ne_next s.sp)

theorem State.pushWord_storesLow (s : State) (v : Addr) :
    StoresByte s (s.pushWord v) (stackAddr (s.sp - 1#8)) (lowByte v) :=
  ((s.push (page v)).push_storesByte (lowByte v)).after_push (stackAddr_ne_next s.sp).symm

theorem State.pushWord_sp (s : State) (v : Addr) : (s.pushWord v).sp = s.sp - 2#8 := BitVec.sub_sub s.sp 1#8 1#8

theorem State.pushWord_busLog (s : State) (v : Addr) : (s.pushWord v).busLog =
    s.busLog ++ [.write (stackAddr s.sp) (page v), .write (stackAddr (s.sp - 1#8)) (lowByte v)] := by
  simp [State.pushWord]

theorem State.pushWord_unchanged (s : State) (v : Addr) :
    UnchangedBut [.sp, .mem, .deviceState, .busLog] s (s.pushWord v) := by
  simp [unchangedBut_iff, State.pushWord]

/-- Settles O28: the row by one pass over the opcode map, then one word pushed after the ABS resolver, which writes
only its latch. -/
theorem jsrPushesItsLastByte : Obligations.JsrPushesItsLastByte := by
  refine ⟨(tableRows_eq _).trans rfl, fun a s => ?_⟩
  let resolved := s.setAddrAbs a
  let ret := s.pc - 1#16
  refine ⟨_, exec_jsr a s, rfl, resolved.pushWord_sp ret, resolved.pushWord_storesHigh ret,
    resolved.pushWord_storesLow ret, resolved.pushWord_bytes ret, resolved.pushWord_busLog ret, ?_⟩
  refine ((((s.resolve_unchanged (.abs a)).trans (resolved.pushWord_unchanged ret)).trans
    (State.setPc_unchanged _ a)).trans (State.charge_unchanged _ .jsr .abs false 0)).mono ?_
  simp

/-! A word pulled. -/

theorem State.pull_pull_sp (s : State) : s.pull.2.sp + 1#8 = s.sp + 2#8 := BitVec.add_assoc s.sp 1#8 1#8

/-- The word of the two bytes above SP, the low byte read first. -/
theorem State.pullWord_fst (s : State) : s.pullWord.1 =
    word ((s.afterRead (stackAddr (s.sp + 1#8))).peek (stackAddr (s.sp + 2#8))) (s.peek (stackAddr (s.sp + 1#8))) := by
  rw [← s.pull_pull_sp]
  rfl

theorem State.pullWord_busLog (s : State) : s.pullWord.2.busLog = s.busLog ++
    [.read (stackAddr (s.sp + 1#8)) (s.peek (stackAddr (s.sp + 1#8))),
      .read (stackAddr (s.sp + 2#8)) ((s.afterRead (stackAddr (s.sp + 1#8))).peek (stackAddr (s.sp + 2#8)))] := by
  rw [← s.pull_pull_sp]
  exact List.append_assoc _ _ _

theorem State.pullWord_sp (s : State) : s.pullWord.2.sp = s.sp + 2#8 := s.pull_pull_sp

theorem State.pullWord_unchanged (s : State) :
    UnchangedBut [.sp, .deviceState, .busLog] s s.pullWord.2 := by
  simp [unchangedBut_iff, State.pullWord]

/-- Settles O29: the row by one pass over the opcode map, then one word pulled after the IMP resolver, which writes
only its latch. -/
theorem rtsReturnsPastThePulledAddress : Obligations.RtsReturnsPastThePulledAddress := by
  refine ⟨(tableRows_eq _).trans rfl, fun s => ?_⟩
  let resolved := s.setFetched s.a
  refine ⟨_, exec_rts s, ⟨congrArg (· + 1#16) resolved.pullWord_fst, resolved.pullWord_busLog⟩,
    resolved.pullWord_sp, ?_⟩
  refine (State.runImplied_unchanged (fun t => t.pullWord_unchanged.trans (State.setPc_unchanged _ _)) s .rts).mono ?_
  simp

end Sys2Proof.Machine
end

section
/-! PROOFS of the family 46_stack_flags_system. A push is one store at the address SP designates, a pull one read above
it; a flag instruction is one write of the flag setter; BRK and RTI are the shared entry and return; pushes in a row
walk down page 1, no address of it twice in 256. -/

namespace Sys2Proof.Machine

/-! Pushes. -/

theorem State.push_unchanged (s : State) (v : Byte) :
    UnchangedBut [.sp, .mem, .deviceState, .busLog] s (s.push v) := by
  simp [unchangedBut_iff]

/-- An instruction that pushes a byte, which the IMP resolver leaves, is one store at the address SP designates: its
byte lands there, no other byte changes, SP falls by 1 and nothing else changes. -/
theorem State.runImplied_push {source : State → Byte} {s : State}
    (hsource : source (s.resolve .imp).2 = source s) (m : Mnemonic) :
    let t := s.runImplied m fun t => t.push (source t)
    StoresByte s t (stackAddr s.sp) (source s) ∧ BytesUnchangedBut [stackAddr s.sp] s t ∧
      t.busLog = s.busLog ++ [.write (stackAddr s.sp) (source s)] ∧ t.sp = s.sp - 1#8 ∧
      UnchangedBut [.sp, .mem, .cycles, .deviceState, .busLog] s t := by
  rw [← hsource]
  refine ⟨(s.setFetched s.a).push_storesByte _, State.runImplied_bytes (State.push_bytes _ _) m, rfl, rfl, ?_⟩
  refine (State.runImplied_unchanged (fun t => t.push_unchanged (source t)) s m).mono ?_
  simp

/-- Settles O30: the rows by one pass over the opcode map, then one push each. -/
theorem pushesStoreAOrStatus : Obligations.PushesStoreAOrStatus := by
  refine ⟨(tableRows_eq _).trans rfl, (tableRows_eq _).trans rfl, fun s => ⟨?_, ?_⟩⟩
  · exact ⟨_, exec_pha s, State.runImplied_push (source := State.a) (s.resolve_a .imp) .pha⟩
  · exact ⟨_, exec_php s, State.runImplied_push (source := fun t => statusPushedByProgram t.p) rfl .php⟩

/-! Pulls. -/

theorem State.pull_unchanged (s : State) : UnchangedBut [.sp, .deviceState, .busLog] s s.pull.2 := by
  simp [unchangedBut_iff]

theorem State.pullStatus_unchanged (s : State) :
    UnchangedBut [.sp, .deviceState, .busLog, .p] s s.pullStatus :=
  s.pull_unchanged.trans (State.setP_unchanged _ _)

/-- A pulled status has every flag of the byte but U and B. (10_state.md R47) -/
theorem statusRestored_flags (v : Byte) : FlagsUnchangedBut [.u, .b] v (statusRestored v) := by
  intro f hf
  simp_all

/-- PLA puts the byte above SP in A, then Z and N of it, and raises SP. (46_stack_flags_system.md R303) -/
theorem State.runImplied_pla (s : State) :
    let t := s.runImplied .pla fun t => (t.pull.2.setA t.pull.1).setZN t.pull.1
    t.a = s.peek (stackAddr (s.sp + 1#8)) ∧ ZNOf t.a t.p ∧ FlagsUnchangedBut [.z, .n] s.p t.p ∧
      t.sp = s.sp + 1#8 ∧ UnchangedBut [.a, .p, .sp, .cycles, .deviceState, .busLog] s t := by
  refine ⟨rfl, znOf_ZNOf _ _,
    State.runImplied_flags (fun t => assign_setZN_flags State.setA_unchanged (by decide) t.pull.2 _) s .pla, rfl, ?_⟩
  refine (State.runImplied_unchanged
    (fun t => t.pull_unchanged.trans (assign_setZN_unchanged State.setA_unchanged _ _)) s .pla).mono ?_
  simp

/-- PLP puts the byte above SP in P, with U set and B clear, and raises SP. (46_stack_flags_system.md R304) -/
theorem State.runImplied_plp (s : State) :
    let t := s.runImplied .plp State.pullStatus
    let v := s.peek (stackAddr (s.sp + 1#8))
    t.p = statusRestored v ∧ t.flag .u = true ∧ t.flag .b = false ∧ FlagsUnchangedBut [.u, .b] v t.p ∧
      t.sp = s.sp + 1#8 ∧ UnchangedBut [.p, .sp, .cycles, .deviceState, .busLog] s t := by
  refine ⟨rfl, getFlag_statusRestored .u _, getFlag_statusRestored .b _, statusRestored_flags _, rfl, ?_⟩
  refine (State.runImplied_unchanged State.pullStatus_unchanged s .plp).mono ?_
  simp

/-- Settles O31: the rows by one pass over the opcode map, then one pull each. -/
theorem pullsLoadAOrStatus : Obligations.PullsLoadAOrStatus := by
  refine ⟨(tableRows_eq _).trans rfl, (tableRows_eq _).trans rfl, fun s => ⟨?_, ?_⟩⟩
  · exact ⟨_, exec_pla s, s.runImplied_pla⟩
  · exact ⟨_, exec_plp s, s.runImplied_plp⟩

/-! The flag instructions. -/

/-- An instruction that writes one flag leaves every other flag and everything else. -/
theorem State.runImplied_setFlagTo (s : State) (m : Mnemonic) (f : Flag) (b : Bool) :
    let t := s.runImplied m fun t => t.setFlagTo f b
    t.flag f = b ∧ FlagsUnchangedBut [f] s.p t.p ∧ UnchangedBut [.p, .cycles] s t := by
  refine ⟨getFlag_setFlag_same f b _, fun g hg => ?_,
    State.runImplied_unchanged (fun t => t.setP_unchanged _) s m⟩
  exact getFlag_setFlag_other (List.ne_of_not_mem_cons hg) b s.p

/-- Settles O32: the rows by one pass over the opcode map, then one write of the flag setter each. -/
theorem flagInstructionsWriteOneFlag : Obligations.FlagInstructionsWriteOneFlag := by
  refine ⟨(tableRows_eq _).trans rfl, (tableRows_eq _).trans rfl, (tableRows_eq _).trans rfl,
    (tableRows_eq _).trans rfl, (tableRows_eq _).trans rfl, (tableRows_eq _).trans rfl, (tableRows_eq _).trans rfl,
    fun s => ⟨?_, ?_, ?_, ?_, ?_, ?_, ?_⟩⟩
  · exact ⟨_, exec_clc s, s.runImplied_setFlagTo .clc .c false⟩
  · exact ⟨_, exec_cld s, s.runImplied_setFlagTo .cld .d false⟩
  · exact ⟨_, exec_cli s, s.runImplied_setFlagTo .cli .i false⟩
  · exact ⟨_, exec_clv s, s.runImplied_setFlagTo .clv .v false⟩
  · exact ⟨_, exec_sec s, s.runImplied_setFlagTo .sec .c true⟩
  · exact ⟨_, exec_sed s, s.runImplied_setFlagTo .sed .d true⟩
  · exact ⟨_, exec_sei s, s.runImplied_setFlagTo .sei .i true⟩

/-! BRK and RTI. -/

/-- An entry changes PC, SP, P, memory and the bus's own fields, nothing else. (60_exceptions.md R346) -/
theorem State.interruptEntry_unchanged (s : State) (v : Addr) (brk : Bool) :
    UnchangedBut [.pc, .sp, .p, .mem, .deviceState, .busLog] s (s.interruptEntry v brk) := by
  simp [unchangedBut_iff]

/-- Settles O33: the row by one pass over the opcode map, then the shared entry from PC past the padding byte, which
sees none of the latches the IMP resolver writes. -/
theorem brkEntersThroughTheIrqVector : Obligations.BrkEntersThroughTheIrqVector := by
  refine ⟨(tableRows_eq _).trans rfl, fun s => ⟨_, exec_brk s, ?_, ?_⟩⟩
  · exact (State.interruptEntry_entersWith ((s.setFetched s.a).setPc (s.pc + 1#16)) irqVector true).congr
      rfl rfl rfl rfl rfl rfl rfl rfl rfl rfl rfl
  · refine (State.runImplied_unchanged (fun t => (t.setPc_unchanged (t.pc + 1#16)).trans
      (State.interruptEntry_unchanged _ irqVector true)) s .brk).mono ?_
    simp

theorem State.interruptReturn_unchanged (s : State) :
    UnchangedBut [.sp, .deviceState, .busLog, .p, .pc] s s.interruptReturn := by
  refine ((s.pullStatus_unchanged.trans (State.pullWord_unchanged _)).trans (State.setPc_unchanged _ _)).mono ?_
  simp

/-- The return reads the status, then PC's low and high byte, at three addresses in a row. (60_exceptions.md R351) -/
theorem State.interruptReturn_busLog (s : State) :
    let first := stackAddr (s.sp + 1#8)
    let low := stackAddr (s.sp + 2#8)
    let high := stackAddr (s.sp + 3#8)
    s.interruptReturn.busLog = s.busLog ++ [.read first (s.peek first), .read low ((s.afterRead first).peek low),
      .read high (((s.afterRead first).afterRead low).peek high)] := by
  have hlow : s.pullStatus.sp + 1#8 = s.sp + 2#8 := BitVec.add_assoc s.sp 1#8 1#8
  have hhigh : s.pullStatus.sp + 2#8 = s.sp + 3#8 := BitVec.add_assoc s.sp 1#8 2#8
  have hword := s.pullStatus.pullWord_busLog
  rw [hlow, hhigh] at hword
  exact hword.trans (List.append_assoc _ _ _)

theorem State.interruptReturn_sp_add_three (s : State) : s.interruptReturn.sp = s.sp + 3#8 := by
  rw [State.interruptReturn_sp, BitVec.add_assoc, BitVec.add_assoc]
  rfl

/-- Settles O34: the row by one pass over the opcode map, then the shared return after the IMP resolver, which writes
only its latch. -/
theorem rtiRestoresStatusThenPc : Obligations.RtiRestoresStatusThenPc := by
  refine ⟨(tableRows_eq _).trans rfl, fun s => ?_⟩
  let resolved := s.setFetched s.a
  refine ⟨_, exec_rti s,
    ⟨resolved.interruptReturn_p, resolved.interruptReturn_pc, resolved.interruptReturn_busLog⟩,
    resolved.interruptReturn_sp_add_three, ?_⟩
  refine (State.runImplied_unchanged State.interruptReturn_unchanged s .rti).mono ?_
  simp

/-! NOP and the undocumented bytes. -/

/-- The state a no-op leaves: the IMP resolver's latch written and the countdown at the cost 2. -/
def State.afterNoOp (s : State) : State := { s with fetched := s.a, cycles := 2 }

theorem exec_nop_afterNoOp (s : State) : exec .nop s = .next s.afterNoOp := rfl

theorem exec_ill_afterNoOp (op : Byte) (s : State) : exec (.ill op) s = .next s.afterNoOp := rfl

theorem State.afterNoOp_unchanged (s : State) : UnchangedBut [.cycles] s s.afterNoOp := by
  simp [unchangedBut_iff, State.afterNoOp]

theorem State.countTick_unchanged (s : State) : UnchangedBut [.cycles, .totalCycles] s s.countTick := by
  simp [unchangedBut_iff]

/-- An undocumented byte is assembled to ILL. (30_encoding.md R98) -/
theorem assembleFrom_undocumented {op : Byte} (h : op ∈ undocumented) (bs : List Byte) :
    assembleFrom op bs = .ill op := by
  rw [assembleFrom, assemble, (entry_eq_illEntry_iff op).mpr h]
  rfl

theorem decode_undocumented {op : Byte} (h : op ∈ undocumented) : decode [op] = .ok (.ill op, []) := by
  have hmode : (entry op).mode.operandBytes = 0 := by
    rw [(entry_eq_illEntry_iff op).mpr h]
    rfl
  rw [← assembleFrom_undocumented h []]
  exact decode_operand_bytes (bs := []) hmode.symm []

/-- NOP's byte or an undocumented one at PC is fetched as an instruction of one byte that is a no-op. -/
theorem fetchInstr_noOp {s : State} (h : s.peek s.pc ∈ 0xEA#8 :: undocumented) :
    s.fetchInstr.1.length = 1 ∧ ∀ t, exec s.fetchInstr.1 t = .next t.afterNoOp := by
  rw [fetchInstr_eq]
  rcases List.mem_cons.mp h with hnop | hill
  · rw [hnop]
    exact ⟨rfl, exec_nop_afterNoOp⟩
  · rw [assembleFrom_undocumented hill]
    exact ⟨rfl, exec_ill_afterNoOp _⟩

/-- A tick that finds a no-op's byte at PC reads it, moves PC past it and counts; nothing else changes. -/
theorem step_noOp {s : State} (hp : s.power = .running) (hc : s.cycles = 0) (hn : s.nmiPending = false)
    (hi : s.irqPending = false) (hop : s.peek s.pc ∈ 0xEA#8 :: undocumented) :
    ∃ t : State, step s = .next t ∧ t.pc = s.pc + 1#16 ∧ t.cycles = 1 ∧ t.totalCycles = s.totalCycles + 1#64 ∧
      t.busLog = [.read s.pc (s.peek s.pc)] ∧
      UnchangedBut [.pc, .cycles, .totalCycles, .deviceState, .busLog] s t := by
  obtain ⟨hlength, hexec⟩ := fetchInstr_noOp (s := s.clearLog) hop
  let fetched := (State.fetchBytes 1 s.clearLog).2
  refine ⟨fetched.afterNoOp.countTick, ?_, rfl, rfl, rfl, rfl, ?_⟩
  · rw [step_execute hp hc hn hi, hexec, counted, fetchInstr_snd, hlength]
  · refine (((fetchBytes_unchanged 1 s).trans fetched.afterNoOp_unchanged).trans
      (State.countTick_unchanged _)).mono ?_
    simp

/-- Settles O35: the row by one pass over the opcode map, the undocumented bytes by their one entry, and both
instructions and their ticks by the state a no-op leaves. -/
theorem nopAndIllChangeNothing : Obligations.NopAndIllChangeNothing :=
  ⟨(tableRows_eq _).trans rfl, fun op hop => ⟨(entry_eq_illEntry_iff op).mpr hop, decode_undocumented hop⟩,
    exec_nop_afterNoOp, exec_ill_afterNoOp, fun _ hp hc hn hi hop => step_noOp hp hc hn hi hop⟩

/-! Pushes in a row. -/

/-- The address of the `k`-th of pushes in a row. (10_state.md R35) -/
def pushAddr (sp : Byte) (k : Nat) : Addr := stackAddr (sp - BitVec.ofNat 8 k)

theorem sub_one_sub_ofNat (sp : Byte) (k : Nat) : sp - 1#8 - BitVec.ofNat 8 k = sp - BitVec.ofNat 8 (k + 1) := by
  bv_omega

theorem pushAddr_zero (sp : Byte) : pushAddr sp 0 = stackAddr sp := congrArg stackAddr (BitVec.sub_zero sp)

theorem pushAddr_succ (sp : Byte) (k : Nat) : pushAddr (sp - 1#8) k = pushAddr sp (k + 1) :=
  congrArg stackAddr (sub_one_sub_ofNat sp k)

/-- 256 pushes in a row go to different addresses. -/
theorem pushAddr_injective {sp : Byte} {j k : Nat} (hj : j < 256) (hk : k < 256)
    (h : pushAddr sp j = pushAddr sp k) : j = k := by
  have hsub := stackAddr_injective h
  bv_omega

/-- The stack is in page 1. (00_scope.md R10) -/
theorem page_stackAddr (sp : Byte) : page (stackAddr sp) = 0x01#8 := by
  apply BitVec.eq_of_toNat_eq
  rw [page_toNat, stackAddr, add_zext16_toNat]
  simp only [BitVec.toNat_ofNat]
  omega

theorem pushAll_sp (vs : List Byte) (s : State) : (pushAll vs s).sp = s.sp - BitVec.ofNat 8 vs.length := by
  induction vs generalizing s with
  | nil => exact (BitVec.sub_zero s.sp).symm
  | cons v rest ih => exact (ih (s.push v)).trans (sub_one_sub_ofNat s.sp rest.length)

/-- Pushes in a row change no byte but those at their addresses. -/
theorem pushAll_bytes (vs : List Byte) (s : State) :
    BytesUnchangedBut ((List.range vs.length).map (pushAddr s.sp)) s (pushAll vs s) := by
  induction vs generalizing s with
  | nil => exact .of_mem_eq rfl _
  | cons v rest ih =>
    have haddrs : (List.range (v :: rest).length).map (pushAddr s.sp) =
        [stackAddr s.sp] ++ (List.range rest.length).map (pushAddr (s.push v).sp) := by
      simp [List.range_succ_eq_map, pushAddr_zero, pushAddr_succ]
    rw [haddrs]
    exact (s.push_bytes v).trans (ih (s.push v))

/-- On RAM each of at most 256 pushes in a row leaves its byte: the later ones go to other addresses. -/
theorem pushAll_stored {vs : List Byte} (hlen : vs.length ≤ 256) {s : State} (hmem : Memory.wf s.mem = true)
    (hram : AllRam s) {k : Nat} (hk : k < vs.length) :
    vs[k]? = some (Memory.read (pushAll vs s).mem (pushAddr s.sp k).toNat) := by
  induction vs generalizing s k with
  | nil => cases hk
  | cons v rest ih =>
    rw [List.length_cons] at hlen hk
    cases k with
    | zero =>
      have hother : stackAddr s.sp ∉ (List.range rest.length).map (pushAddr (s.push v).sp) := by
        intro hin
        obtain ⟨j, hj, heq⟩ := List.mem_map.mp hin
        rw [State.push_sp, pushAddr_succ, ← pushAddr_zero] at heq
        have hlt : j < rest.length := List.mem_range.mp hj
        exact absurd (pushAddr_injective (by omega) (by decide) heq) j.succ_ne_zero
      have hstored := (s.push_storesByte v).then_bytes (pushAll_bytes rest (s.push v)) hother
      rw [pushAddr_zero]
      exact congrArg some (hstored.1 hmem (hram _)).symm
    | succ k =>
      rw [List.getElem?_cons_succ, ← pushAddr_succ]
      exact ih (by omega) (State.wf_push hmem v) hram (by omega)

/-- Settles O59: SP falls by 256, which is 0; each byte stays where it was pushed; and every address pushed to is in
page 1. -/
theorem stackWrapsAfter256Pushes : Obligations.StackWrapsAfter256Pushes := by
  intro s vs hmem hram hlen
  refine ⟨?_, fun k hk => ?_, fun a ha => ?_, fun j k hj hk h => pushAddr_injective hj hk h⟩
  · rw [pushAll_sp, hlen]
    exact BitVec.sub_zero s.sp
  · exact pushAll_stored hlen.le hmem hram (hlen ▸ hk)
  · refine pushAll_bytes vs s a fun hin => ha ?_
    obtain ⟨j, -, rfl⟩ := List.mem_map.mp hin
    exact page_stackAddr _

end Sys2Proof.Machine
end

section
/-! PROOFS of the families 60_exceptions and 70_reset_and_hazards. A hardware entry is the shared interrupt entry with
its cost set; a host call or a step that takes an interrupt is one such entry, with what it clears before and counts
after. The ticks of a countdown change nothing else; the return from an entry on RAM pulls what the entry pushed; and
no instruction takes a bus call back from the record. -/

namespace Sys2Proof.Machine

/-! Frames of the host's own updates. -/

theorem State.clearLog_unchanged (s : State) : UnchangedBut [.busLog] s s.clearLog := by simp [unchangedBut_iff]

theorem State.setIrqPending_unchanged (s : State) (b : Bool) : UnchangedBut [.irqPending] s (s.setIrqPending b) := by
  simp [unchangedBut_iff]

theorem State.setNmiPending_unchanged (s : State) (b : Bool) : UnchangedBut [.nmiPending] s (s.setNmiPending b) := by
  simp [unchangedBut_iff]

theorem State.setCycles_unchanged (s : State) (n : Nat) : UnchangedBut [.cycles] s (s.setCycles n) := by
  simp [unchangedBut_iff]

/-- A part that changed on the way but is back at what it was need not be listed. -/
theorem UnchangedBut.restored {l l' : List Part} {s t : State} (h : UnchangedBut l s t)
    (hback : ∀ q ∈ l, q ∉ l' → q.Same s t) : UnchangedBut l' s t := by
  intro q hq
  by_cases hl : q ∈ l
  · exact hback q hl hq
  · exact h q hl

/-! The two hardware entries (60_exceptions.md R347, R348): one entry with a vector and a cost. -/

theorem irqCycles_eq : irqCycles = 7 ∨ irqCycles = 8 := by
  unfold irqCycles
  split
  · exact .inr rfl
  · exact .inl rfl

theorem nmiCycles_eq : nmiCycles = 7 ∨ nmiCycles = 8 := by
  unfold nmiCycles
  split
  · exact .inr rfl
  · exact .inl rfl

/-- The cost of an entry is not pushed, read or recorded. -/
theorem State.hardwareEntry_entersWith (s : State) (v : Addr) (n : Nat) :
    EntersWith v s.pc (statusPushedByHardware s.p) s ((s.interruptEntry v false).setCycles n) :=
  (s.interruptEntry_entersWith v false).congr rfl rfl rfl rfl rfl rfl rfl rfl rfl rfl rfl

theorem State.hardwareEntry_unchanged (s : State) (v : Addr) (n : Nat) :
    UnchangedBut [.pc, .sp, .p, .mem, .cycles, .deviceState, .busLog] s ((s.interruptEntry v false).setCycles n) := by
  refine ((s.interruptEntry_unchanged v false).trans (State.setCycles_unchanged _ n)).mono ?_
  simp

/-! `irq()` and `nmi()` (R341, R342). -/

theorem irq_poweredOff {s : State} (hp : s.power = .poweredOff) : irq s = .refused .poweredOff := by simp [irq, hp]

theorem nmi_poweredOff {s : State} (hp : s.power = .poweredOff) : nmi s = .refused .poweredOff := by simp [nmi, hp]

/-- Settles O52, by the refusal of each of the three operations. -/
theorem poweredOffRefusesAllButReset : Obligations.PoweredOffRefusesAllButReset :=
  ⟨fun _ => ⟨rfl, rfl, rfl, rfl⟩, fun _ hp => ⟨step_poweredOff hp, irq_poweredOff hp, nmi_poweredOff hp, rfl⟩⟩

theorem irq_inside {s : State} (hp : s.power = .running) (hc : s.cycles ≠ 0) :
    irq s = .next (s.clearLog.setIrqPending true) := by simp [irq, hp, hc]

theorem irq_masked {s : State} (hp : s.power = .running) (hc : s.cycles = 0) (hi : s.flag .i = true) :
    irq s = .next s.clearLog := by simp [irq, hp, hc, hi]

theorem irq_taken {s : State} (hp : s.power = .running) (hc : s.cycles = 0) (hi : s.flag .i = false) :
    irq s = .next s.clearLog.enterIrq := by simp [irq, hp, hc, hi]

theorem nmi_inside {s : State} (hp : s.power = .running) (hc : s.cycles ≠ 0) :
    nmi s = .next (s.clearLog.setNmiPending true) := by simp [nmi, hp, hc]

theorem nmi_taken {s : State} (hp : s.power = .running) (hc : s.cycles = 0) :
    nmi s = .next s.clearLog.enterNmi := by simp [nmi, hp, hc]

/-- An entry that a host call makes at once changes what every entry changes. -/
theorem State.hardwareEntry_call_unchanged (s : State) (v : Addr) (n : Nat) :
    UnchangedBut [.pc, .sp, .p, .mem, .cycles, .deviceState, .busLog] s
      ((s.clearLog.interruptEntry v false).setCycles n) := by
  refine (s.clearLog_unchanged.trans (s.clearLog.hardwareEntry_unchanged v n)).mono ?_
  simp

/-- Settles O53: the latch, the dropped request and the entry, by what `irq()` answers in each case. -/
theorem irqCallByBoundaryAndMask : Obligations.IrqCallByBoundaryAndMask := by
  intro s hp
  refine ⟨fun hc => ?_, fun hc hi => ?_, fun hc hi => ?_⟩
  · refine ⟨_, irq_inside hp hc, rfl, (s.clearLog_unchanged.trans (State.setIrqPending_unchanged _ true)).mono ?_⟩
    simp
  · exact ⟨_, irq_masked hp hc hi, s.clearLog_unchanged⟩
  · exact ⟨_, irq_taken hp hc hi, s.clearLog.hardwareEntry_entersWith irqVector irqCycles, irqCycles_eq,
      s.hardwareEntry_call_unchanged irqVector irqCycles⟩

/-- Settles O54: the latch and the entry, by what `nmi()` answers in both cases. -/
theorem nmiCallIsNeverMasked : Obligations.NmiCallIsNeverMasked := by
  intro s hp
  refine ⟨fun hc => ?_, fun hc => ?_⟩
  · refine ⟨_, nmi_inside hp hc, rfl, (s.clearLog_unchanged.trans (State.setNmiPending_unchanged _ true)).mono ?_⟩
    simp
  · exact ⟨_, nmi_taken hp hc, s.clearLog.hardwareEntry_entersWith nmiVector nmiCycles, nmiCycles_eq,
      s.hardwareEntry_call_unchanged nmiVector nmiCycles⟩

/-! The step that services a pending request (R344). -/

theorem step_pendingNmi {s : State} (hp : s.power = .running) (hc : s.cycles = 0) (hn : s.nmiPending = true) :
    step s = .next (s.clearLog.setNmiPending false).enterNmi.countTick := by
  simp [step_boundary hp hc, boundaryTick, servicePending, hn, counted]

theorem step_pendingIrq {s : State} (hp : s.power = .running) (hc : s.cycles = 0) (hn : s.nmiPending = false)
    (hq : s.irqPending = true) (hi : s.flag .i = false) :
    step s = .next (s.clearLog.setIrqPending false).enterIrq.countTick := by
  simp [step_boundary hp hc, boundaryTick, servicePending, hn, hq, hi, counted]

/-- The tick of an NMI entry counts as one of its 7 or 8. (40_execution_cycle.md R120) -/
theorem State.enterNmi_countTick_cycles (s : State) :
    s.enterNmi.countTick.cycles = 6 ∨ s.enterNmi.countTick.cycles = 7 := by
  have hcycles : s.enterNmi.countTick.cycles = nmiCycles - 1 := rfl
  have hcost := nmiCycles_eq
  omega

/-- The tick of an IRQ entry counts as one of its 7 or 8. (R120) -/
theorem State.enterIrq_countTick_cycles (s : State) :
    s.enterIrq.countTick.cycles = 6 ∨ s.enterIrq.countTick.cycles = 7 := by
  have hcycles : s.enterIrq.countTick.cycles = irqCycles - 1 := rfl
  have hcost := irqCycles_eq
  omega

/-- A masked request is dropped, and the step is the one that finds none. -/
theorem step_maskedIrq {s : State} (hp : s.power = .running) (hc : s.cycles = 0) (hn : s.nmiPending = false)
    (hq : s.irqPending = true) (hi : s.flag .i = true) : step s = step (s.setIrqPending false) := by
  have hdrop : boundaryTick s.clearLog = executeInstruction (s.clearLog.setIrqPending false) := by
    simp [boundaryTick, servicePending, hn, hq, hi]
  have hnone : boundaryTick (s.setIrqPending false).clearLog = executeInstruction (s.setIrqPending false).clearLog := by
    simp [boundaryTick, hn]
  rw [step_boundary hp hc, step_boundary (s := s.setIrqPending false) hp hc, hdrop, hnone]
  rfl

/-- The tick that enters a pending NMI changes what every entry changes, the latch and the counts. -/
theorem State.nmiTick_unchanged (s : State) :
    UnchangedBut [.pc, .sp, .p, .mem, .nmiPending, .totalCycles, .cycles, .deviceState, .busLog] s
      (s.clearLog.setNmiPending false).enterNmi.countTick := by
  refine (((s.clearLog_unchanged.trans (State.setNmiPending_unchanged _ false)).trans
    (State.hardwareEntry_unchanged _ nmiVector nmiCycles)).trans (State.countTick_unchanged _)).mono ?_
  simp

/-- The tick that enters a pending IRQ changes what every entry changes, the latch and the counts. -/
theorem State.irqTick_unchanged (s : State) :
    UnchangedBut [.pc, .sp, .p, .mem, .irqPending, .totalCycles, .cycles, .deviceState, .busLog] s
      (s.clearLog.setIrqPending false).enterIrq.countTick := by
  refine (((s.clearLog_unchanged.trans (State.setIrqPending_unchanged _ false)).trans
    (State.hardwareEntry_unchanged _ irqVector irqCycles)).trans (State.countTick_unchanged _)).mono ?_
  simp

theorem State.nmiTick_entersWith (s : State) : EntersWith nmiVector s.pc (statusPushedByHardware s.p) s.clearLog
    (s.clearLog.setNmiPending false).enterNmi.countTick :=
  ((s.clearLog.setNmiPending false).hardwareEntry_entersWith nmiVector nmiCycles).congr
    rfl rfl rfl rfl rfl rfl rfl rfl rfl rfl rfl

theorem State.irqTick_entersWith (s : State) : EntersWith irqVector s.pc (statusPushedByHardware s.p) s.clearLog
    (s.clearLog.setIrqPending false).enterIrq.countTick :=
  ((s.clearLog.setIrqPending false).hardwareEntry_entersWith irqVector irqCycles).congr
    rfl rfl rfl rfl rfl rfl rfl rfl rfl rfl rfl

/-- Settles O55, by the step in each of the three cases. -/
theorem pendingServicedAtTheBoundary : Obligations.PendingServicedAtTheBoundary := by
  intro s hp hc
  refine ⟨fun hn => ?_, fun hn hq hi => ?_, fun hn hq hi => step_maskedIrq hp hc hn hq hi⟩
  · exact ⟨_, step_pendingNmi hp hc hn, by simp [State.enterNmi], s.nmiTick_entersWith,
      State.enterNmi_countTick_cycles _, by simp [State.enterNmi], s.nmiTick_unchanged⟩
  · exact ⟨_, step_pendingIrq hp hc hn hq hi, by simp [State.enterIrq], s.irqTick_entersWith,
      State.enterIrq_countTick_cycles _, by simp [State.enterIrq], s.irqTick_unchanged⟩

/-! The countdown (40_execution_cycle.md R120). -/

/-- As many ticks as the countdown says end at a boundary, and change nothing but the counts and the record. -/
theorem core_run_countdown {s : State} (hp : s.power = .running) :
    ∃ u, Host.Core.run core s.cycles s = .next u ∧ u.cycles = 0 ∧
      UnchangedBut [.cycles, .totalCycles, .busLog] s u :=
  ⟨_, core_run_wait hp le_rfl, Nat.sub_self _, by simp [unchangedBut_iff]⟩

/-- Settles O56: the entry's tick and the countdown it leaves keep the request and set I, which then drops it. -/
theorem irqLatchedWithNmiIsLost : Obligations.IrqLatchedWithNmiIsLost := by
  intro s hp hc hn hq
  obtain ⟨hservice, -⟩ := pendingServicedAtTheBoundary s hp hc
  obtain ⟨t, hstep, hcleared, henters, hcost, -, hentry⟩ := hservice hn
  obtain ⟨-, -, -, -, -, -, hmask, -⟩ := henters
  have hpower : t.power = .running := (hentry .power (by decide)).trans hp
  obtain ⟨u, hrun, hcycles, hwait⟩ := core_run_countdown hpower
  have hnmi : u.nmiPending = false := (hwait .nmiPending (by decide)).trans hcleared
  have hirq : u.irqPending = true := ((hwait .irqPending (by decide)).trans (hentry .irqPending (by decide))).trans hq
  have hmasked : u.flag .i = true := (congrArg (getFlag .i) (hwait .p (by decide))).trans hmask
  refine ⟨t.cycles + 1, u, by omega, (core_run_succ hstep _).trans hrun, hcycles, hnmi, hirq, hmasked, ?_⟩
  exact step_maskedIrq ((hwait .power (by decide)).trans hpower) hcycles hnmi hirq hmasked

/-- Settles O57: the countdown keeps the latched request, PC and P, and the step at its end is an entry. -/
theorem irqLatencyIsTheCountdown : Obligations.IrqLatencyIsTheCountdown := by
  intro s k hp hk hcycles hi hn
  let latched := s.clearLog.setIrqPending true
  have hpower : latched.power = .running := hp
  obtain ⟨u, hrun, hboundary, hframe⟩ := core_run_countdown hpower
  have hpc : u.pc = s.pc := hframe .pc (by decide)
  have hstatus : u.p = s.p := hframe .p (by decide)
  have hstep := step_pendingIrq ((hframe .power (by decide)).trans hpower) hboundary
    ((hframe .nmiPending (by decide)).trans hn) (hframe .irqPending (by decide))
    ((congrArg (getFlag .i) hstatus).trans hi)
  refine ⟨latched, u, _, irq_inside hp (by omega), ?_, hboundary, hpc, hstep, ?_⟩
  · rw [← hcycles]
    exact hrun
  · rw [← hpc, ← hstatus]
    exact u.irqTick_entersWith

/-! The return from an entry on a bus of RAM (R351). -/

theorem AllRam.peek {s : State} (h : AllRam s) (a : Addr) : s.peek a = Memory.read s.mem a.toNat :=
  State.peek_plain (by simp [h a])

theorem AllRam.afterRead {s : State} (h : AllRam s) (a : Addr) : AllRam (s.afterRead a) := h

/-- On RAM the three bytes above SP are, after an entry, the status and the return address it pushed. -/
theorem EntersWith.stacked {v ret : Addr} {status : Byte} {s t : State} (h : EntersWith v ret status s t)
    (hmem : Memory.wf s.mem = true) (hs : AllRam s) :
    Memory.read t.mem (stackAddr (t.sp + 1#8)).toNat = status ∧
      Memory.read t.mem (stackAddr (t.sp + 2#8)).toNat = lowByte ret ∧
      Memory.read t.mem (stackAddr (t.sp + 3#8)).toNat = page ret ∧ t.sp + 3#8 = s.sp := by
  obtain ⟨⟨hhigh, -⟩, ⟨hlow, -⟩, ⟨hstatus, -⟩, -, hsp, -⟩ := h
  have h1 : t.sp + 1#8 = s.sp - 2#8 := by bv_omega
  have h2 : t.sp + 2#8 = s.sp - 1#8 := by bv_omega
  have h3 : t.sp + 3#8 = s.sp := by bv_omega
  rw [h1, h2, h3]
  exact ⟨hstatus hmem (hs _), hlow hmem (hs _), hhigh hmem (hs _), rfl⟩

/-- On RAM no call of an entry reaches the devices. -/
theorem AllRam.interruptEntry_deviceState {s : State} (h : AllRam s) (v : Addr) (brk : Bool) :
    (s.interruptEntry v brk).deviceState = s.deviceState := by
  have hk : ∀ a, s.kindAt a = .ram := h
  simp [State.interruptEntry, State.pushWord, State.deviceAfterRead_plain, State.deviceAfterWrite_plain, hk]

/-- On RAM no call of the return reaches the devices. -/
theorem AllRam.interruptReturn_deviceState {s : State} (h : AllRam s) :
    s.interruptReturn.deviceState = s.deviceState := by
  have hk : ∀ a, s.kindAt a = .ram := h
  simp [State.interruptReturn, State.pullStatus, State.pullWord, State.deviceAfterRead_plain, hk]

theorem State.runImplied_deviceState {effect : State → State} {s : State}
    (h : (effect (s.setFetched s.a)).deviceState = s.deviceState) (m : Mnemonic) :
    (s.runImplied m effect).deviceState = s.deviceState := h

theorem exec_brk_deviceState {s t : State} (h : AllRam s) (ht : exec .brk s = .next t) :
    t.deviceState = s.deviceState := by
  cases (exec_brk s).symm.trans ht
  exact State.runImplied_deviceState
    (AllRam.interruptEntry_deviceState (s := (s.setFetched s.a).setPc (s.pc + 1#16)) h irqVector true) .brk

theorem exec_rti_deviceState {s t : State} (h : AllRam s) (ht : exec .rti s = .next t) :
    t.deviceState = s.deviceState := by
  cases (exec_rti s).symm.trans ht
  exact State.runImplied_deviceState (AllRam.interruptReturn_deviceState (s := s.setFetched s.a) h) .rti

/-- With live B clear and live U set, the status an entry pushes is restored to what it was. (10_state.md R47) -/
theorem State.Steady.statusRestored_entry {s : State} (h : s.Steady) (brk : Bool) :
    statusRestored (statusForEntry brk s.p) = s.p := by
  have hb := h.breakClear
  have hu := h.unusedSet
  refine status_ext fun f => ?_
  cases brk <;> cases f <;> simp [statusForEntry, hb, hu]

/-- On RAM, RTI right after an entry goes to the return address and leaves the rest as before the entry, but for
memory and the countdown. -/
theorem exec_rti_after_entry {v ret : Addr} {brk : Bool} {s e : State} (hs : s.Steady) (hram : AllRam s)
    (henters : EntersWith v ret (statusForEntry brk s.p) s e)
    (hentry : UnchangedBut [.pc, .sp, .p, .mem, .cycles, .deviceState, .busLog] s e)
    (hdevices : e.deviceState = s.deviceState) :
    ∃ u, exec .rti e = .next u ∧ u.pc = ret ∧ UnchangedBut [.pc, .mem, .cycles, .busLog] s u := by
  obtain ⟨hstatus, hlow, hhigh, hsp⟩ := henters.stacked hs.memory hram
  have heram : AllRam e := fun a => (congrArg (kindOf · a) (hentry .regions (by decide))).trans (hram a)
  obtain ⟨-, hrti⟩ := rtiRestoresStatusThenPc
  obtain ⟨u, hu, ⟨hup, hupc, -⟩, husp, hreturn⟩ := hrti e
  rw [((heram.afterRead _).afterRead _).peek, (heram.afterRead _).peek, State.afterRead_mem, State.afterRead_mem,
    hlow, hhigh, word_page_lowByte] at hupc
  rw [heram.peek, hstatus] at hup
  refine ⟨u, hu, hupc, (hentry.trans hreturn).restored ?_⟩
  intro q hlist hkept
  cases q with
  | sp => exact husp.trans hsp
  | p => exact hup.trans (hs.statusRestored_entry brk)
  | deviceState => exact (exec_rti_deviceState heram hu).trans hdevices
  | pc | mem | cycles | busLog => simp at hkept
  | _ => simp at hlist

/-- On RAM, RTI right after a hardware entry goes to where the entry came from. -/
theorem exec_rti_after_hardwareEntry {s : State} (hs : s.Steady) (hram : AllRam s) (v : Addr) (n : Nat) :
    ∃ u, exec .rti ((s.interruptEntry v false).setCycles n) = .next u ∧ u.pc = s.pc ∧
      UnchangedBut [.mem, .cycles, .busLog] s u := by
  obtain ⟨u, hu, hpc, hrest⟩ := exec_rti_after_entry (brk := false) hs hram (s.hardwareEntry_entersWith v n)
    (s.hardwareEntry_unchanged v n) (hram.interruptEntry_deviceState v false)
  refine ⟨u, hu, hpc, hrest.restored ?_⟩
  simp [Part.Same, hpc]

/-- Settles O58: each entry pushes the status and the return address, which RTI restores. -/
theorem rtiUndoesAnEntry : Obligations.RtiUndoesAnEntry := by
  intro s hinv hp hram
  have hs := hinv.steady hp
  refine ⟨?_, ?_⟩
  · simp only [List.forall_mem_cons]
    exact ⟨exec_rti_after_hardwareEntry hs hram irqVector irqCycles,
      exec_rti_after_hardwareEntry hs hram nmiVector nmiCycles, nofun⟩
  · obtain ⟨-, hbrk⟩ := brkEntersThroughTheIrqVector
    obtain ⟨t, ht, henters, hentry⟩ := hbrk s
    obtain ⟨u, hu, hpc, hrest⟩ := exec_rti_after_entry (brk := true) hs hram henters hentry
      (exec_brk_deviceState hram ht)
    exact ⟨t, u, ht, hu, hpc, hrest⟩

/-! `reset()` (70_reset_and_hazards.md R380, R381). -/

theorem reset_cycles (s : State) : (reset s).cycles = 8 := rfl

theorem reset_power (s : State) : (reset s).power = .running := rfl

/-- Settles O46: every field is written by the reset, by its two vector reads, or not at all. -/
theorem resetLoadsItsValues : Obligations.ResetLoadsItsValues := by
  intro s
  exact ⟨rfl, rfl, rfl, rfl, rfl, rfl, rfl, rfl, rfl, rfl, reset_cycles s, rfl, rfl, rfl, rfl, rfl, rfl, rfl⟩

/-! The record of bus calls only grows within a tick: no instruction takes a call back (40_execution_cycle.md R127). -/

theorem State.extends_of_busLog_eq {s t : State} (h : t.busLog = s.busLog) : s.busLog <+: t.busLog :=
  ⟨[], by rw [h, List.append_nil]⟩

theorem State.afterRead_extends (s : State) (a : Addr) : s.busLog <+: (s.afterRead a).busLog := ⟨_, rfl⟩

theorem State.write8_extends (s : State) (a : Addr) (v : Byte) : s.busLog <+: (s.write8 a v).busLog :=
  ⟨_, rfl⟩

theorem State.pullWord_extends (s : State) : s.busLog <+: s.pullWord.2.busLog :=
  ⟨_, s.pullWord_busLog.symm⟩

theorem State.pushWord_extends (s : State) (v : Addr) : s.busLog <+: (s.pushWord v).busLog :=
  ⟨_, (s.pushWord_busLog v).symm⟩

theorem State.interruptEntry_extends (s : State) (v : Addr) (brk : Bool) :
    s.busLog <+: (s.interruptEntry v brk).busLog := by
  obtain ⟨-, -, -, -, -, -, -, -, hlog⟩ := s.interruptEntry_entersWith v brk
  exact ⟨_, hlog.symm⟩

theorem State.interruptReturn_extends (s : State) : s.busLog <+: s.interruptReturn.busLog :=
  ⟨_, s.interruptReturn_busLog.symm⟩

theorem State.resolve_extends (s : State) (o : Operand) : s.busLog <+: (s.resolve o).2.busLog := by
  cases o with
  | ind | izx | izy => simp [State.resolve, State.indexInto]
  | _ => exact State.extends_of_busLog_eq rfl

theorem State.fetchOperand_extends (s : State) (m : Mode) : s.busLog <+: (s.fetchOperand m).2.busLog := by
  by_cases h : m.inMemory = true
  · rw [State.fetchOperand_inMemory h]
    exact s.afterRead_extends s.addrAbs
  · rw [State.fetchOperand_latch (by simpa using h)]

theorem State.writeBack_extends (s : State) (v : Byte) (m : Mode) : s.busLog <+: (s.writeBack v m).busLog := by
  by_cases h : m = .acc
  · rw [h]
    exact State.extends_of_busLog_eq rfl
  · rw [State.writeBack_notAcc h]
    exact s.write8_extends s.addrAbs v

theorem State.runImplied_extends {effect : State → State} (h : ∀ t, t.busLog <+: (effect t).busLog) (s : State)
    (m : Mnemonic) : s.busLog <+: (s.runImplied m effect).busLog :=
  h (s.resolve .imp).2

theorem State.runRead_extends {effect : Byte → State → State} (h : ∀ v t, t.busLog <+: (effect v t).busLog)
    (s : State) (m : Mnemonic) (o : Operand) : s.busLog <+: (s.runRead m o effect).busLog :=
  ((s.resolve_extends o).trans (State.fetchOperand_extends _ o.mode)).trans (h _ _)

theorem State.runModify_extends (s : State) (m : Mnemonic) (o : Operand) (result status : Byte → State → Byte) :
    s.busLog <+: (s.runModify m o result status).busLog :=
  State.runRead_extends (fun v t => (t.setP (status v t)).writeBack_extends (result v t) o.mode) s m o

theorem State.runStore_extends (s : State) (m : Mnemonic) (o : Operand) (register : State → Byte) :
    s.busLog <+: (s.runStore m o register).busLog :=
  (s.resolve_extends o).trans (State.write8_extends _ _ _)

theorem State.runBranch_busLog (s : State) (m : Mnemonic) (d : Byte) (taken : State → Bool) :
    (s.runBranch m d taken).busLog = s.busLog := by
  simp only [State.runBranch]
  split <;> rfl

/-- The bus calls of an instruction come after those of its fetch. -/
theorem exec_extends (i : Instr) (s : State) : ∃ t, exec i s = .next t ∧ s.busLog <+: t.busLog := by
  cases i with
  | adc | and | bit | cmp | cpx | cpy | eor | lda | ldx | ldy | ora | sbc =>
    refine ⟨_, rfl, State.runRead_extends (fun _ _ => ?_) s _ _⟩
    exact State.extends_of_busLog_eq rfl
  | asl | dec | inc | lsr | rol | ror =>
    exact ⟨_, rfl, State.runModify_extends s _ _ _ _⟩
  | sta | stx | sty =>
    exact ⟨_, rfl, State.runStore_extends s _ _ _⟩
  | bcc | bcs | beq | bmi | bne | bpl | bvc | bvs =>
    exact ⟨_, rfl, State.extends_of_busLog_eq (s.runBranch_busLog _ _ _)⟩
  | jmp o =>
    exact ⟨_, exec_jmp o s, s.resolve_extends o⟩
  | jsr a =>
    exact ⟨_, rfl, State.pushWord_extends (s.setAddrAbs a) (s.pc - 1#16)⟩
  | pha | php =>
    refine ⟨_, rfl, State.runImplied_extends (fun t => ?_) s _⟩
    exact t.write8_extends _ _
  | pla | plp =>
    refine ⟨_, rfl, State.runImplied_extends (fun t => ?_) s _⟩
    exact t.pullSp.afterRead_extends _
  | rts =>
    exact ⟨_, rfl, State.runImplied_extends (fun t => t.pullWord_extends) s .rts⟩
  | rti =>
    exact ⟨_, rfl, State.runImplied_extends State.interruptReturn_extends s .rti⟩
  | brk =>
    exact ⟨_, exec_brk s, State.runImplied_extends
      (fun t => (t.setPc (t.pc + 1#16)).interruptEntry_extends irqVector true) s _⟩
  | clc | cld | cli | clv | dex | dey | inx | iny | nop | sec | sed | sei | tax | tay | tsx | txa | txs | tya | ill =>
    refine ⟨_, rfl, State.runImplied_extends (fun _ => ?_) s _⟩
    exact State.extends_of_busLog_eq rfl

theorem fetchBytes_extends (n : Nat) (s : State) : s.busLog <+: (State.fetchBytes n s).2.busLog := by
  induction n generalizing s with
  | zero => exact State.extends_of_busLog_eq rfl
  | succ n ih => exact (s.afterRead_extends s.pc).trans (ih s.fetchByte.2)

/-- A step at a boundary with nothing pending reads the byte at PC first. (40_execution_cycle.md R122, R127) -/
theorem step_reads_pc_first {s : State} (hp : s.power = .running) (hc : s.cycles = 0) (hn : s.nmiPending = false)
    (hi : s.irqPending = false) :
    ∃ u, step s = .next u ∧ u.busLog.head? = some (.read s.pc (s.peek s.pc)) := by
  obtain ⟨t, ht, hexec⟩ := exec_extends s.clearLog.fetchInstr.1 s.clearLog.fetchInstr.2
  have hfetch : [BusAccess.read s.pc (s.peek s.pc)] <+: s.clearLog.fetchInstr.2.busLog :=
    fetchBytes_extends _ s.clearLog.fetchByte.2
  obtain ⟨rest, hrest⟩ := hfetch.trans hexec
  refine ⟨t.countTick, by rw [step_execute hp hc hn hi, ht, counted], ?_⟩
  rw [State.countTick_busLog, ← hrest]
  rfl

/-- The ticks of the reset's countdown only count. (R381) -/
theorem reset_run {k : Nat} (hk : k ≤ 8) (s : State) : Host.Core.run core k (reset s) = .next
    { reset s with
      cycles := 8 - k
      totalCycles := s.totalCycles + BitVec.ofNat 64 k
      busLog := if k = 0 then (reset s).busLog else [] } :=
  core_run_wait (reset_power s) hk

/-- Settles O47: the reset's countdown is a wait of eight ticks, and the step at its end is an instruction's. -/
theorem resetCountdownHoldsTheFirstFetch : Obligations.ResetCountdownHoldsTheFirstFetch := by
  intro s
  refine ⟨fun k hk => reset_run hk s, fun k hk t ht => ?_, ?_⟩
  · cases (reset_run hk s).symm.trans ht
    simp only [complete, decide_eq_decide]
    omega
  · obtain ⟨t, ht, hcycles, hframe⟩ := core_run_countdown (reset_power s)
    have hpc : t.pc = (reset s).pc := hframe .pc (by decide)
    obtain ⟨u, hu, hhead⟩ := step_reads_pc_first ((hframe .power (by decide)).trans (reset_power s)) hcycles
      (hframe .nmiPending (by decide)) (hframe .irqPending (by decide))
    rw [reset_cycles] at ht
    rw [hpc] at hhead
    exact ⟨t, u, ht, hu, hhead⟩

end Sys2Proof.Machine
end
